-- ==== Sys2Proof/Word.lean ====
section
/-! DEFINITION. The words of TMC5130-RCB (spec/00_scope.md R8, R10): bytes, 32-bit register words, 7-bit register
addresses, and the two word formats of the command port. -/

namespace Sys2Proof

/-- A Byte, 8 bits (R10). -/
abbrev Byte := BitVec 8

/-- A Word32, the only width of a register value (R8 VALUE_W, R10, R63). Bit 0 is the least significant bit. -/
abbrev Word := BitVec 32

/-- An Addr7: a register number of the peripheral, 0x00 to 0x7F (R8 ADDR_W, R60). -/
abbrev Addr := BitVec 7

/-- A command word (R98) or a response word (R101), 48 bits each (R8 CMD_W, RESP_W). -/
abbrev PortWord := BitVec 48

/-- A transport error, opaque to the block and 32 bits wide at the response port (R8 TErr, D27). -/
abbrev TErr := BitVec 32

end Sys2Proof
end

