-- ==== Sys2Proof/Config.lean ====
section
/-! DEFINITION. The parameters of the block (spec/00_scope.md R8) and the free values of the model. The fixed constants
of R8 stand where they are used; the OPEN parameters form the structure Params, which State holds as plain data, so that a
statement about every state is a statement about every choice of them (notes/assumptions/11.md). A constant without a
body is a value the spec leaves open: nothing in Lean can say what it is. -/

namespace Sys2Proof.Config

/-- The sixteen registers of the peripheral that the block's commands use (10_state.md R29). -/
inductive RegName where
  | gconf | iholdIrun | rampmode | xactual | vactual | a1 | v1 | amax | vmax | dmax | d1 | vstop | xtarget | xenc
  | chopconf | pwmconf
deriving DecidableEq, Repr

/-- The sixteen registers in the order of R29's table. -/
def RegName.all : List RegName :=
  [.gconf, .iholdIrun, .rampmode, .xactual, .vactual, .a1, .v1, .amax, .vmax, .dmax, .d1, .vstop, .xtarget, .xenc,
   .chopconf, .pwmconf]

/-- The register map: the ADDR_ parameters (R8, R29, D8). -/
structure RegMap where
  gconf : Addr
  iholdIrun : Addr
  rampmode : Addr
  xactual : Addr
  vactual : Addr
  a1 : Addr
  v1 : Addr
  amax : Addr
  vmax : Addr
  dmax : Addr
  d1 : Addr
  vstop : Addr
  xtarget : Addr
  xenc : Addr
  chopconf : Addr
  pwmconf : Addr
deriving DecidableEq, Repr

/-- The address of a named register: ADDR_<name> of R29. -/
def RegMap.addr (m : RegMap) : RegName → Addr
  | .gconf => m.gconf
  | .iholdIrun => m.iholdIrun
  | .rampmode => m.rampmode
  | .xactual => m.xactual
  | .vactual => m.vactual
  | .a1 => m.a1
  | .v1 => m.v1
  | .amax => m.amax
  | .vmax => m.vmax
  | .dmax => m.dmax
  | .d1 => m.d1
  | .vstop => m.vstop
  | .xtarget => m.xtarget
  | .xenc => m.xenc
  | .chopconf => m.chopconf
  | .pwmconf => m.pwmconf

/-- RM_VAL: the register word of each ramp mode (R8, R32, D9). -/
structure RmVals where
  position : Word
  velocityPositive : Word
  velocityNegative : Word
  hold : Word
deriving DecidableEq, Repr

/-- CS_POLICY: what happens to a scaled current outside 0..31 (R8, R187, D14). -/
inductive CsPolicy where
  /-- The scale is clamped to 0..31 (the default). -/
  | clamp
  /-- The command is refused before any bus primitive. -/
  | refuse
deriving DecidableEq, Repr

/-- The parameters a model takes as arguments (R8). RELEASE_ON_ERROR is no member: the model draws it at each failing
primitive (D7). T_ACCESS_MIN is no member: no rule's result depends on it (D23, notes/assumptions/25.md). -/
structure Params where
  /-- The sixteen register addresses (D8). -/
  map : RegMap
  /-- The four ramp-mode words (D9). -/
  rmVal : RmVals
  /-- PROFILE_DEFAULT[0..6] (D10). -/
  profileDefault : Vector Word 7
  /-- CHOPCONF_DEFAULT (D10). -/
  chopconfDefault : Word
  /-- PWMCONF_DEFAULT (D10). -/
  pwmconfDefault : Word
  /-- ReadBack: the addresses whose read returns the last value written (R73, D19). -/
  readBack : List Addr
  /-- Volatile: the addresses the chip changes on its own (R72, D18). -/
  volatile : List Addr
  /-- CS_POLICY (D14). -/
  policy : CsPolicy
deriving DecidableEq, Repr

/-- What R8, R29, R72, R73 and R77 require of the parameters: the sixteen addresses and the four mode words pairwise
distinct; GCONF and CHOPCONF in ReadBack and not Volatile; XACTUAL, VACTUAL and XENC Volatile. That an address is at most
0x7F is its type. -/
abbrev Params.wf (p : Params) : Prop :=
  (RegName.all.map p.map.addr).Nodup ∧
  [p.rmVal.position, p.rmVal.velocityPositive, p.rmVal.velocityNegative, p.rmVal.hold].Nodup ∧
  p.map.gconf ∈ p.readBack ∧ p.map.chopconf ∈ p.readBack ∧
  p.map.gconf ∉ p.volatile ∧ p.map.chopconf ∉ p.volatile ∧
  p.map.xactual ∈ p.volatile ∧ p.map.vactual ∈ p.volatile ∧ p.map.xenc ∈ p.volatile

/-- PRESUMED (notes/assumptions/8.md): the general-knowledge default addresses of R8 and R29 (G1). -/
def defaultMap : RegMap :=
  { gconf := 0x00, iholdIrun := 0x10, rampmode := 0x20, xactual := 0x21, vactual := 0x22, a1 := 0x24, v1 := 0x25,
    amax := 0x26, vmax := 0x27, dmax := 0x28, d1 := 0x2A, vstop := 0x2B, xtarget := 0x2D, xenc := 0x39,
    chopconf := 0x6C, pwmconf := 0x70 }

/-- PRESUMED (notes/assumptions/8.md): the general-knowledge default mode words of R8 and R32 (G2). -/
def defaultRmVals : RmVals :=
  { position := 0, velocityPositive := 1, velocityNegative := 2, hold := 3 }

/-- FREE VALUE: PROFILE_DEFAULT[i] of the machine at launch; the spec gives no value (R8, D10). -/
opaque profileDefault : Fin 7 → Word

/-- FREE VALUE: CHOPCONF_DEFAULT of the machine at launch; the spec gives no value (R8, D10). -/
opaque chopconfDefault : Word

/-- FREE VALUE: PWMCONF_DEFAULT of the machine at launch; the spec gives no value (R8, D10). -/
opaque pwmconfDefault : Word

/-- The parameters of State.reset: the spec's defaults where it gives them (map, rmVal, policy), the guaranteed minimum
for the two sets (notes/assumptions/10.md), and free values for the nine words without a default. -/
def launchParams : Params :=
  { map := defaultMap, rmVal := defaultRmVals
    profileDefault := Vector.ofFn profileDefault
    chopconfDefault := chopconfDefault, pwmconfDefault := pwmconfDefault
    readBack := [defaultMap.gconf, defaultMap.chopconf]
    volatile := [defaultMap.xactual, defaultMap.vactual, defaultMap.xenc]
    policy := .clamp }

/-- FREE VALUE: x[i] at launch (`n` 0) and after the reset that brings the count of draws to `n` (R44, D20: no value, not
zero). -/
opaque resetProfile (n : Nat) (i : Fin 7) : Word

/-- FREE VALUE: cs at launch (`n` 0) and after the reset that brings the count of draws to `n` (R44, D20). -/
opaque resetHandle (n : Nat) : Byte

/-- FREE VALUE: the content of a peripheral register that no frame and no act of the chip has changed since launch
(`epoch` 0) or since the chip's `epoch`-th power-cycle (R45, U2: never assumed zero). -/
opaque launchWord (epoch : Nat) (a : Addr) : Word

/-- FREE VALUE: the read latch at launch, where the chip may have been running before the block (R45: pend is unknown). -/
opaque launchPend : Option Addr

/-- FREE VALUE: the Status Byte of the `n`-th answer when the script of answers has run out (R67: draw Byte). -/
opaque freeStatus (n : Nat) : Byte

/-- FREE VALUE: the undetermined data bytes of the `n`-th answer when the script has run out (R68: draw Word32). -/
opaque freeData (n : Nat) : Word

/-- FREE VALUE: what the chip sets its Volatile register `a` to before the `n`-th answer when the script has run out
(R72: any register of the Volatile set to any value). -/
opaque freeChange (n : Nat) (a : Addr) : Word

end Sys2Proof.Config
end

