-- ==== Sys2Proof/Syntax.lean ====
section
/-! DEFINITION. The instructions of TMC5130-RCB: the eighteen commands of the command port (spec/30_encoding.md R98, R99)
and the two wire frames the block sends (R91, R92), one constructor per row of spec/opcode_table.json; the 5-byte frame;
the responses (R101). -/

namespace Sys2Proof

/-- A frame, exactly five bytes, `b0` first on the wire (R10, R90). -/
structure Frame where
  b0 : Byte
  b1 : Byte
  b2 : Byte
  b3 : Byte
  b4 : Byte
deriving DecidableEq, Repr

/-- The four ramp modes, in the order of the port's mode codes 0..3 (R32, R99). -/
inductive RampMode where
  | position | velocityPositive | velocityNegative | hold
deriving DecidableEq, Repr

/-- The closed set of instructions. Signed operands (positions, a jog delta) are held as the two's-complement pattern
u32(n) that goes on the wire (R96; notes/assumptions/29.md). -/
inductive Instr where
  /-- `begin cs` (R193). -/
  | beginBlock (cs : Byte)
  /-- `write addr, value` (R130). -/
  | write (a : Addr) (v : Word)
  /-- `read addr` (R131). -/
  | read (a : Addr)
  /-- `setRampMode mode` (R150). -/
  | setRampMode (m : RampMode)
  /-- `jog deltaSteps` (R152). -/
  | jog (d : Word)
  /-- `moveTo position` (R151). -/
  | moveTo (p : Word)
  /-- `setVelocity v` (R155). -/
  | setVelocity (v : Word)
  /-- `enableStealthChop enabled` (R180). -/
  | enableStealthChop (en : Bool)
  /-- `reverseDirection enabled` (R182). -/
  | reverseDirection (en : Bool)
  /-- `setPosition pos` (R157). -/
  | setPosition (p : Word)
  /-- `getPosition` (R158). -/
  | getPosition
  /-- `setCurrentLimits hold, run, holdDelay`, the two currents in milliamps (R100, R189). -/
  | setCurrentLimits (delay : BitVec 4) (hold run : BitVec 16)
  /-- `updateMotionProfile` (R191). -/
  | updateMotionProfile
  /-- `getEncoderPosition` (R160). -/
  | getEncoderPosition
  /-- `setEncoderPosition pos` (R159). -/
  | setEncoderPosition (p : Word)
  /-- `isStopped` (R156). -/
  | isStopped
  /-- `setProfileField field, value` (R195). -/
  | setProfileField (i : BitVec 3) (v : Word)
  /-- `getProfileField field` (R196). -/
  | getProfileField (i : BitVec 3)
  /-- A write frame on the wire (R91, FRAME.WR). -/
  | frameWr (a : Addr) (v : Word)
  /-- A read-request frame on the wire (R92, FRAME.RD). -/
  | frameRd (a : Addr)
deriving DecidableEq, Repr

/-- The response kinds of R101 with their contents. -/
inductive Response where
  | ack
  | value (v : Word)
  | statusValue (status : Byte) (v : Word)
  | bool (b : Bool)
  | transportError (e : TErr)
  | illegal
deriving DecidableEq, Repr

/-- Why a command word or a wire frame is no instruction (R110, R92). -/
inductive Reject where
  /-- R110 (a): the operation code is 0x00 or 0x13..0xFF. -/
  | undefinedOpcode
  /-- R110 (b): a field the command does not use is not zero. -/
  | unusedFieldNotZero
  /-- R110 (c): a reserved high part of the field a is not zero. -/
  | reservedBitsNotZero
  /-- R110 (d): the profile index is 7. -/
  | profileIndexSeven
  /-- R92, R109: a read-request frame whose payload is not zero. -/
  | readPayloadNotZero
deriving DecidableEq, Repr

end Sys2Proof
end

