-- ==== Sys2Proof/WellFormed.lean ====
section
/-! DEFINITION. Which terms of Instr are instructions of the block. The types already confine every operand to its field's
width (spec/30_encoding.md R99); the one check left is R110 (d): a profile index is 0..6. -/

namespace Sys2Proof

/-- A profile index names one of the seven cache registers x[0..6] (R20, R110 (d)). -/
def profileIndexOk (i : BitVec 3) : Bool := i ≠ 7

/-- The instruction has a legal encoding (R99, R110). -/
def Instr.wf : Instr → Bool
  | .setProfileField i _ => profileIndexOk i
  | .getProfileField i => profileIndexOk i
  | .beginBlock _ | .write _ _ | .read _ | .setRampMode _ | .jog _ | .moveTo _ | .setVelocity _ => true
  | .enableStealthChop _ | .reverseDirection _ | .setPosition _ | .getPosition | .setCurrentLimits _ _ _ => true
  | .updateMotionProfile | .getEncoderPosition | .setEncoderPosition _ | .isStopped => true
  | .frameWr _ _ | .frameRd _ => true

end Sys2Proof
end

