-- ==== Sys2Proof/Decode.lean ====
section
/-! DEFINITION. The encodings of spec/30_encoding.md: the wire codec (R91 to R96), the decoder of command words (R98, R99,
R110) and of wire frames (R90 to R92), the encoder and the response words (R101).
`decodeWord` reads the opcode table's joint 48-bit numbering, in which a wire frame has the top byte zero
(notes/assumptions/20.md). -/

namespace Sys2Proof

/-! ### Wire codec -/

/-- The address byte without the write flag: `0 ‖ A`. -/
def addrByte (a : Addr) : Byte := a.setWidth 8

/-- The four data bytes of V, most significant first, behind a given byte 0 (R62). -/
def frameOf (b0 : Byte) (v : Word) : Frame :=
  { b0 := b0, b1 := v.extractLsb' 24 8, b2 := v.extractLsb' 16 8, b3 := v.extractLsb' 8 8, b4 := v.extractLsb' 0 8 }

/-- `b1 ‖ b2 ‖ b3 ‖ b4`: the data bytes recomposed, most significant first (R62, R93). -/
def Frame.data (f : Frame) : Word := (f.b1 ++ f.b2 ++ f.b3 ++ f.b4 : BitVec (8 + 8 + 8 + 8))

/-- EncWrite (R94): the write flag is combined by OR (C1). -/
def encWrite (a : Byte) (v : Word) : Frame := frameOf (a ||| 0x80) v

/-- EncRead (R94): the payload is zero. -/
def encRead (a : Byte) : Frame := frameOf a 0

/-- DecResp (R94): status byte and recomposed data. -/
def decResp (rx : Frame) : Byte × Word := (rx.b0, rx.data)

/-- Bit 7 of byte 0: 1 for a write frame, 0 for a read-request frame (R90). -/
def Frame.isWrite (f : Frame) : Bool := f.b0.getLsbD 7

/-- Bits 6:0 of byte 0: the register address (R91, R92). -/
def Frame.addr (f : Frame) : Addr := f.b0.extractLsb' 0 7

/-- The frame as a 40-bit number, byte 0 in bits 39:32 (R10). -/
def Frame.toBits (f : Frame) : BitVec 40 := (f.b0 ++ f.data : BitVec (8 + 32))

/-- The frame a 40-bit number stands for (R10). -/
def Frame.ofBits (w : BitVec 40) : Frame := frameOf (w.extractLsb' 32 8) (w.extractLsb' 0 32)

/-- The wire decoder (R90 to R92): one bit tells the two kinds apart; a read request's payload is zero. -/
def decodeFrame (f : Frame) : Except Reject Instr :=
  if f.isWrite then .ok (.frameWr f.addr f.data)
  else if f.data = 0 then .ok (.frameRd f.addr)
  else .error .readPayloadNotZero

/-! ### Command words -/

/-- Bits 47:40 of a command word (R98). -/
def opField (w : PortWord) : Byte := w.extractLsb' 40 8

/-- Bits 39:32 of a command word (R98). -/
def aField (w : PortWord) : Byte := w.extractLsb' 32 8

/-- Bits 31:0 of a command word (R98). -/
def vField (w : PortWord) : Word := w.extractLsb' 0 32

/-- The mode code of R99: the variants in the source's listing order. -/
def RampMode.ofCode (c : BitVec 2) : RampMode :=
  match c.toNat with
  | 0 => .position
  | 1 => .velocityPositive
  | 2 => .velocityNegative
  | _ => .hold

/-- The mode code of R99. -/
def RampMode.code : RampMode → BitVec 2
  | .position => 0
  | .velocityPositive => 1
  | .velocityNegative => 2
  | .hold => 3

/-- A command that uses neither field (R99). -/
def noOperands (a : Byte) (v : Word) (i : Instr) : Except Reject Instr :=
  if a = 0 ∧ v = 0 then .ok i else .error .unusedFieldNotZero

/-- A command that uses v alone (R99). -/
def vOnly (a : Byte) (i : Instr) : Except Reject Instr :=
  if a = 0 then .ok i else .error .unusedFieldNotZero

/-- A command that uses the low bits of a alone: the high part must be zero (R110 (c)) and so must v (R110 (b)). -/
def aLow (high : Bool) (v : Word) (i : Instr) : Except Reject Instr :=
  if high then .error .reservedBitsNotZero else if v = 0 then .ok i else .error .unusedFieldNotZero

/-- The command decoder: the word alone decides (R110). -/
def decodeCmd (w : PortWord) : Except Reject Instr :=
  let a := aField w
  let v := vField w
  match (opField w).toNat with
  | 0x01 => if v = 0 then .ok (.beginBlock a) else .error .unusedFieldNotZero
  | 0x02 => if a.getLsbD 7 then .error .reservedBitsNotZero else .ok (.write (a.extractLsb' 0 7) v)
  | 0x03 => aLow (a.getLsbD 7) v (.read (a.extractLsb' 0 7))
  | 0x04 => aLow (a.extractLsb' 2 6 ≠ 0) v (.setRampMode (RampMode.ofCode (a.extractLsb' 0 2)))
  | 0x05 => vOnly a (.jog v)
  | 0x06 => vOnly a (.moveTo v)
  | 0x07 => vOnly a (.setVelocity v)
  | 0x08 => aLow (a.extractLsb' 1 7 ≠ 0) v (.enableStealthChop (a.getLsbD 0))
  | 0x09 => aLow (a.extractLsb' 1 7 ≠ 0) v (.reverseDirection (a.getLsbD 0))
  | 0x0A => vOnly a (.setPosition v)
  | 0x0B => noOperands a v .getPosition
  | 0x0C =>
    if a.extractLsb' 4 4 ≠ 0 then .error .reservedBitsNotZero
    else .ok (.setCurrentLimits (a.extractLsb' 0 4) (v.extractLsb' 16 16) (v.extractLsb' 0 16))
  | 0x0D => noOperands a v .updateMotionProfile
  | 0x0E => noOperands a v .getEncoderPosition
  | 0x0F => vOnly a (.setEncoderPosition v)
  | 0x10 => noOperands a v .isStopped
  | 0x11 =>
    if a.extractLsb' 3 5 ≠ 0 then .error .reservedBitsNotZero
    else if profileIndexOk (a.extractLsb' 0 3) then .ok (.setProfileField (a.extractLsb' 0 3) v)
    else .error .profileIndexSeven
  | 0x12 =>
    if a.extractLsb' 3 5 ≠ 0 then .error .reservedBitsNotZero
    else if v ≠ 0 then .error .unusedFieldNotZero
    else if profileIndexOk (a.extractLsb' 0 3) then .ok (.getProfileField (a.extractLsb' 0 3))
    else .error .profileIndexSeven
  | _ => .error .undefinedOpcode

/-- The decoder over the opcode table's joint numbering: bits 47:40 zero is a 40-bit wire frame, anything else a command
word (the note of the table's FRAME rows). The command port itself never reads a frame: it decodes by `decodeCmd`. -/
def decodeWord (w : PortWord) : Except Reject Instr :=
  if opField w = 0 then decodeFrame (Frame.ofBits (w.extractLsb' 0 40)) else decodeCmd w

/-- The instruction the decoder reads from the bits `w` of an opcode-table row `nbits` bits wide. -/
def decodeTableWord (nbits w : Nat) : Option Instr :=
  if w < 2 ^ nbits ∧ w < 2 ^ 48 then
    match decodeWord (BitVec.ofNat 48 w) with
    | .ok i => some i
    | .error _ => none
  else none

/-! ### Encoder -/

/-- A command word from its three fields (R98). -/
def cmdWord (op a : Byte) (v : Word) : PortWord := (op ++ a ++ v : BitVec (8 + 8 + 32))

/-- A wire frame in the joint numbering: bits 47:40 zero. -/
def wireWord (f : Frame) : PortWord := (0#8 ++ f.toBits : BitVec (8 + 40))

/-- The enable operand in bit 0 of a (R99). -/
def flagByte (b : Bool) : Byte := if b then 1 else 0

/-- The word of an instruction (R91, R92, R99). -/
def encode : Instr → PortWord
  | .beginBlock cs => cmdWord 0x01 cs 0
  | .write a v => cmdWord 0x02 (addrByte a) v
  | .read a => cmdWord 0x03 (addrByte a) 0
  | .setRampMode m => cmdWord 0x04 (m.code.setWidth 8) 0
  | .jog d => cmdWord 0x05 0 d
  | .moveTo p => cmdWord 0x06 0 p
  | .setVelocity v => cmdWord 0x07 0 v
  | .enableStealthChop en => cmdWord 0x08 (flagByte en) 0
  | .reverseDirection en => cmdWord 0x09 (flagByte en) 0
  | .setPosition p => cmdWord 0x0A 0 p
  | .getPosition => cmdWord 0x0B 0 0
  | .setCurrentLimits d h r => cmdWord 0x0C (d.setWidth 8) (h ++ r : BitVec (16 + 16))
  | .updateMotionProfile => cmdWord 0x0D 0 0
  | .getEncoderPosition => cmdWord 0x0E 0 0
  | .setEncoderPosition p => cmdWord 0x0F 0 p
  | .isStopped => cmdWord 0x10 0 0
  | .setProfileField i v => cmdWord 0x11 (i.setWidth 8) v
  | .getProfileField i => cmdWord 0x12 (i.setWidth 8) 0
  | .frameWr a v => wireWord (encWrite (addrByte a) v)
  | .frameRd a => wireWord (encRead (addrByte a))

/-- The response word RESP48 (R101): kind, status, value. -/
def encodeResponse : Response → PortWord
  | .ack => cmdWord 0x00 0 0
  | .value v => cmdWord 0x01 0 v
  | .statusValue s v => cmdWord 0x02 s v
  | .bool b => cmdWord 0x03 0 (if b then 1 else 0)
  | .transportError e => cmdWord 0xE0 0 e
  | .illegal => cmdWord 0xEF 0 0

end Sys2Proof
end

