-- ==== Sys2Proof/Machine/Flags.lean ====
section
/-! DEFINITION. One-bit computations. The block has no condition codes and no status flags of its own (spec/10_state.md
R26); what stands here is every bit a command computes: the edited bit of a configuration word (R97), the full-scale
selector (R185) and the standstill test (R156). -/

namespace Sys2Proof.Machine

/-- EditBit (R97): bit k becomes `en`, the other 31 bits stay. -/
def editBit (g : Word) (k : Nat) (en : Bool) : Word :=
  if en then g ||| ((1 : Word) <<< k) else g &&& ~~~((1 : Word) <<< k)

/-- STEALTH_BIT of GCONF (R8, R30). -/
def stealthBit : Nat := 2

/-- REVERSE_BIT of GCONF (R8, R30). -/
def reverseBit : Nat := 4

/-- VSENSE_BIT of CHOPCONF (R8, R38). -/
def vsenseBit : Nat := 17

/-- High(Ih, Ir) over milliamps: either current exceeds 0.75 A, strictly (R185, I_THRESH). -/
def highRange (hold run : BitVec 16) : Bool := hold.toNat > 750 || run.toNat > 750

/-- Vsense (R185): 0 selects 0.32 V for the high range, 1 selects 0.18 V. -/
def vsense (hold run : BitVec 16) : Bool := !highRange hold run

/-- The test of isStopped: all 32 bits zero (R156). -/
def isZero (w : Word) : Bool := w = 0

end Sys2Proof.Machine
end

