-- ==== Sys2Proof/Machine/State.lean ====
section
/-! DEFINITION. The state of TMC5130-RCB and of the peripheral behind its bus (spec/10_state.md), the outside's moves and
answers as plain data (spec/00_scope.md R5, R7, R9), and the state after reset (R44, R45, R250). -/

namespace Sys2Proof.Machine

/-- PR, the registers of the peripheral (R60, R67), as a list of (register number, word). The unit of addressing is the
whole 32-bit register (R60). An unlisted register is one that nothing has changed since launch: what it holds is the free
value Config.launchWord (notes/assumptions/6.md). -/
abbrev Memory := List (Nat × Word)

/-- The canonical form of PR: register numbers strictly rising, each at most 0x7F. An unlisted register has no recorded
value, so no entry can equal what an unlisted one reads as. -/
def Memory.wf : Memory → Bool
  | [] => true
  | [(a, _)] => a < 128
  | (a, _) :: (b, w) :: rest => a < b && Memory.wf ((b, w) :: rest)

/-- The peripheral chip as the block sees it (R67). -/
structure Chip where
  /-- PR. -/
  mem : Memory
  /-- The read latch (R40). -/
  pend : Option Addr
  /-- How many power-cycles the chip has had: the model's own index of the launch values (R251). -/
  epoch : Nat
deriving DecidableEq, Repr

/-- What becomes of a bus primitive (R221). -/
inductive Verdict where
  /-- It completes. -/
  | completes
  /-- It reports the error `e`. `landed`: a failed write frame reached its register (R222, a draw). `latch`: what a failed
  exchange, release or setup leaves in the read latch (R222: unknown, a draw; notes/assumptions/34.md). `release`: RELEASE_ON_ERROR (D7, a draw). -/
  | fails (e : TErr) (landed : Bool) (latch : Option Addr) (release : Bool)
  /-- It never returns (R221, U18). -/
  | hangs
deriving DecidableEq, Repr

/-- The answer of the transport and the chip to one primitive: every draw the spec leaves to the environment. -/
structure Answer where
  /-- What the chip agent did to its registers since the primitive before, oldest first (R72). -/
  drift : List (Addr × Word)
  /-- The Status Byte of an exchange (R67). -/
  status : Byte
  /-- The data bytes of an exchange where the contract leaves them open (R68). -/
  data : Word
  /-- Completion, error or silence. -/
  verdict : Verdict
deriving DecidableEq, Repr

/-- A move of the outside between commands. -/
inductive Input where
  /-- The host presents a command word (R5, R98). -/
  | cmd (w : PortWord)
  /-- The block is reset (R250). -/
  | reset
  /-- The chip agent changes registers of the Volatile set (R72). -/
  | chip (drift : List (Addr × Word))
  /-- The chip is power-cycled, unseen by the block (R251). -/
  | powerCycle
deriving DecidableEq, Repr

/-- An event of the trace, the observation of a run (R7). -/
inductive Event where
  | cmd (w : PortWord)
  | setup (cs : Byte)
  | acq
  | xchg (tx rx : Frame)
  | rel
  | err (e : TErr)
  | resp (r : PortWord)
deriving DecidableEq, Repr

/-- The whole machine. -/
structure State where
  /-- The parameters of the machine (R8); no step changes them. -/
  cfg : Config.Params
  /-- The motion-profile cache x[0..6] = A1, V1, AMAX, VMAX, DMAX, D1, VSTOP (R20). -/
  x : Vector Word 7
  /-- The bus-handle register (R23). -/
  cs : Byte
  /-- The ready bit (R27). -/
  ready : Bool
  /-- The fault latch (R28). -/
  fault : Option TErr
  /-- The sequencer index: primitives of the executing command completed so far (R25). -/
  seq : Nat
  /-- The bus scope is held (R41). -/
  scope : Bool
  /-- The peripheral (R29 to R40). -/
  chip : Chip
  /-- A frame on the wire that the peripheral has not answered yet (R6, R90; notes/assumptions/17.md). -/
  wire : Option Frame
  /-- The outside's moves to come, the next first (R5). -/
  inputs : List Input
  /-- The answers to the primitives to come, the next first (R7, R9). -/
  env : List Answer
  /-- How many answers have been taken: the model's own index of the free values. -/
  draws : Nat
  /-- The event trace, oldest first (R7). -/
  trace : List Event
deriving DecidableEq, Repr

/-- Why a run stops with a fault. The two abnormal ends of the spec, TransportError and IllegalCommand (R220), are NOT
here: they are taken, as next states. -/
inductive Fault where
  /-- Raised by every bus primitive whose answer is `hangs`: "A primitive that neither completes nor fails (a hang of the
  transport) leaves the command unfinished for ever" (R221, U18: stuck). Safe: nothing is claimed of such a run. -/
  | transportHang
deriving DecidableEq, Repr

/-- Why the model gives a step no meaning. -/
inductive Refusal where
  /-- Raised by exec's arm of an instruction without a meaning. Safe. -/
  | notModelled (mnemonic : String)
  /-- Raised by every command but `begin` while `ready` = 0 (R27, R224, D5). Safe. -/
  | notReady
  /-- Raised by every command while the fault latch is set (R28, R224, D6). Safe. -/
  | faultLatched
  /-- Raised by setCurrentLimits under CS_POLICY = refuse when a raw scale leaves 0..31 (R187, D14). Safe. -/
  | currentOutOfRange
  /-- Raised by a step on a wire frame that is neither a write frame nor a read request with a zero payload: "What the
  peripheral does with a read-request frame whose payload is not zero is not in the source" (R109). Safe. -/
  | wireFrameUnspecified
deriving DecidableEq, Repr

/-- The machine right after reset (R44, R250) with nothing presented to it: ready 0, no fault, seq 0, no scope; x and cs
free values (D20); the chip at its launch contents (R45). -/
def State.reset : State :=
  { cfg := Config.launchParams
    x := Vector.ofFn (Config.resetProfile 0)
    cs := Config.resetHandle 0
    ready := false
    fault := none
    seq := 0
    scope := false
    chip := { mem := [], pend := Config.launchPend, epoch := 0 }
    wire := none
    inputs := []
    env := []
    draws := 0
    trace := [] }

end Sys2Proof.Machine
end

