-- ==== Sys2Proof/Machine/Operands.lean ====
section
/-! DEFINITION. From operands to the words that go on the wire: the ramp-mode word (spec/10_state.md R32), the profile index
(R99), the current scales and the current register (spec/42_config.md R184 to R188), the pairs of the commit (R191, R193). -/

namespace Sys2Proof.Machine

open Sys2Proof.Config

/-- RM_VAL[m] (R32, R150). -/
def rampWord (p : Params) : RampMode → Word
  | .position => p.rmVal.position
  | .velocityPositive => p.rmVal.velocityPositive
  | .velocityNegative => p.rmVal.velocityNegative
  | .hold => p.rmVal.hold

/-- The cache register a profile index names; index 7 names none (R20, R110 (d)). -/
def profileIndex (i : BitVec 3) : Option (Fin 7) :=
  if h : i.toNat < 7 then some ⟨i.toNat, h⟩ else none

/-! ### Current scales -/

/-- One binary digit after the other, the highest first: the largest `r` below `acc + 2 ^ k` with `r * r ≤ n`. -/
def isqrtFrom : Nat → Nat → Nat → Nat
  | 0, _, acc => acc
  | k + 1, n, acc => isqrtFrom k n (if (acc + 2 ^ k) * (acc + 2 ^ k) ≤ n then acc + 2 ^ k else acc)

/-- The integer square root rounded down, for arguments below 2 ^ 48: 8·N² is below that for every milliamp operand
(notes/assumptions/24.md). -/
def isqrt (n : Nat) : Nat := isqrtFrom 24 n 0

/-- `round(sqrt(2) · N / D)` by the integer form of R186: `floor((isqrt(8·N²) + D) / (2·D))`. -/
def roundSqrt2 (num den : Nat) : Nat := (isqrt (8 * num * num) + den) / (2 * den)

/-- The numerator of r = 32 · I · 0.17 / Vfs for I = m/1000 (R186). -/
def scaleNum (high : Bool) (m : Nat) : Nat := if high then 17 * m else 34 * m

/-- The denominator of r (R186). -/
def scaleDen (high : Bool) : Nat := if high then 1000 else 1125

/-- RawScale (R186): an integer that is at least -1. -/
def rawScale (high : Bool) (m : Nat) : Int := (roundSqrt2 (scaleNum high m) (scaleDen high) : Int) - 1

/-- Scale under CS_POLICY = clamp (R187): `min(31, max(0, RawScale))`. -/
def clampScale (raw : Int) : BitVec 5 := BitVec.ofInt 5 (min 31 (max 0 raw))

/-- The raw scale fits the chip's field (R187). -/
def scaleInRange (raw : Int) : Bool := 0 ≤ raw && raw ≤ 31

/-- CS_POLICY lets the two currents through: always under clamp; under refuse when both raw scales fit (R187). -/
def currentsAccepted (p : CsPolicy) (hold run : BitVec 16) : Bool :=
  match p with
  | .clamp => true
  | .refuse =>
    scaleInRange (rawScale (highRange hold run) hold.toNat) && scaleInRange (rawScale (highRange hold run) run.toNat)

/-- PackCurrent (R102): delay at 16, run scale at 8, hold scale at 0. -/
def packCurrent (delay : BitVec 4) (run hold : BitVec 5) : Word :=
  (delay.setWidth 32 <<< 16) ||| (run.setWidth 32 <<< 8) ||| hold.setWidth 32

/-- CurrentWord (R188). One Vfs serves both currents (R185). -/
def currentWord (delay : BitVec 4) (hold run : BitVec 16) : Word :=
  packCurrent delay (clampScale (rawScale (highRange hold run) run.toNat))
    (clampScale (rawScale (highRange hold run) hold.toNat))

/-! ### The commit -/

/-- ADDR_P[0..6]: the profile registers in commit order (R191, N_PROFILE). -/
def profileRegs : List RegName := [.a1, .v1, .amax, .vmax, .dmax, .d1, .vstop]

/-- The seven writes of the commit, in order (R191). -/
def commitWrites (p : Params) (x : Vector Word 7) : List (Addr × Word) :=
  [(p.map.a1, x[0]), (p.map.v1, x[1]), (p.map.amax, x[2]), (p.map.vmax, x[3]), (p.map.dmax, x[4]), (p.map.d1, x[5]),
   (p.map.vstop, x[6])]

/-- The nine writes of begin: the commit, then the chopper and the PWM baseline (R193, D10). -/
def beginWrites (p : Params) (x : Vector Word 7) : List (Addr × Word) :=
  commitWrites p x ++ [(p.map.chopconf, p.chopconfDefault), (p.map.pwmconf, p.pwmconfDefault)]

end Sys2Proof.Machine
end

