-- ==== Sys2Proof/Machine/Ops.lean ====
section
/-! DEFINITION. The named operations every meaning is made of: the peripheral's registers and its exchange function
(spec/20_memory.md R67, R68, R72), the environment's answers, the four bus primitives (spec/00_scope.md R9), TAKING A
TRANSPORT ERROR and TAKING AN ILLEGAL COMMAND (spec/60_exceptions.md R222, R223), the two logical transactions MemWrite and
MemRead (spec/40_codec.md R130, R131), the checks of R227, the response, and reset (spec/70_reset_and_hazards.md R250). -/

namespace Sys2Proof.Machine

open Sys2Proof.Config

/-! ### The peripheral's registers -/

/-- The recorded content of a register number. -/
def Memory.find : Memory → Nat → Option Word
  | [], _ => none
  | (b, w) :: rest, a => if a = b then some w else Memory.find rest a

/-- Record a content, keeping the canonical form. -/
def Memory.store : Memory → Nat → Word → Memory
  | [], a, v => [(a, v)]
  | (b, w) :: rest, a, v =>
    if a < b then (a, v) :: (b, w) :: rest
    else if a = b then (a, v) :: rest
    else (b, w) :: Memory.store rest a v

/-- PR[a] (R67); a register nothing has changed since launch holds the free value of R45. -/
def Chip.reg (c : Chip) (a : Addr) : Word := (c.mem.find a.toNat).getD (launchWord c.epoch a)

/-- The chip-side ramp mode (R42): the state that the RAMPMODE register's word stands for, none for a word that is no
RM_VAL. -/
def Chip.rampMode (p : Params) (c : Chip) : Option RampMode :=
  if c.reg p.map.rampmode = p.rmVal.position then some .position
  else if c.reg p.map.rampmode = p.rmVal.velocityPositive then some .velocityPositive
  else if c.reg p.map.rampmode = p.rmVal.velocityNegative then some .velocityNegative
  else if c.reg p.map.rampmode = p.rmVal.hold then some .hold
  else none

/-- PR[a] <- v, all 32 bits at once (R65, R67). -/
def Chip.setReg (c : Chip) (a : Addr) (v : Word) : Chip := { c with mem := c.mem.store a.toNat v }

/-- The chip agent's changes, oldest first. Registers outside the Volatile set change only by write frames (R72): an entry
for one is no move of the chip. -/
def Chip.drift (vol : List Addr) : Chip → List (Addr × Word) → Chip
  | c, [] => c
  | c, (a, v) :: rest => Chip.drift vol (if a ∈ vol then c.setReg a v else c) rest

/-! ### The peripheral's exchange function -/

/-- Sample(p) (R68 (a), R73): the content of a Volatile register as the chip agent left it, or of a ReadBack register; a
draw for any other. -/
def sample (p : Params) (c : Chip) (a : Addr) (draw : Word) : Word :=
  if a ∈ p.volatile ∨ a ∈ p.readBack then c.reg a else draw

/-- The data bytes of a response: the register requested one exchange earlier, or a draw when nothing is pending (R66,
R67, R68 (b)). -/
def responseData (p : Params) (c : Chip) (draw : Word) : Word :=
  match c.pend with
  | some a => sample p c a draw
  | none => draw

/-- The response frame, determined by the state before the frame takes effect (R67, R93). -/
def response (p : Params) (c : Chip) (ans : Answer) : Frame := frameOf ans.status (responseData p c ans.data)

/-- The effect of a frame on the peripheral (R67): a write frame stores its word and clears the latch; a read-request
frame sets the latch. -/
def Chip.take (c : Chip) (tx : Frame) : Chip :=
  if tx.isWrite then { c.setReg tx.addr tx.data with pend := none } else { c with pend := some tx.addr }

/-- What a failed exchange leaves (R222): a failed write frame's register holds its old or its new value, by the draw
`landed`; the latch is the draw `latch`. -/
def Chip.takeFailed (c : Chip) (tx : Frame) (landed : Bool) (latch : Option Addr) : Chip :=
  { (if tx.isWrite && landed then c.setReg tx.addr tx.data else c) with pend := latch }

/-- What a failed BusRelease or PlatformSetup leaves: the registers as they were and the latch a draw. DEDUCED
(notes/assumptions/34.md): R222 treats `pend` as unknown when it asks "whether the failed primitive itself had any effect on
the peripheral", and gives an exchange only as its example. -/
def Chip.loseLatch (c : Chip) (latch : Option Addr) : Chip := { c with pend := latch }

/-! ### The environment's answers -/

/-- The answer past the end of the script: the primitive completes and every draw is a free value (notes/assumptions/2.md). -/
def freeAnswer (p : Params) (n : Nat) : Answer :=
  { drift := p.volatile.map fun a => (a, freeChange n a)
    status := freeStatus n
    data := freeData n
    verdict := .completes }

/-- The answer to the next primitive. -/
def nextAnswer (s : State) : Answer :=
  match s.env with
  | [] => freeAnswer s.cfg s.draws
  | ans :: _ => ans

/-- The state in which the next primitive acts: its answer is taken and the chip has drifted (R72). -/
def takeAnswer (s : State) : State :=
  { s with env := s.env.tail, draws := s.draws + 1, chip := s.chip.drift s.cfg.volatile (nextAnswer s).drift }

/-! ### Abnormal ends -/

/-- The event trace grows by one event (R7). -/
def emit (e : Event) (s : State) : State := { s with trace := s.trace ++ [e] }

/-- The optional release of R222: only if a scope is held, by the draw RELEASE_ON_ERROR; its own failure is ignored. -/
def releaseOnError (release : Bool) (s : State) : State :=
  if s.scope && release then { s with scope := false, trace := s.trace ++ [.rel] } else s

/-- TAKING A TRANSPORT ERROR (R222): Err(e), the optional release, the latch, seq 0. The response follows where the command
ends (`finish`). -/
def takeTransportError (e : TErr) (release : Bool) (s : State) : State :=
  { releaseOnError release (emit (.err e) s) with fault := some e, seq := 0 }

/-- The response ends the command: Resp(r), seq 0 (R11, R25, R101). -/
def respond (r : Response) (s : State) : State := { s with seq := 0, trace := s.trace ++ [.resp (encodeResponse r)] }

/-- TAKING AN ILLEGAL COMMAND (R223): the response ILLEGAL; no primitive, no change of x, cs, ready or fault. -/
def takeIllegal (s : State) : State := respond .illegal s

/-! ### Bus primitives -/

/-- How a primitive or a sequence of primitives ends (R221): with a result, with the transport error already taken, or
never. -/
inductive Attempt (α : Type) where
  | done (r : α) (s : State)
  | failed (e : TErr) (s : State)
  | hung
deriving Repr

/-- Primitives follow one another; the first error ends the sequence (R222). -/
def Attempt.andThen {α β : Type} (t : Attempt α) (k : α → State → Attempt β) : Attempt β :=
  match t with
  | .done r s => k r s
  | .failed e s => .failed e s
  | .hung => .hung

/-- A primitive takes its answer and completes, fails or hangs (R221, R222). `complete` is its effect; `spoil` is what its
failure leaves on the peripheral. -/
def primitive {α : Type} (complete : Answer → State → Attempt α) (spoil : Bool → Option Addr → State → State)
    (s : State) : Attempt α :=
  match (nextAnswer s).verdict with
  | .completes => complete (nextAnswer s) (takeAnswer s)
  | .fails e landed latch release => .failed e (takeTransportError e release (spoil landed latch (takeAnswer s)))
  | .hangs => .hung

/-- A completed primitive advances seq by one and leaves its event (R7, R25). -/
def completed (e : Event) (s : State) : State := { s with seq := s.seq + 1, trace := s.trace ++ [e] }

/-- BusAcquire (R9): the scope is held. A failed one leaves the peripheral untouched (V73 of spec/95_test_vectors.md). -/
def busAcquire (s : State) : Attempt Unit :=
  primitive (fun _ t => .done () (completed .acq { t with scope := true })) (fun _ _ t => t) s

/-- BusRelease (R9): the scope is given up. A failed one leaves the latch unknown (`Chip.loseLatch`) and every register as it
was. DEDUCED (notes/assumptions/34.md). -/
def busRelease (s : State) : Attempt Unit :=
  primitive (fun _ t => .done () (completed .rel { t with scope := false }))
    (fun _ latch t => { t with chip := t.chip.loseLatch latch }) s

/-- PlatformSetup(cs) (R9). A failed one leaves the latch unknown (`Chip.loseLatch`) and every register as it was. DEDUCED
(notes/assumptions/34.md). -/
def platformSetup (cs : Byte) (s : State) : Attempt Unit :=
  primitive (fun _ t => .done () (completed (.setup cs) t))
    (fun _ latch t => { t with chip := t.chip.loseLatch latch }) s

/-- One 5-byte exchange on the wire (R67, R90): the response is read from the peripheral, then the frame takes effect. -/
def wireExchange (tx : Frame) (s : State) : Attempt Frame :=
  primitive
    (fun ans t =>
      .done (response t.cfg t.chip ans)
        { t with chip := t.chip.take tx, trace := t.trace ++ [.xchg tx (response t.cfg t.chip ans)] })
    (fun landed latch t => { t with chip := t.chip.takeFailed tx landed latch }) s

/-- BusExchange (R9): a wire exchange that counts as a primitive of the command. -/
def busExchange (tx : Frame) (s : State) : Attempt Frame :=
  (wireExchange tx s).andThen fun rx t => .done rx { t with seq := t.seq + 1 }

/-! ### Logical transactions -/

/-- MemWrite(a, 4, v) (R11, R130): one scope, one exchange, the response discarded. -/
def memWrite (a : Addr) (v : Word) (s : State) : Attempt Unit :=
  (busAcquire s).andThen fun _ s1 =>
  (busExchange (encWrite (addrByte a) v) s1).andThen fun _ s2 =>
  busRelease s2

/-- MemRead(a, 4) (R11, R131): one scope, the request exchange, the fetch exchange of the same frame built anew (R261);
status and value come from the second response. -/
def memRead (a : Addr) (s : State) : Attempt (Byte × Word) :=
  (busAcquire s).andThen fun _ s1 =>
  (busExchange (encRead (addrByte a)) s1).andThen fun _ s2 =>
  (busExchange (encRead (addrByte a)) s2).andThen fun rx s3 =>
  (busRelease s3).andThen fun _ s4 =>
  .done (decResp rx) s4

/-- A fixed list of writes, in order, each in its own scope (R191). -/
def memWrites : List (Addr × Word) → State → Attempt Unit
  | [], s => .done () s
  | (a, v) :: rest, s => (memWrite a v s).andThen fun _ s1 => memWrites rest s1

/-- The read-modify-write of one bit (R181): a read, then an unconditional write of the same address. -/
def editRegister (a : Addr) (bit : Nat) (en : Bool) (s : State) : Attempt Unit :=
  (memRead a s).andThen fun r s1 => memWrite a (editBit r.2 bit en) s1

/-! ### Commands -/

/-- How a command ends (R13): ok with its response; TransportError(e) with the response TRANSPORT_ERROR(e) (R222); or never
(U18). -/
def finish (t : Attempt Response) : Host.Outcome State Fault Refusal :=
  match t with
  | .done r s => .next (respond r s)
  | .failed e s => .next (respond (.transportError e) s)
  | .hung => .fault .transportHang

/-- A sequence that ends ok with ACK (R101). -/
def finishAck (t : Attempt Unit) : Host.Outcome State Fault Refusal :=
  finish (t.andThen fun _ s => .done .ack s)

/-- The model refuses every command while the fault latch is set (R28, D6). -/
def unlessFaulted (s : State) (run : State → Host.Outcome State Fault Refusal) : Host.Outcome State Fault Refusal :=
  if s.fault.isSome then .refused .faultLatched else run s

/-- The refusals of R224 in the order of R227: not ready, then fault set. -/
def whenReady (s : State) (run : State → Host.Outcome State Fault Refusal) : Host.Outcome State Fault Refusal :=
  if s.ready then unlessFaulted s run else .refused .notReady

/-- The single-write commands (R105): one MemWrite to a named register, then ACK. -/
def writeRegister (r : RegName) (v : Word) (s : State) : Host.Outcome State Fault Refusal :=
  whenReady s fun s1 => finishAck (memWrite (s1.cfg.map.addr r) v s1)

/-- The value-returning commands (R105): one MemRead of a named register, then a response made from the value; the status
byte is dropped (D17). -/
def readRegister (r : RegName) (respOf : Word → Response) (s : State) : Host.Outcome State Fault Refusal :=
  whenReady s fun s1 => finish ((memRead (s1.cfg.map.addr r) s1).andThen fun p s2 => .done (respOf p.2) s2)

/-- A wire frame run on its own: the peripheral's exchange (R67). It is no command, so nothing responds; a transport error
is taken as in R222 (notes/assumptions/17.md). -/
def finishWire (t : Attempt Frame) : Host.Outcome State Fault Refusal :=
  match t with
  | .done _ s => .next s
  | .failed _ s => .next s
  | .hung => .fault .transportHang

/-! ### What the outside does between commands -/

/-- Reset of the block (R250, R44): x and cs get free values, ready 0, fault none, seq 0, no scope held. It performs no bus
primitive and does not reach the peripheral (R251). -/
def resetBlock (s : State) : State :=
  { s with x := Vector.ofFn (resetProfile (s.draws + 1)), cs := resetHandle (s.draws + 1), ready := false, fault := none, seq := 0
           scope := false, draws := s.draws + 1 }

/-- The chip acts on its own (R72). -/
def chipActs (drift : List (Addr × Word)) (s : State) : State := { s with chip := s.chip.drift s.cfg.volatile drift }

/-- A power-cycle of the chip (R251): its registers return to unknown power-on values, and nothing is pending, so that the data
of the first exchange after it are a draw (R68 (b), D18). The block sees nothing. -/
def powerCycle (s : State) : State := { s with chip := { mem := [], pend := none, epoch := s.chip.epoch + 1 } }

/-- The host presents a command word: event Cmd(w) (R7). -/
def presented (w : PortWord) (s : State) : State := { s with trace := s.trace ++ [.cmd w] }

end Sys2Proof.Machine
end

