-- ==== Sys2Proof/Machine/Codec.lean ====
section
/-! DEFINITION. The register codec commands (spec/40_codec.md) and the two wire frames (spec/30_encoding.md R91, R92). -/

namespace Sys2Proof.Machine

/-- `write` (R130). -/
def execWrite (a : Addr) (v : Word) (s : State) : Host.Outcome State Fault Refusal :=
  whenReady s fun s1 => finishAck (memWrite a v s1)

/-- `read` (R131): status and value of the fetch exchange. -/
def execRead (a : Addr) (s : State) : Host.Outcome State Fault Refusal :=
  whenReady s fun s1 => finish ((memRead a s1).andThen fun p s2 => .done (.statusValue p.1 p.2) s2)

/-- FRAME.WR (R91): the peripheral's exchange of a write frame (R67). -/
def execFrameWr (a : Addr) (v : Word) (s : State) : Host.Outcome State Fault Refusal :=
  finishWire (wireExchange (encWrite (addrByte a) v) s)

/-- FRAME.RD (R92): the peripheral's exchange of a read-request frame (R67). -/
def execFrameRd (a : Addr) (s : State) : Host.Outcome State Fault Refusal :=
  finishWire (wireExchange (encRead (addrByte a)) s)

end Sys2Proof.Machine
end

