-- ==== Sys2Proof/Machine/Configuration.lean ====
section
/-! DEFINITION. The configuration commands and the direct access to the profile cache (spec/42_config.md). -/

namespace Sys2Proof.Machine

/-- `begin` (R193): defaults into the cache, the handle, platform setup, nine writes, ready. -/
def execBegin (cs : Byte) (s : State) : Host.Outcome State Fault Refusal :=
  unlessFaulted s fun s1 =>
    finishAck <|
      (platformSetup cs { s1 with x := s1.cfg.profileDefault, cs := cs }).andThen fun _ s2 =>
      (memWrites (beginWrites s2.cfg s2.x) s2).andThen fun _ s3 =>
      .done () { s3 with ready := true }

/-- `enableStealthChop` (R180). -/
def execEnableStealthChop (en : Bool) (s : State) : Host.Outcome State Fault Refusal :=
  whenReady s fun s1 => finishAck (editRegister s1.cfg.map.gconf stealthBit en s1)

/-- `reverseDirection` (R182). -/
def execReverseDirection (en : Bool) (s : State) : Host.Outcome State Fault Refusal :=
  whenReady s fun s1 => finishAck (editRegister s1.cfg.map.gconf reverseBit en s1)

/-- `setCurrentLimits` (R189): the scales first, then the full-scale selector; out-of-range scales by CS_POLICY (R187). -/
def execSetCurrentLimits (delay : BitVec 4) (hold run : BitVec 16) (s : State) : Host.Outcome State Fault Refusal :=
  whenReady s fun s1 =>
    if currentsAccepted s1.cfg.policy hold run then
      finishAck <|
        (memWrite s1.cfg.map.iholdIrun (currentWord delay hold run) s1).andThen fun _ s2 =>
        editRegister s1.cfg.map.chopconf vsenseBit (vsense hold run) s2
    else .refused .currentOutOfRange

/-- `updateMotionProfile` (R191). -/
def execUpdateMotionProfile (s : State) : Host.Outcome State Fault Refusal :=
  whenReady s fun s1 => finishAck (memWrites (commitWrites s1.cfg s1.x) s1)

/-- `setProfileField` (R195): no bus primitive; index 7 is an illegal command (R110 (d)). -/
def execSetProfileField (i : BitVec 3) (v : Word) (s : State) : Host.Outcome State Fault Refusal :=
  match profileIndex i with
  | none => .next (takeIllegal s)
  | some k => whenReady s fun s1 => .next (respond .ack { s1 with x := s1.x.set k v })

/-- `getProfileField` (R196): the cached value; index 7 is an illegal command (R110 (d)). -/
def execGetProfileField (i : BitVec 3) (s : State) : Host.Outcome State Fault Refusal :=
  match profileIndex i with
  | none => .next (takeIllegal s)
  | some k => whenReady s fun s1 => .next (respond (.value s1.x[k]) s1)

end Sys2Proof.Machine
end

