-- ==== Sys2Proof/Machine/Motion.lean ====
section
/-! DEFINITION. The motion commands (spec/41_motion.md). -/

namespace Sys2Proof.Machine

/-- `setRampMode` (R150). -/
def execSetRampMode (m : RampMode) (s : State) : Host.Outcome State Fault Refusal :=
  writeRegister .rampmode (rampWord s.cfg m) s

/-- `jog` (R152): read the actual position, add modulo 2^32 (R153), write the target. -/
def execJog (d : Word) (s : State) : Host.Outcome State Fault Refusal :=
  whenReady s fun s1 =>
    finishAck ((memRead s1.cfg.map.xactual s1).andThen fun p s2 => memWrite s1.cfg.map.xtarget (p.2 + d) s2)

/-- `moveTo` (R151). -/
def execMoveTo (p : Word) (s : State) : Host.Outcome State Fault Refusal := writeRegister .xtarget p s

/-- `setVelocity` (R155): the cached VMAX first, then the chip's register. -/
def execSetVelocity (v : Word) (s : State) : Host.Outcome State Fault Refusal :=
  whenReady s fun s1 => finishAck (memWrite s1.cfg.map.vmax v { s1 with x := s1.x.set 3 v })

/-- `isStopped` (R156). -/
def execIsStopped (s : State) : Host.Outcome State Fault Refusal :=
  readRegister .vactual (fun w => .bool (isZero w)) s

/-- `setPosition` (R157). -/
def execSetPosition (p : Word) (s : State) : Host.Outcome State Fault Refusal := writeRegister .xactual p s

/-- `getPosition` (R158). -/
def execGetPosition (s : State) : Host.Outcome State Fault Refusal := readRegister .xactual .value s

/-- `setEncoderPosition` (R159). -/
def execSetEncoderPosition (p : Word) (s : State) : Host.Outcome State Fault Refusal := writeRegister .xenc p s

/-- `getEncoderPosition` (R160). -/
def execGetEncoderPosition (s : State) : Host.Outcome State Fault Refusal := readRegister .xenc .value s

end Sys2Proof.Machine
end

