-- ==== Sys2Proof/Machine/Dispatch.lean ====
section
/-! DEFINITION. One arm per instruction. -/

namespace Sys2Proof.Machine

-- The meaning of each instruction, in the order of spec/opcode_table.json.
def exec (i : Instr) (s : State) : Host.Outcome State Fault Refusal :=
  match i with
  | .beginBlock cs => Sys2Proof.Machine.execBegin cs s
  | .write a v => Sys2Proof.Machine.execWrite a v s
  | .read a => Sys2Proof.Machine.execRead a s
  | .setRampMode m => Sys2Proof.Machine.execSetRampMode m s
  | .jog d => Sys2Proof.Machine.execJog d s
  | .moveTo p => Sys2Proof.Machine.execMoveTo p s
  | .setVelocity v => Sys2Proof.Machine.execSetVelocity v s
  | .enableStealthChop en => Sys2Proof.Machine.execEnableStealthChop en s
  | .reverseDirection en => Sys2Proof.Machine.execReverseDirection en s
  | .setPosition p => Sys2Proof.Machine.execSetPosition p s
  | .getPosition => Sys2Proof.Machine.execGetPosition s
  | .setCurrentLimits delay hold run => Sys2Proof.Machine.execSetCurrentLimits delay hold run s
  | .updateMotionProfile => Sys2Proof.Machine.execUpdateMotionProfile s
  | .getEncoderPosition => Sys2Proof.Machine.execGetEncoderPosition s
  | .setEncoderPosition p => Sys2Proof.Machine.execSetEncoderPosition p s
  | .isStopped => Sys2Proof.Machine.execIsStopped s
  | .setProfileField k v => Sys2Proof.Machine.execSetProfileField k v s
  | .getProfileField k => Sys2Proof.Machine.execGetProfileField k s
  | .frameWr a v => Sys2Proof.Machine.execFrameWr a v s
  | .frameRd a => Sys2Proof.Machine.execFrameRd a s

end Sys2Proof.Machine
end

