-- ==== Sys2Proof/Machine/Accept.lean ====
section
/-! DEFINITION. How the next thing to run is fetched: a frame standing on the wire goes to the peripheral; otherwise the
outside's next move is taken. There is no program counter (spec/10_state.md R24): a command word is read once from the
command port (spec/20_memory.md R78) and its legality is decided from the word alone, first (R110, R227). -/

namespace Sys2Proof.Machine

/-- The peripheral answers a frame on the wire (R67). -/
def acceptFrame (f : Frame) (s : State) : Host.Outcome State Fault Refusal :=
  match decodeFrame f with
  | .ok i => exec i s
  | .error _ => .refused .wireFrameUnspecified

/-- A command word is legal and runs, or ends IllegalCommand (R223). -/
def acceptCommand (w : PortWord) (s : State) : Host.Outcome State Fault Refusal :=
  match decodeCmd w with
  | .ok i => exec i (presented w s)
  | .error _ => .next (takeIllegal (presented w s))

/-- A move of the outside. -/
def acceptInput (inp : Input) (s : State) : Host.Outcome State Fault Refusal :=
  match inp with
  | .cmd w => acceptCommand w s
  | .reset => .next (resetBlock s)
  | .chip drift => .next (chipActs drift s)
  | .powerCycle => .next (powerCycle s)

/-- One step: the wire first, then the outside's next move; with nothing to do the block is idle (R234, R250). -/
def advance (s : State) : Host.Outcome State Fault Refusal :=
  match s.wire with
  | some f => acceptFrame f { s with wire := none }
  | none =>
    match s.inputs with
    | [] => .next s
    | inp :: rest => acceptInput inp { s with inputs := rest }

/-- A frame of the joint numbering is put on the wire (R91, R92). -/
def placeFrame (w : PortWord) (s : State) : State := { s with wire := some (Frame.ofBits (w.extractLsb' 0 40)) }

/-- A command word is presented ahead of everything else, with nothing on the wire, to a block that can run it: `begin`
needs nothing, any other command a completed `begin` (R252), and no command runs under a latched fault (R28). -/
def placeCommand (w : PortWord) (s : State) : State :=
  { s with inputs := .cmd w :: s.inputs, wire := none, ready := s.ready || opField w ≠ 0x01, fault := none }

end Sys2Proof.Machine
end

