-- ==== Sys2Proof/Machine/Step.lean ====
section
/-! DEFINITION. The step of the machine. -/

namespace Sys2Proof.Machine

/-- One step (see `advance`): a whole command, a wire frame, or a move of the outside (notes/assumptions/1.md). -/
def step (s : State) : Host.Outcome State Fault Refusal := advance s

/-- `s` with the instruction of the bits `w` as the next thing step runs (notes/assumptions/19.md). -/
def State.withFetchWord (s : State) (nbits w : Nat) : State :=
  if opField (BitVec.ofNat 48 (w % 2 ^ nbits)) = 0 then placeFrame (BitVec.ofNat 48 (w % 2 ^ nbits)) s
  else placeCommand (BitVec.ofNat 48 (w % 2 ^ nbits)) s

end Sys2Proof.Machine
end

