-- ==== Sys2Proof/Machine/Assembler.lean ====
section
/-! DEFINITION. The assembler forms of spec/30_encoding.md R103 and R104: one command per line, its operands in the order of
the source's signatures. A line is held as its mnemonic and its operands; "this line syntax is its transliteration and
carries no extra meaning" (R103). -/

namespace Sys2Proof.Machine

open Sys2Proof.Config

/-- The eighteen command mnemonics (R14). -/
inductive Mnemonic where
  | beginBlock | write | read | setRampMode | jog | moveTo | setVelocity | enableStealthChop | reverseDirection
  | setPosition | getPosition | setCurrentLimits | updateMotionProfile | getEncoderPosition | setEncoderPosition
  | isStopped | setProfileField | getProfileField
deriving DecidableEq, Repr

/-- An operand as written (R103). -/
inductive Operand where
  /-- A decimal or hexadecimal integer. -/
  | int (n : Int)
  /-- A register mnemonic. -/
  | reg (r : RegName)
  /-- A mode name. -/
  | mode (m : RampMode)
  /-- `true` or `false`. -/
  | flag (b : Bool)
  /-- A current in amps with at most three decimals, as its count of thousandths. -/
  | amps (milli : Nat)
deriving DecidableEq, Repr

/-- An operand of a 32-bit field: an unsigned or a signed integer, as the pattern u32(n) (R10, R96). -/
def wordOperand : Operand → Option Word
  | .int n => if -2147483648 ≤ n ∧ n < 4294967296 then some (BitVec.ofInt 32 n) else none
  | _ => none

/-- An unsigned operand of `k` bits. -/
def natOperand (k : Nat) : Operand → Option (BitVec k)
  | .int n => if 0 ≤ n ∧ n < 2 ^ k then some (BitVec.ofInt k n) else none
  | _ => none

/-- An address operand: a number or a register mnemonic, which stands for its ADDR_ parameter. -/
def addrOperand (p : Params) : Operand → Option Addr
  | .reg r => some (p.map.addr r)
  | o => natOperand 7 o

/-- A current operand in milliamps (R100). -/
def currentOperand : Operand → Option (BitVec 16)
  | .amps m => if m < 65536 then some (BitVec.ofNat 16 m) else none
  | _ => none

/-- A profile index: 0..6 or one of the seven names. -/
def fieldOperand : Operand → Option (BitVec 3)
  | .reg .a1 => some 0
  | .reg .v1 => some 1
  | .reg .amax => some 2
  | .reg .vmax => some 3
  | .reg .dmax => some 4
  | .reg .d1 => some 5
  | .reg .vstop => some 6
  | o => (natOperand 3 o).bind fun i => if i = 7 then none else some i

/-- HOLD_DELAY_DEFAULT (R8, R104). -/
def holdDelayDefault : BitVec 4 := 7

/-- The instruction of a line (R103, R104); none where the operands are not those of the signature. -/
def assemble (p : Params) (m : Mnemonic) (ops : List Operand) : Option Instr :=
  match m, ops with
  | .beginBlock, [cs] => (natOperand 8 cs).map .beginBlock
  | .write, [a, v] => (addrOperand p a).bind fun a' => (wordOperand v).map fun v' => .write a' v'
  | .read, [a] => (addrOperand p a).map .read
  | .setRampMode, [.mode r] => some (.setRampMode r)
  | .jog, [d] => (wordOperand d).map .jog
  | .moveTo, [q] => (wordOperand q).map .moveTo
  | .setVelocity, [v] => (wordOperand v).map .setVelocity
  | .enableStealthChop, [.flag b] => some (.enableStealthChop b)
  | .reverseDirection, [.flag b] => some (.reverseDirection b)
  | .setPosition, [q] => (wordOperand q).map .setPosition
  | .getPosition, [] => some .getPosition
  | .setCurrentLimits, [h, r] =>
    (currentOperand h).bind fun h' => (currentOperand r).map fun r' => .setCurrentLimits holdDelayDefault h' r'
  | .setCurrentLimits, [h, r, d] =>
    (currentOperand h).bind fun h' =>
      (currentOperand r).bind fun r' => (natOperand 4 d).map fun d' => .setCurrentLimits d' h' r'
  | .updateMotionProfile, [] => some .updateMotionProfile
  | .getEncoderPosition, [] => some .getEncoderPosition
  | .setEncoderPosition, [q] => (wordOperand q).map .setEncoderPosition
  | .isStopped, [] => some .isStopped
  | .setProfileField, [i, v] => (fieldOperand i).bind fun i' => (wordOperand v).map fun v' => .setProfileField i' v'
  | .getProfileField, [i] => (fieldOperand i).map .getProfileField
  | _, _ => none

end Sys2Proof.Machine
end

