-- ==== Sys2Proof/Safety.lean ====
section
/-! DEFINITION. The terms claims are made in: when a command runs and its primitives complete, when the chip leaves a
register alone, the invariant of the states between steps, and what a command leaves unchanged. -/

namespace Sys2Proof.Machine

/-- The block accepts commands: `begin` has completed and no transport error is latched (spec/10_state.md R27, R28). -/
abbrev State.Runs (s : State) : Prop := s.ready = true ∧ s.fault = none

/-- The next `k` primitives complete: no answer among the next `k` of the script reports an error or hangs. Past the
script's end every primitive completes (notes/assumptions/2.md). -/
abbrev State.Quiet (s : State) (k : Nat) : Prop := ∀ ans ∈ s.env.take k, ans.verdict = .completes

/-- The chip agent leaves register `b` alone during the next `k` primitives: it is not Volatile, or the script gives those
answers and none of them changes it. This is the explicit premise spec/20_memory.md R72 asks for. -/
abbrev State.Still (s : State) (k : Nat) (b : Addr) : Prop :=
  b ∉ s.cfg.volatile ∨ (k ≤ s.env.length ∧ ∀ ans ∈ s.env.take k, ∀ m ∈ ans.drift, m.1 ≠ b)

/-- A read of register `b` returns its content: ReadBack or Volatile (R68 (a), R73). -/
abbrev State.Readable (s : State) (b : Addr) : Prop := b ∈ s.cfg.volatile ∨ b ∈ s.cfg.readBack

/-- The invariant of the states between steps: PR in canonical form (every register number at most 0x7F, R60), no command
executing (R25), and no bus scope held unless a transport error left it open (R41). -/
abbrev State.Inv (s : State) : Prop :=
  s.chip.mem.wf = true ∧ s.seq = 0 ∧ (s.scope = true → s.fault.isSome = true)

/-- The block's registers and the boundary are unchanged. -/
abbrev State.SameBlock (s t : State) : Prop :=
  t.cfg = s.cfg ∧ t.x = s.x ∧ t.cs = s.cs ∧ t.ready = s.ready ∧ t.fault = s.fault ∧ t.wire = s.wire ∧ t.inputs = s.inputs

/-- What a completed command leaves behind it: seq 0 and no scope held (R25, R41), and the next `k` answers taken. -/
abbrev State.Settled (s t : State) (k : Nat) : Prop :=
  t.seq = 0 ∧ t.scope = false ∧ t.env = s.env.drop k ∧ t.draws = s.draws + k

/-- The response of the exchange that `s` is about to perform keeps the contract of the peripheral (R66 to R68, R73): with
the register requested before, its content as the chip left it; else the draws of the answer. -/
abbrev State.Answered (s : State) (rx : Frame) : Prop :=
  (∀ p, s.chip.pend = some p → s.Readable p → s.Still 1 p → rx.data = s.chip.reg p) ∧
  ∀ ans rest, s.env = ans :: rest →
    rx.b0 = ans.status ∧ ((∀ p, s.chip.pend = some p → ¬ s.Readable p) → rx.data = ans.data)

/-- The events of one `write` (R130): one scope, one exchange. -/
def writeEvents (a : Addr) (v : Word) (rx : Frame) : List Event :=
  [.acq, .xchg (encWrite (addrByte a) v) rx, .rel]

/-- The events of one `read` (R131): one scope, the request and the fetch exchange. -/
def readEvents (a : Addr) (rx1 rx2 : Frame) : List Event :=
  [.acq, .xchg (encRead (addrByte a)) rx1, .xchg (encRead (addrByte a)) rx2, .rel]

/-- The events of a list of writes, with the responses the chip gave (R191). -/
def writesEvents : List (Addr × Word) → List Frame → List Event
  | [], _ => []
  | _, [] => []
  | (a, v) :: ws, rx :: rxs => writeEvents a v rx ++ writesEvents ws rxs

/-- The exchanges of a trace, in order (R274). -/
def exchanges : List Event → List (Frame × Frame)
  | [] => []
  | .xchg tx rx :: es => (tx, rx) :: exchanges es
  | _ :: es => exchanges es

/-- The responses of a trace, in order. -/
def responses : List Event → List PortWord
  | [] => []
  | .resp r :: es => r :: responses es
  | _ :: es => responses es

/-- A sequence of logical transactions: each scope holds one write frame, or one read-request frame sent twice (R75). -/
def transactions : List Event → Bool
  | [] => true
  | .acq :: .xchg tx _ :: .rel :: es => tx.isWrite && transactions es
  | .acq :: .xchg tx _ :: .xchg tx' _ :: .rel :: es => !tx.isWrite && tx == tx' && transactions es
  | _ => false

/-- Whether a scope is held after a list of events, none held before it (R41). -/
def scopeHeld (es : List Event) : Bool := (es.filter fun e => e == .acq || e == .rel).getLast? == some .acq

/-- What the exchanges of a trace leave in register `b`, the chip doing nothing: the word of the last write frame for it, else
what it held (R67, R72). -/
def contentAfter : List Event → Addr → Word → Word
  | [], _, w => w
  | .xchg tx _ :: es, b, w => contentAfter es b (if tx.isWrite = true ∧ b = tx.addr then tx.data else w)
  | _ :: es, b, w => contentAfter es b w

/-- What the exchanges of a trace leave in the read latch: none after a write frame, the address after a read request (R67). -/
def latchAfter : List Event → Option Addr → Option Addr
  | [], p => p
  | .xchg tx _ :: es, _ => latchAfter es (if tx.isWrite = true then none else some tx.addr)
  | _ :: es, p => latchAfter es p

/-- `s` with answer number `k`, `ans`, completing, and every primitive after it too: the run that shows what primitive `k`
was to do. -/
def State.completing (s : State) (k : Nat) (ans : Answer) : State :=
  { s with env := s.env.take k ++ [{ ans with verdict := .completes }] }

/-- What a transport error at a wire frame leaves beside the chip's registers (R222; notes/assumptions/17.md): Err(e) and the
optional release, the error latched, seq 0, the latch the draw; the block and the boundary as before. -/
abbrev State.FrameFailed (s t : State) (e : TErr) (latch : Option Addr) (release : Bool) : Prop :=
  t.trace = s.trace ++ [.err e] ++ (if s.scope && release then [.rel] else []) ∧ t.scope = (s.scope && !release) ∧
  t.fault = some e ∧ t.seq = 0 ∧ t.chip.pend = latch ∧
  State.SameBlock { s with fault := some e } t ∧ t.env = s.env.drop 1 ∧ t.draws = s.draws + 1

/-- A command of the command port, not a wire frame. -/
def isCommand : Instr → Bool
  | .frameWr _ _ | .frameRd _ => false
  | _ => true

/-- `begin`, the one command that needs no completed `begin` (R27, R252). -/
def isBegin : Instr → Bool
  | .beginBlock _ => true
  | _ => false

/-- The exchanges of a command that ends ok (R274). -/
def exchangeCount : Instr → Nat
  | .write _ _ | .setRampMode _ | .moveTo _ | .setVelocity _ | .setPosition _ | .setEncoderPosition _ => 1
  | .read _ | .isStopped | .getPosition | .getEncoderPosition => 2
  | .jog _ | .enableStealthChop _ | .reverseDirection _ => 3
  | .setCurrentLimits _ _ _ => 4
  | .updateMotionProfile => 7
  | .beginBlock _ => 9
  | .setProfileField _ _ | .getProfileField _ => 0
  | .frameWr _ _ | .frameRd _ => 1

/-- The bus scopes of a command that ends ok (R274). -/
def scopeCount : Instr → Nat
  | .write _ _ | .setRampMode _ | .moveTo _ | .setVelocity _ | .setPosition _ | .setEncoderPosition _ => 1
  | .read _ | .isStopped | .getPosition | .getEncoderPosition => 1
  | .jog _ | .enableStealthChop _ | .reverseDirection _ => 2
  | .setCurrentLimits _ _ _ => 3
  | .updateMotionProfile => 7
  | .beginBlock _ => 9
  | .setProfileField _ _ | .getProfileField _ => 0
  | .frameWr _ _ | .frameRd _ => 0

/-- The primitives of an instruction: an acquire and a release per scope, the exchanges, and begin's platform setup
(R274). -/
def primitiveCount (i : Instr) : Nat := 2 * scopeCount i + exchangeCount i + (if isBegin i then 1 else 0)

/-- The cache when the first primitive of a command starts: begin has loaded the defaults (R193), setVelocity and
setProfileField have written their word (R155, R195). -/
def cacheAfter : Instr → State → Vector Word 7
  | .beginBlock _, s => s.cfg.profileDefault
  | .setVelocity v, s => s.x.set 3 v
  | .setProfileField i v, s => (profileIndex i).elim s.x fun k => s.x.set k v
  | _, s => s.x

/-- The bus-handle register when the first primitive of a command starts (R193). -/
def handleAfter : Instr → State → Byte
  | .beginBlock cs, _ => cs
  | _, s => s.cs

/-- The acquires of a trace. -/
def acquires (es : List Event) : Nat := es.count .acq

/-- The command may run in `s`: `begin` needs no fault latched, any other command also a completed `begin`; the currents of
setCurrentLimits must be accepted by CS_POLICY (R13, R224); the profile index must be legal. -/
def State.Accepts (s : State) (i : Instr) : Prop :=
  isCommand i = true ∧ i.wf = true ∧ s.fault = none ∧ (isBegin i = true ∨ s.ready = true) ∧
  ∀ d h r, i = .setCurrentLimits d h r → currentsAccepted s.cfg.policy h r = true

end Sys2Proof.Machine
end

