-- ==== Sys2Proof/Certificates/Slice0/Obligations.lean ====
section
/-! DEFINITION. What is claimed of the model, one `def Obligations.<Name> : Prop` each. A rule R<n> is a rule of spec/; a
clause that rests on a choice of the model names its entry of notes/assumptions/. Parameters (spec/00_scope.md R8) are a
field of State, so a statement about every state is one about every choice of them. -/

open Sys2Proof Sys2Proof.Machine Sys2Proof.Config

/-! ### Encodings -/

/-- Words written out from R99, R91 and R92 (the vectors V1 to V64 of 95_test_vectors.md) decode to the instructions they
stand for. The joint numbering of the two frame words is the model's choice (notes/assumptions/20.md). -/
def Obligations.WordsOfTheSpecDecodeAsWritten : Prop :=
  decodeCmd 0x010A00000000 = .ok (.beginBlock 0x0A) ∧
  decodeCmd 0x022D000013EC = .ok (.write 0x2D 5100) ∧
  decodeCmd 0x032100000000 = .ok (.read 0x21) ∧
  decodeCmd 0x040200000000 = .ok (.setRampMode .velocityNegative) ∧
  decodeCmd 0x0500FFFFFF9C = .ok (.jog (-100)) ∧
  decodeCmd 0x0C05012C0258 = .ok (.setCurrentLimits 5 300 600) ∧
  decodeCmd 0x110200000320 = .ok (.setProfileField 2 800) ∧
  decodeWord 0x00AD000013EC = .ok (.frameWr 0x2D 5100) ∧
  decodeWord 0x002100000000 = .ok (.frameRd 0x21)

/-- Every well-formed instruction, with every operand at every value, is read back from its encoding (R91, R92, R98, R99). -/
def Obligations.DecodeOfEncodeIsTheInstruction : Prop :=
  ∀ i : Instr, i.wf = true → decodeWord (encode i) = .ok i

/-- The other direction: a word that decodes is the encoding of the one well-formed instruction it decodes to, at the
command port and over the joint numbering. No bit of a legal word is ignored (R99, R110). -/
def Obligations.EncodeOfDecodeIsTheWord : Prop :=
  (∀ (w : PortWord) (i : Instr), decodeWord w = .ok i → i.wf = true ∧ encode i = w) ∧
  ∀ (w : PortWord) (i : Instr), decodeCmd w = .ok i → isCommand i = true ∧ i.wf = true ∧ encode i = w

/-- R110: a command word is illegal exactly when (a) its op is undefined, (b) a field the command does not use is not zero,
(c) a reserved high part of the field a is not zero, or (d) the profile index is 7; and an illegal word presented to the
block ends with the response ILLEGAL, no bus activity and no change of state, whatever the state. -/
def Obligations.IllegalWordsAreThoseOfR110 : Prop :=
  (∀ w : PortWord,
    (∃ r, decodeCmd w = .error r) ↔
      let op := (w.extractLsb' 40 8).toNat
      let a := (w.extractLsb' 32 8).toNat
      let v := (w.extractLsb' 0 32).toNat
      (op = 0x00 ∨ 0x13 ≤ op) ∨
      (op ∈ [0x01, 0x03, 0x04, 0x08, 0x09, 0x0B, 0x0D, 0x0E, 0x10, 0x12] ∧ v ≠ 0) ∨
      (op ∈ [0x05, 0x06, 0x07, 0x0A, 0x0B, 0x0D, 0x0E, 0x0F, 0x10] ∧ a ≠ 0) ∨
      (op ∈ [0x02, 0x03] ∧ 2 ^ 7 ≤ a) ∨ (op = 0x04 ∧ 2 ^ 2 ≤ a) ∨ (op ∈ [0x08, 0x09] ∧ 2 ≤ a) ∨
      (op = 0x0C ∧ 2 ^ 4 ≤ a) ∨ (op ∈ [0x11, 0x12] ∧ (2 ^ 3 ≤ a ∨ a = 7))) ∧
  ∀ (s : State) (w : PortWord) (rest : List Input) (r : Reject),
    s.wire = none → s.inputs = .cmd w :: rest → decodeCmd w = .error r →
    step s = .next { s with inputs := rest, seq := 0, trace := s.trace ++ [.cmd w, .resp 0xEF0000000000] }

/-- R94, R95: EncWrite sets the write flag by OR and carries V most significant byte first; splitting and recomposing is
the identity; for A at most 0x7F the two kinds of frame are never confused; EncWrite is injective on (A[6:0], V) and
EncRead on A. -/
def Obligations.FramesOfTheCodec : Prop :=
  (∀ (a : Byte) (v : Word), (encWrite a v).b0 = a ||| 0x80 ∧ (encWrite a v).b1 = v.extractLsb' 24 8 ∧
    (encWrite a v).b2 = v.extractLsb' 16 8 ∧ (encWrite a v).b3 = v.extractLsb' 8 8 ∧
    (encWrite a v).b4 = v.extractLsb' 0 8 ∧ (encWrite a v).data = v) ∧
  (∀ a : Byte, encRead a = { b0 := a, b1 := 0, b2 := 0, b3 := 0, b4 := 0 }) ∧
  (∀ (s : Byte) (v : Word), decResp (frameOf s v) = (s, v)) ∧
  (∀ (a : Byte) (v : Word), a.toNat ≤ 0x7F → (encRead a).isWrite = false ∧ (encWrite a v).isWrite = true) ∧
  (∀ (a a' : Byte) (v v' : Word), encWrite a v = encWrite a' v' → a.extractLsb' 0 7 = a'.extractLsb' 0 7 ∧ v = v') ∧
  ∀ a a' : Byte, encRead a = encRead a' → a = a'

/-- R101: the six response kinds and the contents of their fields; no other kind is produced. -/
def Obligations.ResponseWordsOfTheSixKinds : Prop :=
  (∀ v, encodeResponse (.value v) = cmdWord 0x01 0 v) ∧ (∀ st v, encodeResponse (.statusValue st v) = cmdWord 0x02 st v) ∧
  encodeResponse (.bool true) = 0x030000000001 ∧ encodeResponse (.bool false) = 0x030000000000 ∧
  (∀ e, encodeResponse (.transportError e) = cmdWord 0xE0 0 e) ∧ encodeResponse .illegal = 0xEF0000000000 ∧
  encodeResponse .ack = 0 ∧
  ∀ r : Response, opField (encodeResponse r) ∈ [0x00, 0x01, 0x02, 0x03, 0xE0, 0xEF] ∧
    (opField (encodeResponse r) ≠ 0x02 → aField (encodeResponse r) = 0)

/-- R97: EditBit sets or clears by the mask 1 << k, which changes bit k to en and leaves the other 31 bits as they were; the
three commands use k = 2, 4 and 17. -/
def Obligations.EditBitChangesOneBit : Prop :=
  (∀ (g : Word) (k : Nat), editBit g k true = g ||| (1#32 <<< k) ∧ editBit g k false = g &&& ~~~(1#32 <<< k)) ∧
  (∀ (g : Word) (k j : Nat) (en : Bool), k < 32 → j < 32 →
    (editBit g k en).getLsbD j = if j = k then en else g.getLsbD j) ∧
  stealthBit = 2 ∧ reverseBit = 4 ∧ vsenseBit = 17

/-! ### The peripheral's exchange: the wire frames -/

/-- R67 for a write frame: the word is stored in the addressed register and the latch cleared; the response belongs to the
state before (R66, R68); everything else is as before. -/
def Obligations.WriteFrameStoresAndClearsTheLatch : Prop :=
  ∀ (a : Addr) (v : Word) (s : State), s.Quiet 1 →
    ∃ t rx, exec (.frameWr a v) s = .next t ∧ t.trace = s.trace ++ [.xchg (encWrite (addrByte a) v) rx] ∧
      s.Answered rx ∧ t.chip.reg a = v ∧ t.chip.pend = none ∧
      (∀ b, b ≠ a → s.Still 1 b → t.chip.reg b = s.chip.reg b) ∧
      s.SameBlock t ∧ t.seq = s.seq ∧ t.scope = s.scope ∧ t.env = s.env.drop 1

/-- R67 for a read-request frame: it sets the latch, and the response belongs to the request before (R66). That it changes no
register, whatever its address, is the model's reading (DEDUCED, notes/assumptions/28.md): R67 marks it as derived and R69 leaves
it open outside the sixteen named registers. -/
def Obligations.ReadRequestFrameSetsTheLatch : Prop :=
  ∀ (a : Addr) (s : State), s.Quiet 1 →
    ∃ t rx, exec (.frameRd a) s = .next t ∧ t.trace = s.trace ++ [.xchg (encRead (addrByte a)) rx] ∧
      s.Answered rx ∧ t.chip.pend = some a ∧ (∀ b, s.Still 1 b → t.chip.reg b = s.chip.reg b) ∧
      s.SameBlock t ∧ t.seq = s.seq ∧ t.scope = s.scope ∧ t.env = s.env.drop 1

/-- R66, R132: the data of the response to the exchange that carries address b are those of the address a requested one
exchange earlier. -/
def Obligations.ResponseDataBelongToThePreviousRequest : Prop :=
  ∀ (a b : Addr) (s : State), s.Quiet 2 → s.Readable a → s.Still 2 a →
    ∃ t u rx1 rx2, exec (.frameRd a) s = .next t ∧ exec (.frameRd b) t = .next u ∧
      u.trace = s.trace ++ [.xchg (encRead (addrByte a)) rx1, .xchg (encRead (addrByte b)) rx2] ∧
      rx2.data = s.chip.reg a ∧ u.chip.pend = some b

/-! ### Register codec -/

/-- R130: `write` is one scope with one exchange of EncWrite(A, V), answered ACK; PR[A] becomes V, the latch is cleared, the
block's state and every other register stay. -/
def Obligations.WriteStoresItsWord : Prop :=
  ∀ (a : Addr) (v : Word) (s : State), s.Runs → s.Quiet 3 →
    ∃ t rx, exec (.write a v) s = .next t ∧
      t.trace = s.trace ++ [.acq, .xchg (encWrite (addrByte a) v) rx, .rel, .resp 0x000000000000] ∧
      t.chip.pend = none ∧ (∀ b, s.Still 3 b → t.chip.reg b = if b = a then v else s.chip.reg b) ∧
      s.SameBlock t ∧ s.Settled t 3

/-- R131: `read` is one scope with the same request frame twice; the response carries the status byte and the data of the
second exchange's response, which under the peripheral's contract is the register's content. That no register changes, whatever
the address, is the model's reading (DEDUCED, notes/assumptions/28.md): R67 marks it as derived and R69 leaves it open outside
the sixteen named registers. -/
def Obligations.ReadAnswersFromTheSecondExchange : Prop :=
  ∀ (a : Addr) (s : State), s.Runs → s.Quiet 4 →
    ∃ t rx1 rx2, exec (.read a) s = .next t ∧
      t.trace = s.trace ++ [.acq, .xchg (encRead (addrByte a)) rx1, .xchg (encRead (addrByte a)) rx2, .rel,
        .resp (cmdWord 0x02 rx2.b0 rx2.data)] ∧
      (s.Readable a → s.Still 3 a → rx2.data = s.chip.reg a) ∧
      (∀ ans, s.env[2]? = some ans → rx2.b0 = ans.status ∧ (¬ s.Readable a → rx2.data = ans.data)) ∧
      t.chip.pend = some a ∧ (∀ b, s.Still 4 b → t.chip.reg b = s.chip.reg b) ∧ s.SameBlock t ∧ s.Settled t 4

/-- R70: two successive reads of a ReadBack register that is not Volatile return the same value, and writing the same value
twice leaves the same content as writing it once. -/
def Obligations.ReadBackRegistersAreIdempotent : Prop :=
  ∀ (a : Addr) (v : Word) (s : State), s.Runs → s.Quiet 8 → a ∈ s.cfg.readBack → a ∉ s.cfg.volatile →
    (∃ t u st st', exec (.read a) s = .next t ∧ exec (.read a) t = .next u ∧
      responses t.trace = responses s.trace ++ [encodeResponse (.statusValue st (s.chip.reg a))] ∧
      responses u.trace = responses t.trace ++ [encodeResponse (.statusValue st' (s.chip.reg a))]) ∧
    ∃ t u, exec (.write a v) s = .next t ∧ exec (.write a v) t = .next u ∧ t.chip.reg a = v ∧
      ∀ b, b ∉ s.cfg.volatile → u.chip.reg b = t.chip.reg b

/-- R69, R260: a read of register b right after a read of register a returns b's own content; the pending result of a is
flushed. -/
def Obligations.ConsecutiveReadsDoNotMix : Prop :=
  ∀ (a b : Addr) (s : State), s.Runs → s.Quiet 8 → s.Readable b → s.Still 7 b →
    ∃ t u st, exec (.read a) s = .next t ∧ t.chip.pend = some a ∧ exec (.read b) t = .next u ∧
      responses u.trace = responses t.trace ++ [encodeResponse (.statusValue st (s.chip.reg b))]

/-! ### Motion -/

/-- R150, R151, R157, R159: setRampMode, moveTo, setPosition and setEncoderPosition are each one write of one fixed register
with the operand's word (RM_VAL[m] for a mode), answered ACK; the block's state and every other register stay. -/
def Obligations.RegisterCommandsWriteTheirRegister : Prop :=
  ∀ (s : State) (i : Instr) (a : Addr) (v : Word),
    ((i = .setRampMode .position ∧ a = s.cfg.map.rampmode ∧ v = s.cfg.rmVal.position) ∨
      (i = .setRampMode .velocityPositive ∧ a = s.cfg.map.rampmode ∧ v = s.cfg.rmVal.velocityPositive) ∨
      (i = .setRampMode .velocityNegative ∧ a = s.cfg.map.rampmode ∧ v = s.cfg.rmVal.velocityNegative) ∨
      (i = .setRampMode .hold ∧ a = s.cfg.map.rampmode ∧ v = s.cfg.rmVal.hold) ∨
      (i = .moveTo v ∧ a = s.cfg.map.xtarget) ∨ (i = .setPosition v ∧ a = s.cfg.map.xactual) ∨
      (i = .setEncoderPosition v ∧ a = s.cfg.map.xenc)) →
    s.Runs → s.Quiet 3 →
    ∃ t rx, exec i s = .next t ∧
      t.trace = s.trace ++ [.acq, .xchg (encWrite (addrByte a) v) rx, .rel, .resp 0x000000000000] ∧
      t.chip.pend = none ∧ (∀ b, s.Still 3 b → t.chip.reg b = if b = a then v else s.chip.reg b) ∧
      s.SameBlock t ∧ s.Settled t 3

/-- R42: setRampMode takes the chip-side ramp mode to its operand from any state, also the one it is in; no command but
setRampMode and a raw `write` to ADDR_RAMPMODE changes it, whether the command ends ok or in an error. RAMPMODE is outside
Volatile in the second clause. -/
def Obligations.RampModeIsSetBySetRampModeAlone : Prop :=
  (∀ (m : RampMode) (s : State), s.cfg.wf → s.Runs → s.Quiet 3 → s.Still 3 s.cfg.map.rampmode →
    ∃ t, exec (.setRampMode m) s = .next t ∧ t.chip.rampMode t.cfg = some m) ∧
  ∀ (i : Instr) (s t : State), s.cfg.wf → s.cfg.map.rampmode ∉ s.cfg.volatile → isCommand i = true →
    (∀ m, i ≠ .setRampMode m) → (∀ v, i ≠ .write s.cfg.map.rampmode v) → exec i s = .next t →
    t.chip.rampMode t.cfg = s.chip.rampMode s.cfg

/-- R105: the single-write commands do exactly what the raw `write` of their register does. -/
def Obligations.RegisterCommandsEqualRawWrites : Prop :=
  ∀ (s : State) (p : Word) (m : RampMode),
    exec (.moveTo p) s = exec (.write s.cfg.map.xtarget p) s ∧
    exec (.setPosition p) s = exec (.write s.cfg.map.xactual p) s ∧
    exec (.setEncoderPosition p) s = exec (.write s.cfg.map.xenc p) s ∧
    exec (.setRampMode m) s = exec (.write s.cfg.map.rampmode (rampWord s.cfg m)) s

/-- R155: setVelocity puts v into x[3] and writes it to VMAX; the other cache registers and every other register stay. -/
def Obligations.SetVelocityWritesCacheAndChip : Prop :=
  ∀ (v : Word) (s : State), s.Runs → s.Quiet 3 →
    ∃ t rx, exec (.setVelocity v) s = .next t ∧
      t.trace = s.trace ++ [.acq, .xchg (encWrite (addrByte s.cfg.map.vmax) v) rx, .rel, .resp 0x000000000000] ∧
      t.x[3] = v ∧ (∀ k : Fin 7, k ≠ 3 → t.x[k] = s.x[k]) ∧ t.chip.pend = none ∧
      (∀ b, s.Still 3 b → t.chip.reg b = if b = s.cfg.map.vmax then v else s.chip.reg b) ∧
      State.SameBlock { s with x := t.x } t ∧ s.Settled t 3

/-- R155: the cache is updated before the write: if one of the three primitives of setVelocity fails, x[3] already
holds v. -/
def Obligations.SetVelocityFailureKeepsTheNewCache : Prop :=
  ∀ (v : Word) (s : State) (k : Nat) (ans : Answer) (e : TErr) (l : Bool) (p : Option Addr) (r : Bool),
    s.Runs → k < 3 → s.Quiet k → s.env[k]? = some ans → ans.verdict = .fails e l p r →
    ∃ t, exec (.setVelocity v) s = .next t ∧ t.fault = some e ∧ t.x = s.x.set 3 v

/-- R158, R160: getPosition and getEncoderPosition answer VALUE with the data of the second exchange's response for XACTUAL
and XENC; the status byte is dropped; no register changes. -/
def Obligations.PositionReadsAnswerTheValue : Prop :=
  ∀ (s : State) (i : Instr) (a : Addr),
    ((i = .getPosition ∧ a = s.cfg.map.xactual) ∨ (i = .getEncoderPosition ∧ a = s.cfg.map.xenc)) →
    s.cfg.wf → s.Runs → s.Quiet 4 →
    ∃ t rx1 rx2, exec i s = .next t ∧
      t.trace = s.trace ++ [.acq, .xchg (encRead (addrByte a)) rx1, .xchg (encRead (addrByte a)) rx2, .rel,
        .resp (cmdWord 0x01 0 rx2.data)] ∧
      (s.Still 3 a → rx2.data = s.chip.reg a) ∧ t.chip.pend = some a ∧
      (∀ b, s.Still 4 b → t.chip.reg b = s.chip.reg b) ∧ s.SameBlock t ∧ s.Settled t 4

/-- R156: isStopped answers true exactly when all 32 bits of the second exchange's data are zero, and false otherwise,
whatever the status byte; no register changes. -/
def Obligations.IsStoppedIffVelocityReadsZero : Prop :=
  ∀ s : State, s.cfg.wf → s.Runs → s.Quiet 4 →
    ∃ t rx1 rx2, exec .isStopped s = .next t ∧
      t.trace = s.trace ++ [.acq, .xchg (encRead (addrByte s.cfg.map.vactual)) rx1,
        .xchg (encRead (addrByte s.cfg.map.vactual)) rx2, .rel,
        .resp (if rx2.data = 0 then 0x030000000001 else 0x030000000000)] ∧
      (s.Still 3 s.cfg.map.vactual → rx2.data = s.chip.reg s.cfg.map.vactual) ∧
      t.chip.pend = some s.cfg.map.vactual ∧
      (∀ b, s.Still 4 b → t.chip.reg b = s.chip.reg b) ∧ s.SameBlock t ∧ s.Settled t 4

/-- R152, R153, R154: jog reads XACTUAL, adds the delta modulo 2^32 and writes the sum to XTARGET; the frame written carries
the data just read plus the delta, and the sum is the two's-complement pattern of the integer sum. -/
def Obligations.JogWritesPositionPlusDelta : Prop :=
  ∀ (d : Word) (s : State), s.cfg.wf → s.Runs → s.Quiet 7 →
    ∃ t rx1 rx2 rx3, exec (.jog d) s = .next t ∧
      t.trace = s.trace ++ [.acq, .xchg (encRead (addrByte s.cfg.map.xactual)) rx1,
        .xchg (encRead (addrByte s.cfg.map.xactual)) rx2, .rel, .acq,
        .xchg (encWrite (addrByte s.cfg.map.xtarget) (rx2.data + d)) rx3, .rel, .resp 0x000000000000] ∧
      (rx2.data + d).toNat = (rx2.data.toNat + d.toNat) % 2 ^ 32 ∧
      (-2 ^ 31 ≤ rx2.data.toInt + d.toInt → rx2.data.toInt + d.toInt < 2 ^ 31 →
        (rx2.data + d).toInt = rx2.data.toInt + d.toInt) ∧
      (s.Still 3 s.cfg.map.xactual → rx2.data = s.chip.reg s.cfg.map.xactual) ∧
      (∀ b, s.Still 7 b → t.chip.reg b = if b = s.cfg.map.xtarget then rx2.data + d else s.chip.reg b) ∧
      t.chip.pend = none ∧ s.SameBlock t ∧ s.Settled t 7

/-! ### Configuration -/

/-- R180, R181, R182: enableStealthChop and reverseDirection read GCONF, edit bit 2 or bit 4 and write the whole word back,
unconditionally; the other 31 bits go back as read. It holds under D29 (notes/assumptions/26.md): no other host and no other
bus master writes between the read and the write. -/
def Obligations.GconfCommandsEditOneBit : Prop :=
  ∀ (s : State) (i : Instr) (k : Nat) (en : Bool),
    ((i = .enableStealthChop en ∧ k = 2) ∨ (i = .reverseDirection en ∧ k = 4)) → s.cfg.wf → s.Runs → s.Quiet 7 →
    ∃ t rx1 rx2 rx3 g', exec i s = .next t ∧ rx2.data = s.chip.reg s.cfg.map.gconf ∧
      (∀ j, j < 32 → g'.getLsbD j = if j = k then en else rx2.data.getLsbD j) ∧
      t.trace = s.trace ++ [.acq, .xchg (encRead (addrByte s.cfg.map.gconf)) rx1,
        .xchg (encRead (addrByte s.cfg.map.gconf)) rx2, .rel, .acq,
        .xchg (encWrite (addrByte s.cfg.map.gconf) g') rx3, .rel, .resp 0x000000000000] ∧
      (∀ b, s.Still 7 b → t.chip.reg b = if b = s.cfg.map.gconf then g' else s.chip.reg b) ∧
      t.chip.pend = none ∧ s.SameBlock t ∧ s.Settled t 7

/-- R180 (S8 of 95_test_vectors.md): enableStealthChop(true) followed by enableStealthChop(false) leaves all bits of GCONF
except bit 2 unchanged after both calls. It holds under D29 (notes/assumptions/26.md): no other host and no other bus master. -/
def Obligations.StealthOnThenOffKeepsTheOtherBits : Prop :=
  ∀ s : State, s.cfg.wf → s.Runs → s.Quiet 14 →
    ∃ t u, exec (.enableStealthChop true) s = .next t ∧ exec (.enableStealthChop false) t = .next u ∧
      (t.chip.reg s.cfg.map.gconf).getLsbD 2 = true ∧ (u.chip.reg s.cfg.map.gconf).getLsbD 2 = false ∧
      ∀ j, j < 32 → j ≠ 2 →
        (t.chip.reg s.cfg.map.gconf).getLsbD j = (s.chip.reg s.cfg.map.gconf).getLsbD j ∧
        (u.chip.reg s.cfg.map.gconf).getLsbD j = (s.chip.reg s.cfg.map.gconf).getLsbD j

/-- R183: the two GCONF commands compose: each reads what the other wrote, in either order. It holds under D29
(notes/assumptions/26.md): no other host and no other bus master. -/
def Obligations.StealthAndReverseCompose : Prop :=
  ∀ (s : State) (en rev : Bool), s.cfg.wf → s.Runs → s.Quiet 14 →
    ∃ t u t' u', exec (.enableStealthChop en) s = .next t ∧ exec (.reverseDirection rev) t = .next u ∧
      exec (.reverseDirection rev) s = .next t' ∧ exec (.enableStealthChop en) t' = .next u' ∧
      u.chip.reg s.cfg.map.gconf = editBit (editBit (s.chip.reg s.cfg.map.gconf) 2 en) 4 rev ∧
      u'.chip.reg s.cfg.map.gconf = u.chip.reg s.cfg.map.gconf

/-- R185: the range is high exactly when either current exceeds 750 mA, strictly, and the selector bit is 0 in the high
range and 1 otherwise. -/
def Obligations.FullScaleSelection : Prop :=
  ∀ hold run : BitVec 16,
    (highRange hold run = true ↔ 750 < hold.toNat ∨ 750 < run.toNat) ∧
    (vsense hold run = true ↔ hold.toNat ≤ 750 ∧ run.toNat ≤ 750)

/-- R186: for every milliamp operand the raw scale is the real formula round(32·√2·I·(Rsense+0.02)/Vfs) − 1 with the exact
square root, is at least −1, and n = raw + 1 is the one natural number with n = 0 and 8·N² < D², or n at least 1 and
(2n−1)²·D² < 8·N² < (2n+1)²·D², for r = N/D. -/
def Obligations.RawScaleIsTheRoundedFormula : Prop :=
  ∀ (high : Bool) (m : Nat), m ≤ 65535 →
    rawScale high m =
      round (32 * Real.sqrt 2 * ((m : ℝ) / 1000) * (0.15 + 0.02) / (if high then 0.32 else 0.18)) - 1 ∧
    -1 ≤ rawScale high m ∧
    ∀ n : Nat, rawScale high m = (n : Int) - 1 ↔
      let num := if high then 17 * m else 34 * m
      let den := if high then 1000 else 1125
      (n = 0 ∧ 8 * num ^ 2 < den ^ 2) ∨
      (1 ≤ n ∧ (2 * n - 1) ^ 2 * den ^ 2 < 8 * num ^ 2 ∧ 8 * num ^ 2 < (2 * n + 1) ^ 2 * den ^ 2)

/-- R187: Scale is min(31, max(0, RawScale)) under clamp, and where the raw value leaves the range: at 0.18 V it is -1 for
0..11 mA and never exceeds 31 up to 750 mA (738..750 mA give 31); at 0.32 V it is -1 for 0..20 mA, 31 for 1311..1351 mA and
exceeds 31 from 1352 mA up. -/
def Obligations.ScaleRangeOfTheTwoReferences : Prop :=
  (∀ raw : Int, (clampScale raw).toNat = min 31 (max 0 raw)) ∧
  (∀ m, m ≤ 750 →
    (rawScale false m = -1 ↔ m ≤ 11) ∧ rawScale false m ≤ 31 ∧ (rawScale false m = 31 ↔ 738 ≤ m)) ∧
  ∀ m, m ≤ 65535 →
    (rawScale true m = -1 ↔ m ≤ 20) ∧ (rawScale true m = 31 ↔ 1311 ≤ m ∧ m ≤ 1351) ∧
    (31 < rawScale true m ↔ 1352 ≤ m)

/-- R102, R188, R31: the current word has the delay at bits 19:16, the clamped run scale at 12:8, the clamped hold scale at
4:0, one full-scale voltage for both, and every other bit 0. -/
def Obligations.CurrentWordFields : Prop :=
  ∀ (d : BitVec 4) (hold run : BitVec 16),
    (currentWord d hold run).extractLsb' 16 4 = d ∧
    (currentWord d hold run).extractLsb' 8 5 = clampScale (rawScale (highRange hold run) run.toNat) ∧
    (currentWord d hold run).extractLsb' 0 5 = clampScale (rawScale (highRange hold run) hold.toNat) ∧
    (currentWord d hold run).extractLsb' 20 12 = 0 ∧ (currentWord d hold run).extractLsb' 13 3 = 0 ∧
    (currentWord d hold run).extractLsb' 5 3 = 0

/-- R189: setCurrentLimits writes the current word to IHOLD_IRUN, then edits bit 17 of CHOPCONF to the selector, in three
scopes and four exchanges; every other register and the block's state stay. The edit holds under D29 (notes/assumptions/26.md):
no other host and no other bus master writes CHOPCONF between its read and its write. -/
def Obligations.SetCurrentLimitsWritesScalesThenSelector : Prop :=
  ∀ (d : BitVec 4) (hold run : BitVec 16) (s : State), s.cfg.wf → s.Runs → s.Quiet 10 →
    currentsAccepted s.cfg.policy hold run = true →
    ∃ t rx1 rx2 rx3 rx4 c', exec (.setCurrentLimits d hold run) s = .next t ∧
      rx3.data = s.chip.reg s.cfg.map.chopconf ∧
      (∀ j, j < 32 → c'.getLsbD j = if j = 17 then vsense hold run else rx3.data.getLsbD j) ∧
      t.trace = s.trace ++ [.acq, .xchg (encWrite (addrByte s.cfg.map.iholdIrun) (currentWord d hold run)) rx1, .rel,
        .acq, .xchg (encRead (addrByte s.cfg.map.chopconf)) rx2, .xchg (encRead (addrByte s.cfg.map.chopconf)) rx3, .rel,
        .acq, .xchg (encWrite (addrByte s.cfg.map.chopconf) c') rx4, .rel, .resp 0x000000000000] ∧
      (∀ b, s.Still 10 b → t.chip.reg b =
        if b = s.cfg.map.chopconf then c' else if b = s.cfg.map.iholdIrun then currentWord d hold run
        else s.chip.reg b) ∧
      t.chip.pend = none ∧ s.SameBlock t ∧ s.Settled t 10

/-- R187, R13: CS_POLICY = clamp accepts every current; under CS_POLICY = refuse a command with a raw scale outside 0..31 is
refused before any primitive, and every other runs. -/
def Obligations.CurrentPolicyRefusesOutOfRange : Prop :=
  ∀ (d : BitVec 4) (hold run : BitVec 16) (s : State), s.Runs →
    (s.cfg.policy = .clamp → currentsAccepted s.cfg.policy hold run = true) ∧
    (s.cfg.policy = .refuse →
      (exec (.setCurrentLimits d hold run) s = .refused .currentOutOfRange ↔
        ∃ m ∈ [hold.toNat, run.toNat],
          rawScale (highRange hold run) m < 0 ∨ 31 < rawScale (highRange hold run) m))

/-- R191, R192: the commit writes the seven cache registers to A1, V1, AMAX, VMAX, DMAX, D1, VSTOP in that order, each in its
own scope, whether or not they changed; the cache and every other register stay. -/
def Obligations.CommitWritesTheSevenInOrder : Prop :=
  ∀ s : State, s.cfg.wf → s.Runs → s.Quiet 21 →
    ∃ t rxs, rxs.length = 7 ∧ exec .updateMotionProfile s = .next t ∧
      t.trace = s.trace ++ writesEvents
        [(s.cfg.map.a1, s.x[0]), (s.cfg.map.v1, s.x[1]), (s.cfg.map.amax, s.x[2]), (s.cfg.map.vmax, s.x[3]),
          (s.cfg.map.dmax, s.x[4]), (s.cfg.map.d1, s.x[5]), (s.cfg.map.vstop, s.x[6])] rxs ++ [.resp 0x000000000000] ∧
      (∀ k : Fin 7, s.Still 21 (s.cfg.map.addr profileRegs[k]) → t.chip.reg (s.cfg.map.addr profileRegs[k]) = s.x[k]) ∧
      (∀ b, (∀ r ∈ profileRegs, b ≠ s.cfg.map.addr r) → s.Still 21 b → t.chip.reg b = s.chip.reg b) ∧
      t.chip.pend = none ∧ s.SameBlock t ∧ s.Settled t 21

/-- R192 (c), R222: a transport error at primitive n of the commit's 21 (write j is the acquire 3j, the exchange 3j + 1 and the
release 3j + 2) leaves the registers whose write frame was delivered before n new and those after it old; if n is the exchange of
write j, register j is old or new as the failed frame landed or not. The cache is unchanged and the error latched. -/
def Obligations.CommitErrorLeavesAPrefix : Prop :=
  ∀ (s : State) (n : Nat) (ans : Answer) (e : TErr) (landed : Bool) (latch : Option Addr) (release : Bool),
    s.cfg.wf → s.Runs → n < 21 → s.Quiet n → s.env[n]? = some ans → ans.verdict = .fails e landed latch release →
    ∃ t, exec .updateMotionProfile s = .next t ∧ t.fault = some e ∧ t.x = s.x ∧
      (∀ j : Fin 7, s.Still (n + 1) (s.cfg.map.addr profileRegs[j]) →
        t.chip.reg (s.cfg.map.addr profileRegs[j]) =
          if 3 * j.val + 1 < n ∨ (n = 3 * j.val + 1 ∧ landed = true) then s.x[j]
          else s.chip.reg (s.cfg.map.addr profileRegs[j])) ∧
      ∀ b, (∀ r ∈ profileRegs, b ≠ s.cfg.map.addr r) → s.Still (n + 1) b → t.chip.reg b = s.chip.reg b

/-- R193, R46: begin loads the defaults and the handle, sets up the platform, performs the nine writes in order and sets
ready; afterwards the seven profile registers, CHOPCONF and PWMCONF hold the defaults and every other register is as it
was. It needs no earlier begin (R194). -/
def Obligations.BeginEstablishesTheReadyState : Prop :=
  ∀ (cs : Byte) (s : State), s.cfg.wf → s.fault = none → s.Quiet 28 →
    ∃ t rxs, rxs.length = 9 ∧ exec (.beginBlock cs) s = .next t ∧
      t.trace = s.trace ++ [.setup cs] ++ writesEvents
        [(s.cfg.map.a1, s.cfg.profileDefault[0]), (s.cfg.map.v1, s.cfg.profileDefault[1]),
          (s.cfg.map.amax, s.cfg.profileDefault[2]), (s.cfg.map.vmax, s.cfg.profileDefault[3]),
          (s.cfg.map.dmax, s.cfg.profileDefault[4]), (s.cfg.map.d1, s.cfg.profileDefault[5]),
          (s.cfg.map.vstop, s.cfg.profileDefault[6]), (s.cfg.map.chopconf, s.cfg.chopconfDefault),
          (s.cfg.map.pwmconf, s.cfg.pwmconfDefault)] rxs ++ [.resp 0x000000000000] ∧
      t.x = s.cfg.profileDefault ∧ t.cs = cs ∧ t.ready = true ∧ t.fault = none ∧
      (∀ k : Fin 7, s.Still 28 (s.cfg.map.addr profileRegs[k]) →
        t.chip.reg (s.cfg.map.addr profileRegs[k]) = s.cfg.profileDefault[k]) ∧
      t.chip.reg s.cfg.map.chopconf = s.cfg.chopconfDefault ∧
      (s.Still 28 s.cfg.map.pwmconf → t.chip.reg s.cfg.map.pwmconf = s.cfg.pwmconfDefault) ∧
      (∀ b, (∀ r ∈ profileRegs ++ [.chopconf, .pwmconf], b ≠ s.cfg.map.addr r) → s.Still 28 b →
        t.chip.reg b = s.chip.reg b) ∧
      t.chip.pend = none ∧ State.SameBlock { s with x := t.x, cs := cs, ready := true } t ∧ s.Settled t 28

/-- R193, R222 (V75 of 95_test_vectors.md): if begin's first primitive, the platform setup, fails, the cache already holds the
defaults and cs the handle, the error is latched and no frame is sent. Two clauses are the model's readings: `ready` is as it was,
1 after an earlier begin (DEDUCED, notes/assumptions/32.md; R193 says "stays 0", R228 lists no change of it), and the latch is the
draw, as R222's unknown `pend` (DEDUCED, notes/assumptions/34.md). -/
def Obligations.BeginSetupFailureSendsNothing : Prop :=
  ∀ (cs : Byte) (s : State) (ans : Answer) (rest : List Answer) (e : TErr) (l : Bool) (p : Option Addr) (r : Bool),
    s.fault = none → s.scope = false → s.env = ans :: rest → ans.verdict = .fails e l p r →
    ∃ t, exec (.beginBlock cs) s = .next t ∧ t.trace = s.trace ++ [.err e, .resp (cmdWord 0xE0 0 e)] ∧
      t.x = s.cfg.profileDefault ∧ t.cs = cs ∧ t.ready = s.ready ∧ t.fault = some e ∧ t.seq = 0 ∧
      (∀ b, s.Still 1 b → t.chip.reg b = s.chip.reg b) ∧ t.chip.pend = p

/-- R193, R222 (V74, V75 of 95_test_vectors.md): a transport error at primitive k of begin's 28 (the setup 0, and of write j the
acquire 3j + 1, the exchange 3j + 2 and the release 3j + 3) leaves the cache at the defaults, cs at the operand, the error latched
and a prefix of the nine writes on the chip: a register whose write frame was delivered before k is new, one after it old, and the
register of a failed frame old or new as it landed or not. That `ready` is as it was, 1 after an earlier begin, is the model's
reading (DEDUCED, notes/assumptions/32.md; R193 says "stays 0", R228 lists no change of it). -/
def Obligations.BeginErrorLeavesAPrefix : Prop :=
  ∀ (cs : Byte) (s : State) (k : Nat) (ans : Answer) (e : TErr) (landed : Bool) (latch : Option Addr) (release : Bool),
    s.cfg.wf → s.fault = none → k < 28 → s.Quiet k → s.env[k]? = some ans → ans.verdict = .fails e landed latch release →
    ∃ t, exec (.beginBlock cs) s = .next t ∧ t.fault = some e ∧ t.seq = 0 ∧
      t.x = s.cfg.profileDefault ∧ t.cs = cs ∧ t.ready = s.ready ∧
      (∀ (j : Nat) (a : Addr) (v : Word),
        [(s.cfg.map.a1, s.cfg.profileDefault[0]), (s.cfg.map.v1, s.cfg.profileDefault[1]),
          (s.cfg.map.amax, s.cfg.profileDefault[2]), (s.cfg.map.vmax, s.cfg.profileDefault[3]),
          (s.cfg.map.dmax, s.cfg.profileDefault[4]), (s.cfg.map.d1, s.cfg.profileDefault[5]),
          (s.cfg.map.vstop, s.cfg.profileDefault[6]), (s.cfg.map.chopconf, s.cfg.chopconfDefault),
          (s.cfg.map.pwmconf, s.cfg.pwmconfDefault)][j]? = some (a, v) → s.Still (k + 1) a →
        t.chip.reg a = if 3 * j + 2 < k ∨ (k = 3 * j + 2 ∧ landed = true) then v else s.chip.reg a) ∧
      ∀ b, (∀ r ∈ profileRegs ++ [.chopconf, .pwmconf], b ≠ s.cfg.map.addr r) → s.Still (k + 1) b →
        t.chip.reg b = s.chip.reg b

/-- R195, R196: setProfileField i changes x[i] alone and getProfileField i answers x[i]; neither performs a primitive, takes an
answer or reaches the chip. Index 7 ends IllegalCommand with nothing changed. -/
def Obligations.ProfileFieldCommands : Prop :=
  ∀ (i : BitVec 3) (v : Word) (s : State),
    (∀ k : Fin 7, i.toNat = k.val → s.Runs →
      exec (.setProfileField i v) s = .next { s with x := s.x.set k v, seq := 0, trace := s.trace ++ [.resp 0] } ∧
      exec (.getProfileField i) s =
        .next { s with seq := 0, trace := s.trace ++ [.resp (cmdWord 0x01 0 s.x[k])] }) ∧
    (i = 7 →
      exec (.setProfileField i v) s = .next { s with seq := 0, trace := s.trace ++ [.resp 0xEF0000000000] } ∧
      exec (.getProfileField i) s = .next { s with seq := 0, trace := s.trace ++ [.resp 0xEF0000000000] })

/-! ### Abnormal ends -/

/-- R222, the block's half: when primitive k of a command reports e, the command ends there: Err(e) follows the events of the k
completed primitives, then Rel exactly if a scope is held and the draw says so, then the response TRANSPORT_ERROR(e); the error is
latched, seq is 0, and no later answer is taken. That a failing BusRelease still holds its scope, so that the optional Rel applies
to it, is the model's reading (DEDUCED, notes/assumptions/13.md); that `ready` is as it was follows R228's list of what changes
(notes/assumptions/32.md). -/
def Obligations.TransportErrorEndsTheCommandAtPrimitiveK : Prop :=
  ∀ (i : Instr) (s : State) (k : Nat) (ans : Answer) (e : TErr) (l : Bool) (p : Option Addr) (r : Bool),
    s.Accepts i → s.scope = false → k < primitiveCount i → s.Quiet k → s.env[k]? = some ans →
    ans.verdict = .fails e l p r →
    ∃ t pre, exec i s = .next t ∧ pre.length = k ∧
      t.trace = s.trace ++ pre ++ [.err e] ++ (if scopeHeld pre && r then [.rel] else []) ++
        [.resp (cmdWord 0xE0 0 e)] ∧
      t.scope = (scopeHeld pre && !r) ∧
      (∀ ev ∈ pre, ev = .acq ∨ ev = .rel ∨ (∃ cs, ev = .setup cs) ∨ ∃ tx rx, ev = .xchg tx rx) ∧
      t.fault = some e ∧ t.seq = 0 ∧ t.ready = s.ready ∧ t.env = s.env.drop (k + 1)

/-- R222, what stands and what is unknown: when primitive k of a command reports e, everything before k stands (the cache and the
handle as the command had written them; every register the chip leaves alone as the completed write frames left it), the
register of a failed write frame holds its old or its new value by the draw `landed`, and the latch is the draw. The event `ev` that
primitive k was to leave is read off the run in which it completes. That the latch is the draw also where k is a release or the
setup, and as it was where k is an acquire (V73 of 95_test_vectors.md), is the model's reading (DEDUCED,
notes/assumptions/34.md). -/
def Obligations.TransportErrorLeavesAPrefixOnTheChip : Prop :=
  ∀ (i : Instr) (s : State) (k : Nat) (ans : Answer) (e : TErr) (landed : Bool) (latch : Option Addr) (release : Bool),
    s.Accepts i → k < primitiveCount i → s.Quiet k → s.env[k]? = some ans → ans.verdict = .fails e landed latch release →
    ∃ t u pre ev post, exec i s = .next t ∧ exec i (s.completing k ans) = .next u ∧
      pre.length = k ∧ u.trace = s.trace ++ pre ++ ev :: post ∧ s.trace ++ pre ++ [.err e] <+: t.trace ∧
      t.x = cacheAfter i s ∧ t.cs = handleAfter i s ∧
      t.chip.pend = (if ev = .acq then latchAfter pre s.chip.pend else latch) ∧
      ∀ b, s.Still (k + 1) b →
        t.chip.reg b = contentAfter (if landed = true then pre ++ [ev] else pre) b (s.chip.reg b)

/-- R222 and R221 at the exchange of a wire frame: an error is taken, the latch is the draw, a failed write frame leaves its
register old or new by the draw `landed`, a failed read request changes no register; an exchange that never returns leaves the run
stuck. That a frame runs as an instruction of its own is the model's form (notes/assumptions/17.md). -/
def Obligations.WireFrameErrors : Prop :=
  ∀ (a : Addr) (v : Word) (s : State) (ans : Answer), s.env[0]? = some ans →
    (∀ (e : TErr) (landed : Bool) (latch : Option Addr) (release : Bool), ans.verdict = .fails e landed latch release →
      ∃ t u, exec (.frameWr a v) s = .next t ∧ exec (.frameRd a) s = .next u ∧
        s.FrameFailed t e latch release ∧ s.FrameFailed u e latch release ∧ (landed = true → t.chip.reg a = v) ∧
        ∀ b, s.Still 1 b → t.chip.reg b = (if b = a ∧ landed = true then v else s.chip.reg b) ∧
          u.chip.reg b = s.chip.reg b) ∧
    (ans.verdict = .hangs →
      exec (.frameWr a v) s = .fault .transportHang ∧ exec (.frameRd a) s = .fault .transportHang)

/-- R221 (U18): when primitive k of a command never returns, the run is stuck: the model's named fault. -/
def Obligations.HangingPrimitiveStopsTheRun : Prop :=
  ∀ (i : Instr) (s : State) (k : Nat) (ans : Answer),
    s.Accepts i → k < primitiveCount i → s.Quiet k → s.env[k]? = some ans → ans.verdict = .hangs →
    exec i s = .fault .transportHang

/-- R27, R28, R227: while ready is 0 every legal command but begin is refused; while the fault latch is set every legal
command is refused. -/
def Obligations.RefusedUntilReadyAndAfterAFault : Prop :=
  ∀ (i : Instr) (s : State), isCommand i = true → i.wf = true →
    (s.ready = false → isBegin i = false → exec i s = .refused .notReady) ∧
    (s.fault.isSome = true → (s.ready = true ∨ isBegin i = true) → exec i s = .refused .faultLatched)

/-! ### The step and what the outside does -/

/-- A step runs the decoded instruction: a command word at the head of the inputs, with the event Cmd(w) added, or a frame
standing on the wire (R7, R24, R78). The wire slot is the model's (notes/assumptions/17.md). -/
def Obligations.StepRunsTheDecodedInstruction : Prop :=
  (∀ (s : State) (w : PortWord) (rest : List Input) (i : Instr),
    s.wire = none → s.inputs = .cmd w :: rest → decodeCmd w = .ok i →
    step s = exec i { s with inputs := rest, trace := s.trace ++ [.cmd w] }) ∧
  ∀ (s : State) (f : Frame) (i : Instr), s.wire = some f → decodeFrame f = .ok i →
    step s = exec i { s with wire := none }

/-- R250, R251: reset sets ready 0, fault none, seq 0 and no scope held; it emits nothing, takes no answer and does not reach
the peripheral or the parameters. -/
def Obligations.ResetClearsTheBlockOnly : Prop :=
  ∀ (s : State) (rest : List Input), s.wire = none → s.inputs = .reset :: rest →
    ∃ t, step s = .next t ∧ t.ready = false ∧ t.fault = none ∧ t.seq = 0 ∧ t.scope = false ∧ t.chip = s.chip ∧
      t.trace = s.trace ∧ t.env = s.env ∧ t.cfg = s.cfg ∧ t.inputs = rest ∧ t.wire = none

/-- R72, R251: the chip acting on its own changes registers of the Volatile set alone and a power-cycle of the chip changes
the chip alone, after which nothing is pending (R68 (b)); the block sees neither. -/
def Obligations.ChipActsBehindTheBlock : Prop :=
  ∀ (s : State) (rest : List Input), s.wire = none →
    (∀ drift, s.inputs = .chip drift :: rest →
      ∃ t, step s = .next t ∧ t = { s with inputs := rest, chip := t.chip } ∧ t.chip.pend = s.chip.pend ∧
        (∀ b, b ∉ s.cfg.volatile → t.chip.reg b = s.chip.reg b) ∧
        ∀ a v d, drift = d ++ [(a, v)] → a ∈ s.cfg.volatile → t.chip.reg a = v) ∧
    (s.inputs = .powerCycle :: rest → ∃ t, step s = .next t ∧ t = { s with inputs := rest, chip := t.chip } ∧ t.chip.pend = none)

/-- R68 (b): nothing is pending at the first exchange after a power-cycle of the chip, of a read-request or a write frame, so its
response carries the two draws of its answer, and no register's content. -/
def Obligations.FirstExchangeAfterPowerUpReturnsADraw : Prop :=
  ∀ (a : Addr) (v : Word) (s : State) (rest : List Input) (ans : Answer) (answers : List Answer),
    s.wire = none → s.inputs = .powerCycle :: rest → s.env = ans :: answers → ans.verdict = .completes →
    ∃ t u w rx, step s = .next t ∧ exec (.frameRd a) t = .next u ∧ exec (.frameWr a v) t = .next w ∧
      u.trace = s.trace ++ [.xchg (encRead (addrByte a)) rx] ∧
      w.trace = s.trace ++ [.xchg (encWrite (addrByte a) v) rx] ∧ rx.b0 = ans.status ∧ rx.data = ans.data

/-- R234, R250: with no frame on the wire and nothing presented the block is idle: a step changes nothing. The form of the
idle step is the model's (notes/assumptions/21.md). -/
def Obligations.IdleStepChangesNothing : Prop :=
  ∀ s : State, s.wire = none → s.inputs = [] → step s = .next s

/-! ### Whole-machine rules -/

/-- The invariant of the states between steps is kept by every step, from every state that meets it: PR in canonical form
with register numbers at most 0x7F (R60), seq 0 (R25), no scope held without a latched error (R41). -/
def Obligations.EveryStepKeepsTheInvariant : Prop :=
  ∀ s t : State, s.Inv → step s = .next t → t.Inv

/-- The invariant holds right after reset, and reset leaves ready 0, fault none, seq 0 and no scope held (R44). -/
def Obligations.ResetMeetsTheInvariant : Prop :=
  State.reset.Inv ∧ State.reset.ready = false ∧ State.reset.fault = none ∧ State.reset.seq = 0 ∧
    State.reset.scope = false ∧ State.reset.cfg.wf

/-- R21, R22, R23: no step changes the parameters; the cache changes only by a reset or a command word for begin, setVelocity or
setProfileField, never from the chip; the bus-handle register changes only by a reset or a command word for begin, which puts its
operand there. -/
def Obligations.CacheIsWrittenByThreeCommandsOnly : Prop :=
  ∀ s t : State, step s = .next t → t.cfg = s.cfg ∧
    (t.x ≠ s.x → ∃ rest, s.inputs = .reset :: rest ∨ ∃ w i, s.inputs = .cmd w :: rest ∧ decodeCmd w = .ok i ∧
      ((∃ cs, i = .beginBlock cs) ∨ (∃ v, i = .setVelocity v) ∨ ∃ k v, i = .setProfileField k v)) ∧
    (t.cs ≠ s.cs → ∃ rest, s.inputs = .reset :: rest ∨ ∃ w cs, s.inputs = .cmd w :: rest ∧
      decodeCmd w = .ok (.beginBlock cs) ∧ t.cs = cs)

/-- R27: ready is 0 after reset, becomes 1 when a begin ends ok, and while it is 0 every legal command other than begin is refused.
That nothing else makes it 1 and that only a reset makes it 0 again is the model's reading (DEDUCED, notes/assumptions/32.md),
from R228's list of what an abnormal end changes. -/
def Obligations.ReadyRisesOnlyByBegin : Prop :=
  State.reset.ready = false ∧
  (∀ (cs : Byte) (s t : State), exec (.beginBlock cs) s = .next t → t.fault = none → t.ready = true) ∧
  (∀ s t : State, step s = .next t →
    (s.ready = false → t.ready = true → t.fault = none ∧ ∃ w rest cs, s.inputs = .cmd w :: rest ∧
      decodeCmd w = .ok (.beginBlock cs)) ∧
    (s.ready = true → t.ready = false → ∃ rest, s.inputs = .reset :: rest) ∧
    ∀ rest, s.wire = none → s.inputs = .reset :: rest → t.ready = false) ∧
  ∀ (i : Instr) (s : State), isCommand i = true → i.wf = true → isBegin i = false → s.ready = false →
    exec i s = .refused .notReady

/-- R28: the latch is none after reset; an instruction that reports the error e leaves it holding e; nothing but a reset clears
it; while it is set no command runs. -/
def Obligations.OnlyResetClearsTheFaultLatch : Prop :=
  State.reset.fault = none ∧
  (∀ (i : Instr) (s t : State) (evs : List Event) (e : TErr), exec i s = .next t → t.trace = s.trace ++ evs →
    Event.err e ∈ evs → t.fault = some e) ∧
  (∀ s t : State, step s = .next t → s.fault.isSome = true → t.fault = none → ∃ rest, s.inputs = .reset :: rest) ∧
  ∀ (i : Instr) (s : State), isCommand i = true → i.wf = true → s.fault.isSome = true →
    exec i s = .refused .notReady ∨ exec i s = .refused .faultLatched

/-- R72, R222: a register outside the Volatile set changes only by a write frame addressed to it: if an instruction changes
register b, its events hold an exchange of EncWrite(b, v), or it ended in an error at the write frame EncWrite(b, v), which had
landed, and b holds v. The frame that failed leaves no event; it is read off the run in which it completes. -/
def Obligations.RegistersChangeOnlyByWriteFrames : Prop :=
  ∀ (i : Instr) (s t : State) (b : Addr), exec i s = .next t → b ∉ s.cfg.volatile → t.chip.reg b ≠ s.chip.reg b →
    (∃ evs v rx, t.trace = s.trace ++ evs ∧ Event.xchg (encWrite (addrByte b) v) rx ∈ evs) ∨
    ∃ k ans e latch release u pre post v rx,
      s.env[k]? = some ans ∧ ans.verdict = .fails e true latch release ∧ t.fault = some e ∧ pre.length = k ∧
      s.trace ++ pre ++ [.err e] <+: t.trace ∧ exec i (s.completing k ans) = .next u ∧
      u.trace = s.trace ++ pre ++ .xchg (encWrite (addrByte b) v) rx :: post ∧ t.chip.reg b = v

/-- R225, R26: the status byte is never interpreted: two runs whose answers differ in status bytes alone end with the same block
and peripheral state and the same frames sent, and with the same responses, but for a `read` that ends ok, whose two responses
carry the same value and each the status byte of its own fetch exchange. -/
def Obligations.StatusBytesAreNeverInterpreted : Prop :=
  ∀ (i : Instr) (s t : State) (env : List Answer),
    List.Forall₂ (fun a b => a.drift = b.drift ∧ a.data = b.data ∧ a.verdict = b.verdict) s.env env →
    exec i s = .next t →
    ∃ u, exec i { s with env := env } = .next u ∧ u.x = t.x ∧ u.cs = t.cs ∧ u.ready = t.ready ∧ u.fault = t.fault ∧
      u.seq = t.seq ∧ u.scope = t.scope ∧ u.chip = t.chip ∧ u.draws = t.draws ∧
      (exchanges u.trace).map Prod.fst = (exchanges t.trace).map Prod.fst ∧
      ((∀ a, i ≠ .read a) ∨ t.fault ≠ none ∨ s.env[2]? = none → responses u.trace = responses t.trace) ∧
      ∀ a ans ans', i = .read a → t.fault = none → s.env[2]? = some ans → env[2]? = some ans' →
        ∃ v, responses t.trace = responses s.trace ++ [cmdWord 0x02 ans.status v] ∧
          responses u.trace = responses s.trace ++ [cmdWord 0x02 ans'.status v]

/-- R75, R274, R92: the events of a command that reports no error are whole logical transactions, each in its own scope (one
write frame, or one read-request frame twice), behind begin's setup and before the one response; the numbers of scopes and
exchanges are those of R274. -/
def Obligations.CommandsAreWholeTransactions : Prop :=
  ∀ (i : Instr) (s t : State), isCommand i = true → i.wf = true → exec i s = .next t → t.fault = none →
    ∃ pre evs r, t.trace = s.trace ++ pre ++ evs ++ [.resp r] ∧
      ((isBegin i = false ∧ pre = []) ∨ ∃ cs, i = .beginBlock cs ∧ pre = [.setup cs]) ∧
      transactions evs = true ∧ acquires evs = scopeCount i ∧ (exchanges evs).length = exchangeCount i

/-- R275: every instruction performs at most its own number of primitives, at most 28 (one setup and nine times acquire,
exchange, release for begin), whether it ends ok or in an error; and an accepted command ends, provided each of its primitives
ends. -/
def Obligations.CommandsPerformAtMost28Primitives : Prop :=
  (∀ (i : Instr) (s t : State), exec i s = .next t →
    t.draws ≤ s.draws + primitiveCount i ∧ t.env = s.env.drop (t.draws - s.draws)) ∧
  (∀ i : Instr, primitiveCount i ≤ 28) ∧ (∀ cs, primitiveCount (.beginBlock cs) = 1 + 9 * 3) ∧
  ∀ (i : Instr) (s : State), s.Accepts i → (∀ ans ∈ s.env.take (primitiveCount i), ans.verdict ≠ .hangs) →
    ∃ t, exec i s = .next t

/-- R109, R92, R91: every frame an instruction sends is a write frame or a read-request frame with a zero payload, with an
address of at most 0x7F. -/
def Obligations.FramesSentAreWritesOrZeroReads : Prop :=
  ∀ (i : Instr) (s t : State), exec i s = .next t →
    ∃ evs, t.trace = s.trace ++ evs ∧ ∀ tx rx, Event.xchg tx rx ∈ evs →
      (∃ (a : Addr) (v : Word), tx = encWrite (addrByte a) v) ∨ ∃ a : Addr, tx = encRead (addrByte a)

/-- R82 (D29): no step puts a frame on the wire from outside a command, so frames reach the peripheral by the block's own
exchanges alone. -/
def Obligations.NoOtherBusMaster : Prop :=
  ∀ s t : State, step s = .next t → t.wire = none

/-! ### Assembler -/

/-- R104: setCurrentLimits with the third operand omitted assembles with holdDelay = 7, exactly as with the operand 7. -/
def Obligations.OmittedHoldDelayAssemblesAsSeven : Prop :=
  ∀ (p : Params) (hold run : Nat), hold < 65536 → run < 65536 →
    assemble p .setCurrentLimits [.amps hold, .amps run] =
      some (.setCurrentLimits 7 (BitVec.ofNat 16 hold) (BitVec.ofNat 16 run)) ∧
    assemble p .setCurrentLimits [.amps hold, .amps run, .int 7] =
      assemble p .setCurrentLimits [.amps hold, .amps run]
end

