-- ==== Sys2Proof/Laws/State.lean ====
section
/-! SUPPORT. One lemma per field per update of State and of Chip, so that no later proof unfolds a record update. -/

namespace Sys2Proof.Machine

/-! ### emit -/

@[simp] theorem emit_cfg (e : Event) (s : State) : (emit e s).cfg = s.cfg := rfl
@[simp] theorem emit_x (e : Event) (s : State) : (emit e s).x = s.x := rfl
@[simp] theorem emit_cs (e : Event) (s : State) : (emit e s).cs = s.cs := rfl
@[simp] theorem emit_ready (e : Event) (s : State) : (emit e s).ready = s.ready := rfl
@[simp] theorem emit_fault (e : Event) (s : State) : (emit e s).fault = s.fault := rfl
@[simp] theorem emit_seq (e : Event) (s : State) : (emit e s).seq = s.seq := rfl
@[simp] theorem emit_scope (e : Event) (s : State) : (emit e s).scope = s.scope := rfl
@[simp] theorem emit_chip (e : Event) (s : State) : (emit e s).chip = s.chip := rfl
@[simp] theorem emit_wire (e : Event) (s : State) : (emit e s).wire = s.wire := rfl
@[simp] theorem emit_inputs (e : Event) (s : State) : (emit e s).inputs = s.inputs := rfl
@[simp] theorem emit_env (e : Event) (s : State) : (emit e s).env = s.env := rfl
@[simp] theorem emit_draws (e : Event) (s : State) : (emit e s).draws = s.draws := rfl
@[simp] theorem emit_trace (e : Event) (s : State) : (emit e s).trace = s.trace ++ [e] := rfl

/-! ### respond -/

@[simp] theorem respond_cfg (r : Response) (s : State) : (respond r s).cfg = s.cfg := rfl
@[simp] theorem respond_x (r : Response) (s : State) : (respond r s).x = s.x := rfl
@[simp] theorem respond_cs (r : Response) (s : State) : (respond r s).cs = s.cs := rfl
@[simp] theorem respond_ready (r : Response) (s : State) : (respond r s).ready = s.ready := rfl
@[simp] theorem respond_fault (r : Response) (s : State) : (respond r s).fault = s.fault := rfl
@[simp] theorem respond_seq (r : Response) (s : State) : (respond r s).seq = 0 := rfl
@[simp] theorem respond_scope (r : Response) (s : State) : (respond r s).scope = s.scope := rfl
@[simp] theorem respond_chip (r : Response) (s : State) : (respond r s).chip = s.chip := rfl
@[simp] theorem respond_wire (r : Response) (s : State) : (respond r s).wire = s.wire := rfl
@[simp] theorem respond_inputs (r : Response) (s : State) : (respond r s).inputs = s.inputs := rfl
@[simp] theorem respond_env (r : Response) (s : State) : (respond r s).env = s.env := rfl
@[simp] theorem respond_draws (r : Response) (s : State) : (respond r s).draws = s.draws := rfl
@[simp] theorem respond_trace (r : Response) (s : State) : (respond r s).trace = s.trace ++ [.resp (encodeResponse r)] := rfl

/-! ### takeIllegal -/

@[simp] theorem takeIllegal_cfg  (s : State) : (takeIllegal s).cfg = s.cfg := rfl
@[simp] theorem takeIllegal_x  (s : State) : (takeIllegal s).x = s.x := rfl
@[simp] theorem takeIllegal_cs  (s : State) : (takeIllegal s).cs = s.cs := rfl
@[simp] theorem takeIllegal_ready  (s : State) : (takeIllegal s).ready = s.ready := rfl
@[simp] theorem takeIllegal_fault  (s : State) : (takeIllegal s).fault = s.fault := rfl
@[simp] theorem takeIllegal_seq  (s : State) : (takeIllegal s).seq = 0 := rfl
@[simp] theorem takeIllegal_scope  (s : State) : (takeIllegal s).scope = s.scope := rfl
@[simp] theorem takeIllegal_chip  (s : State) : (takeIllegal s).chip = s.chip := rfl
@[simp] theorem takeIllegal_wire  (s : State) : (takeIllegal s).wire = s.wire := rfl
@[simp] theorem takeIllegal_inputs  (s : State) : (takeIllegal s).inputs = s.inputs := rfl
@[simp] theorem takeIllegal_env  (s : State) : (takeIllegal s).env = s.env := rfl
@[simp] theorem takeIllegal_draws  (s : State) : (takeIllegal s).draws = s.draws := rfl
@[simp] theorem takeIllegal_trace  (s : State) : (takeIllegal s).trace = s.trace ++ [.resp (encodeResponse .illegal)] := rfl

/-! ### completed -/

@[simp] theorem completed_cfg (e : Event) (s : State) : (completed e s).cfg = s.cfg := rfl
@[simp] theorem completed_x (e : Event) (s : State) : (completed e s).x = s.x := rfl
@[simp] theorem completed_cs (e : Event) (s : State) : (completed e s).cs = s.cs := rfl
@[simp] theorem completed_ready (e : Event) (s : State) : (completed e s).ready = s.ready := rfl
@[simp] theorem completed_fault (e : Event) (s : State) : (completed e s).fault = s.fault := rfl
@[simp] theorem completed_seq (e : Event) (s : State) : (completed e s).seq = s.seq + 1 := rfl
@[simp] theorem completed_scope (e : Event) (s : State) : (completed e s).scope = s.scope := rfl
@[simp] theorem completed_chip (e : Event) (s : State) : (completed e s).chip = s.chip := rfl
@[simp] theorem completed_wire (e : Event) (s : State) : (completed e s).wire = s.wire := rfl
@[simp] theorem completed_inputs (e : Event) (s : State) : (completed e s).inputs = s.inputs := rfl
@[simp] theorem completed_env (e : Event) (s : State) : (completed e s).env = s.env := rfl
@[simp] theorem completed_draws (e : Event) (s : State) : (completed e s).draws = s.draws := rfl
@[simp] theorem completed_trace (e : Event) (s : State) : (completed e s).trace = s.trace ++ [e] := rfl

/-! ### takeAnswer -/

@[simp] theorem takeAnswer_cfg  (s : State) : (takeAnswer s).cfg = s.cfg := rfl
@[simp] theorem takeAnswer_x  (s : State) : (takeAnswer s).x = s.x := rfl
@[simp] theorem takeAnswer_cs  (s : State) : (takeAnswer s).cs = s.cs := rfl
@[simp] theorem takeAnswer_ready  (s : State) : (takeAnswer s).ready = s.ready := rfl
@[simp] theorem takeAnswer_fault  (s : State) : (takeAnswer s).fault = s.fault := rfl
@[simp] theorem takeAnswer_seq  (s : State) : (takeAnswer s).seq = s.seq := rfl
@[simp] theorem takeAnswer_scope  (s : State) : (takeAnswer s).scope = s.scope := rfl
@[simp] theorem takeAnswer_chip  (s : State) : (takeAnswer s).chip = s.chip.drift s.cfg.volatile (nextAnswer s).drift := rfl
@[simp] theorem takeAnswer_wire  (s : State) : (takeAnswer s).wire = s.wire := rfl
@[simp] theorem takeAnswer_inputs  (s : State) : (takeAnswer s).inputs = s.inputs := rfl
@[simp] theorem takeAnswer_env  (s : State) : (takeAnswer s).env = s.env.tail := rfl
@[simp] theorem takeAnswer_draws  (s : State) : (takeAnswer s).draws = s.draws + 1 := rfl
@[simp] theorem takeAnswer_trace  (s : State) : (takeAnswer s).trace = s.trace := rfl

/-! ### presented -/

@[simp] theorem presented_cfg (w : PortWord) (s : State) : (presented w s).cfg = s.cfg := rfl
@[simp] theorem presented_x (w : PortWord) (s : State) : (presented w s).x = s.x := rfl
@[simp] theorem presented_cs (w : PortWord) (s : State) : (presented w s).cs = s.cs := rfl
@[simp] theorem presented_ready (w : PortWord) (s : State) : (presented w s).ready = s.ready := rfl
@[simp] theorem presented_fault (w : PortWord) (s : State) : (presented w s).fault = s.fault := rfl
@[simp] theorem presented_seq (w : PortWord) (s : State) : (presented w s).seq = s.seq := rfl
@[simp] theorem presented_scope (w : PortWord) (s : State) : (presented w s).scope = s.scope := rfl
@[simp] theorem presented_chip (w : PortWord) (s : State) : (presented w s).chip = s.chip := rfl
@[simp] theorem presented_wire (w : PortWord) (s : State) : (presented w s).wire = s.wire := rfl
@[simp] theorem presented_inputs (w : PortWord) (s : State) : (presented w s).inputs = s.inputs := rfl
@[simp] theorem presented_env (w : PortWord) (s : State) : (presented w s).env = s.env := rfl
@[simp] theorem presented_draws (w : PortWord) (s : State) : (presented w s).draws = s.draws := rfl
@[simp] theorem presented_trace (w : PortWord) (s : State) : (presented w s).trace = s.trace ++ [.cmd w] := rfl

/-! ### resetBlock -/

@[simp] theorem resetBlock_cfg  (s : State) : (resetBlock s).cfg = s.cfg := rfl
@[simp] theorem resetBlock_x  (s : State) : (resetBlock s).x = Vector.ofFn (Config.resetProfile (s.draws + 1)) := rfl
@[simp] theorem resetBlock_cs  (s : State) : (resetBlock s).cs = Config.resetHandle (s.draws + 1) := rfl
@[simp] theorem resetBlock_ready  (s : State) : (resetBlock s).ready = false := rfl
@[simp] theorem resetBlock_fault  (s : State) : (resetBlock s).fault = none := rfl
@[simp] theorem resetBlock_seq  (s : State) : (resetBlock s).seq = 0 := rfl
@[simp] theorem resetBlock_scope  (s : State) : (resetBlock s).scope = false := rfl
@[simp] theorem resetBlock_chip  (s : State) : (resetBlock s).chip = s.chip := rfl
@[simp] theorem resetBlock_wire  (s : State) : (resetBlock s).wire = s.wire := rfl
@[simp] theorem resetBlock_inputs  (s : State) : (resetBlock s).inputs = s.inputs := rfl
@[simp] theorem resetBlock_env  (s : State) : (resetBlock s).env = s.env := rfl
@[simp] theorem resetBlock_draws  (s : State) : (resetBlock s).draws = s.draws + 1 := rfl
@[simp] theorem resetBlock_trace  (s : State) : (resetBlock s).trace = s.trace := rfl

/-! ### chipActs -/

@[simp] theorem chipActs_cfg (d : List (Addr × Word)) (s : State) : (chipActs d s).cfg = s.cfg := rfl
@[simp] theorem chipActs_x (d : List (Addr × Word)) (s : State) : (chipActs d s).x = s.x := rfl
@[simp] theorem chipActs_cs (d : List (Addr × Word)) (s : State) : (chipActs d s).cs = s.cs := rfl
@[simp] theorem chipActs_ready (d : List (Addr × Word)) (s : State) : (chipActs d s).ready = s.ready := rfl
@[simp] theorem chipActs_fault (d : List (Addr × Word)) (s : State) : (chipActs d s).fault = s.fault := rfl
@[simp] theorem chipActs_seq (d : List (Addr × Word)) (s : State) : (chipActs d s).seq = s.seq := rfl
@[simp] theorem chipActs_scope (d : List (Addr × Word)) (s : State) : (chipActs d s).scope = s.scope := rfl
@[simp] theorem chipActs_chip (d : List (Addr × Word)) (s : State) : (chipActs d s).chip = s.chip.drift s.cfg.volatile d := rfl
@[simp] theorem chipActs_wire (d : List (Addr × Word)) (s : State) : (chipActs d s).wire = s.wire := rfl
@[simp] theorem chipActs_inputs (d : List (Addr × Word)) (s : State) : (chipActs d s).inputs = s.inputs := rfl
@[simp] theorem chipActs_env (d : List (Addr × Word)) (s : State) : (chipActs d s).env = s.env := rfl
@[simp] theorem chipActs_draws (d : List (Addr × Word)) (s : State) : (chipActs d s).draws = s.draws := rfl
@[simp] theorem chipActs_trace (d : List (Addr × Word)) (s : State) : (chipActs d s).trace = s.trace := rfl

/-! ### powerCycle -/

@[simp] theorem powerCycle_cfg  (s : State) : (powerCycle s).cfg = s.cfg := rfl
@[simp] theorem powerCycle_x  (s : State) : (powerCycle s).x = s.x := rfl
@[simp] theorem powerCycle_cs  (s : State) : (powerCycle s).cs = s.cs := rfl
@[simp] theorem powerCycle_ready  (s : State) : (powerCycle s).ready = s.ready := rfl
@[simp] theorem powerCycle_fault  (s : State) : (powerCycle s).fault = s.fault := rfl
@[simp] theorem powerCycle_seq  (s : State) : (powerCycle s).seq = s.seq := rfl
@[simp] theorem powerCycle_scope  (s : State) : (powerCycle s).scope = s.scope := rfl
@[simp] theorem powerCycle_chip  (s : State) : (powerCycle s).chip = { mem := [], pend := none, epoch := s.chip.epoch + 1 } := rfl
@[simp] theorem powerCycle_wire  (s : State) : (powerCycle s).wire = s.wire := rfl
@[simp] theorem powerCycle_inputs  (s : State) : (powerCycle s).inputs = s.inputs := rfl
@[simp] theorem powerCycle_env  (s : State) : (powerCycle s).env = s.env := rfl
@[simp] theorem powerCycle_draws  (s : State) : (powerCycle s).draws = s.draws := rfl
@[simp] theorem powerCycle_trace  (s : State) : (powerCycle s).trace = s.trace := rfl

/-! ### placeFrame -/

@[simp] theorem placeFrame_cfg (w : PortWord) (s : State) : (placeFrame w s).cfg = s.cfg := rfl
@[simp] theorem placeFrame_x (w : PortWord) (s : State) : (placeFrame w s).x = s.x := rfl
@[simp] theorem placeFrame_cs (w : PortWord) (s : State) : (placeFrame w s).cs = s.cs := rfl
@[simp] theorem placeFrame_ready (w : PortWord) (s : State) : (placeFrame w s).ready = s.ready := rfl
@[simp] theorem placeFrame_fault (w : PortWord) (s : State) : (placeFrame w s).fault = s.fault := rfl
@[simp] theorem placeFrame_seq (w : PortWord) (s : State) : (placeFrame w s).seq = s.seq := rfl
@[simp] theorem placeFrame_scope (w : PortWord) (s : State) : (placeFrame w s).scope = s.scope := rfl
@[simp] theorem placeFrame_chip (w : PortWord) (s : State) : (placeFrame w s).chip = s.chip := rfl
@[simp] theorem placeFrame_wire (w : PortWord) (s : State) : (placeFrame w s).wire = some (Frame.ofBits (w.extractLsb' 0 40)) := rfl
@[simp] theorem placeFrame_inputs (w : PortWord) (s : State) : (placeFrame w s).inputs = s.inputs := rfl
@[simp] theorem placeFrame_env (w : PortWord) (s : State) : (placeFrame w s).env = s.env := rfl
@[simp] theorem placeFrame_draws (w : PortWord) (s : State) : (placeFrame w s).draws = s.draws := rfl
@[simp] theorem placeFrame_trace (w : PortWord) (s : State) : (placeFrame w s).trace = s.trace := rfl

/-! ### placeCommand -/

@[simp] theorem placeCommand_cfg (w : PortWord) (s : State) : (placeCommand w s).cfg = s.cfg := rfl
@[simp] theorem placeCommand_x (w : PortWord) (s : State) : (placeCommand w s).x = s.x := rfl
@[simp] theorem placeCommand_cs (w : PortWord) (s : State) : (placeCommand w s).cs = s.cs := rfl
@[simp] theorem placeCommand_ready (w : PortWord) (s : State) : (placeCommand w s).ready = (s.ready || opField w ≠ 0x01) := rfl
@[simp] theorem placeCommand_fault (w : PortWord) (s : State) : (placeCommand w s).fault = none := rfl
@[simp] theorem placeCommand_seq (w : PortWord) (s : State) : (placeCommand w s).seq = s.seq := rfl
@[simp] theorem placeCommand_scope (w : PortWord) (s : State) : (placeCommand w s).scope = s.scope := rfl
@[simp] theorem placeCommand_chip (w : PortWord) (s : State) : (placeCommand w s).chip = s.chip := rfl
@[simp] theorem placeCommand_wire (w : PortWord) (s : State) : (placeCommand w s).wire = none := rfl
@[simp] theorem placeCommand_inputs (w : PortWord) (s : State) : (placeCommand w s).inputs = .cmd w :: s.inputs := rfl
@[simp] theorem placeCommand_env (w : PortWord) (s : State) : (placeCommand w s).env = s.env := rfl
@[simp] theorem placeCommand_draws (w : PortWord) (s : State) : (placeCommand w s).draws = s.draws := rfl
@[simp] theorem placeCommand_trace (w : PortWord) (s : State) : (placeCommand w s).trace = s.trace := rfl

/-! ### takeTransportError -/

@[simp] theorem takeTransportError_cfg (e : TErr) (r : Bool) (s : State) :
    (takeTransportError e r s).cfg = s.cfg := by
  unfold takeTransportError releaseOnError emit; split <;> rfl
@[simp] theorem takeTransportError_x (e : TErr) (r : Bool) (s : State) :
    (takeTransportError e r s).x = s.x := by
  unfold takeTransportError releaseOnError emit; split <;> rfl
@[simp] theorem takeTransportError_cs (e : TErr) (r : Bool) (s : State) :
    (takeTransportError e r s).cs = s.cs := by
  unfold takeTransportError releaseOnError emit; split <;> rfl
@[simp] theorem takeTransportError_ready (e : TErr) (r : Bool) (s : State) :
    (takeTransportError e r s).ready = s.ready := by
  unfold takeTransportError releaseOnError emit; split <;> rfl
@[simp] theorem takeTransportError_fault (e : TErr) (r : Bool) (s : State) :
    (takeTransportError e r s).fault = some e := by
  unfold takeTransportError releaseOnError emit; split <;> rfl
@[simp] theorem takeTransportError_seq (e : TErr) (r : Bool) (s : State) :
    (takeTransportError e r s).seq = 0 := by
  unfold takeTransportError releaseOnError emit; split <;> rfl
@[simp] theorem takeTransportError_chip (e : TErr) (r : Bool) (s : State) :
    (takeTransportError e r s).chip = s.chip := by
  unfold takeTransportError releaseOnError emit; split <;> rfl
@[simp] theorem takeTransportError_wire (e : TErr) (r : Bool) (s : State) :
    (takeTransportError e r s).wire = s.wire := by
  unfold takeTransportError releaseOnError emit; split <;> rfl
@[simp] theorem takeTransportError_inputs (e : TErr) (r : Bool) (s : State) :
    (takeTransportError e r s).inputs = s.inputs := by
  unfold takeTransportError releaseOnError emit; split <;> rfl
@[simp] theorem takeTransportError_env (e : TErr) (r : Bool) (s : State) :
    (takeTransportError e r s).env = s.env := by
  unfold takeTransportError releaseOnError emit; split <;> rfl
@[simp] theorem takeTransportError_draws (e : TErr) (r : Bool) (s : State) :
    (takeTransportError e r s).draws = s.draws := by
  unfold takeTransportError releaseOnError emit; split <;> rfl
@[simp] theorem takeTransportError_scope (e : TErr) (r : Bool) (s : State) :
    (takeTransportError e r s).scope = (s.scope && !r) := by
  unfold takeTransportError releaseOnError emit
  cases h : s.scope <;> cases r <;> simp
@[simp] theorem takeTransportError_trace (e : TErr) (r : Bool) (s : State) :
    (takeTransportError e r s).trace = s.trace ++ (if s.scope && r then [.err e, .rel] else [.err e]) := by
  unfold takeTransportError releaseOnError emit
  cases h : s.scope <;> cases r <;> simp

/-! ### Chip -/

@[simp] theorem setReg_pend (c : Chip) (a : Addr) (v : Word) : (c.setReg a v).pend = c.pend := rfl
@[simp] theorem setReg_epoch (c : Chip) (a : Addr) (v : Word) : (c.setReg a v).epoch = c.epoch := rfl
theorem setReg_mem (c : Chip) (a : Addr) (v : Word) : (c.setReg a v).mem = c.mem.store a.toNat v := rfl
@[simp] theorem take_epoch (c : Chip) (tx : Frame) : (c.take tx).epoch = c.epoch := by
  unfold Chip.take; split <;> rfl
@[simp] theorem takeFailed_epoch (c : Chip) (tx : Frame) (l : Bool) (p : Option Addr) :
    (c.takeFailed tx l p).epoch = c.epoch := by
  unfold Chip.takeFailed; split <;> rfl
@[simp] theorem loseLatch_mem (c : Chip) (p : Option Addr) : (c.loseLatch p).mem = c.mem := rfl
@[simp] theorem loseLatch_pend (c : Chip) (p : Option Addr) : (c.loseLatch p).pend = p := rfl
@[simp] theorem loseLatch_epoch (c : Chip) (p : Option Addr) : (c.loseLatch p).epoch = c.epoch := rfl
@[simp] theorem loseLatch_reg (c : Chip) (p : Option Addr) (b : Addr) : (c.loseLatch p).reg b = c.reg b := rfl
@[simp] theorem takeFailed_pend (c : Chip) (tx : Frame) (l : Bool) (p : Option Addr) :
    (c.takeFailed tx l p).pend = p := rfl

end Sys2Proof.Machine
end

