-- ==== Sys2Proof/Laws/Memory.lean ====
section
/-! SUPPORT. The peripheral's registers: read after write, the canonical form, the chip's drift, the exchange. -/

namespace Sys2Proof.Machine

/-! ### The list -/

theorem find_store_same (m : Memory) (a : Nat) (v : Word) : (m.store a v).find a = some v := by
  induction m with
  | nil => simp [Memory.store, Memory.find]
  | cons h rest ih =>
    obtain ⟨b, w⟩ := h
    simp only [Memory.store]
    split
    · simp [Memory.find]
    · split
      · simp [Memory.find]
      · simp_all [Memory.find]

theorem find_store_other (m : Memory) {a b : Nat} (v : Word) (h : b ≠ a) : (m.store a v).find b = m.find b := by
  induction m with
  | nil => simp [Memory.store, Memory.find, h]
  | cons hd rest ih =>
    obtain ⟨c, w⟩ := hd
    simp only [Memory.store]
    split
    · simp [Memory.find, h]
    · split
      · rename_i hac
        subst hac
        simp [Memory.find, h]
      · simp only [Memory.find, ih]

/-- Every number listed is at least `n`: the form store's induction needs. -/
theorem wf_cons_cons (a b : Nat) (v w : Word) (rest : Memory) :
    Memory.wf ((a, v) :: (b, w) :: rest) = true ↔ a < b ∧ Memory.wf ((b, w) :: rest) = true := by
  simp [Memory.wf]

theorem wf_replace {a : Nat} {v w : Word} {rest : Memory} (h : Memory.wf ((a, v) :: rest) = true) :
    Memory.wf ((a, w) :: rest) = true := by
  cases rest with
  | nil => simpa [Memory.wf] using h
  | cons hd tl => obtain ⟨b, u⟩ := hd; simpa [Memory.wf] using h

theorem wf_store (m : Memory) {a : Nat} (v : Word) (ha : a < 128) (h : m.wf = true) : (m.store a v).wf = true := by
  induction m with
  | nil => simpa [Memory.store, Memory.wf] using ha
  | cons hd rest ih =>
    obtain ⟨b, w⟩ := hd
    simp only [Memory.store]
    split
    · rename_i hab; simp [wf_cons_cons, hab, h]
    · split
      · rename_i hab; subst hab; exact wf_replace h
      · rename_i hlt hne
        cases rest with
        | nil => simp only [Memory.store, wf_cons_cons]; exact ⟨by omega, by simpa [Memory.wf] using ha⟩
        | cons hd2 tl =>
          obtain ⟨c, u⟩ := hd2
          obtain ⟨hbc, hrest⟩ := (wf_cons_cons ..).1 h
          have ihh := ih hrest
          revert ihh
          simp only [Memory.store]
          split
          · intro ihh; rw [wf_cons_cons]; exact ⟨by omega, ihh⟩
          · split
            · intro ihh; rw [wf_cons_cons]; exact ⟨by omega, ihh⟩
            · intro ihh; rw [wf_cons_cons]; exact ⟨hbc, ihh⟩

/-! ### The chip's registers -/

theorem reg_setReg_same (c : Chip) (a : Addr) (v : Word) : (c.setReg a v).reg a = v := by
  simp [Chip.reg, setReg_mem, find_store_same]

theorem reg_setReg_other (c : Chip) {a b : Addr} (v : Word) (h : b ≠ a) : (c.setReg a v).reg b = c.reg b := by
  have hn : b.toNat ≠ a.toNat := fun e => h (BitVec.eq_of_toNat_eq e)
  simp [Chip.reg, setReg_mem, find_store_other _ _ hn]

theorem reg_setReg (c : Chip) (a b : Addr) (v : Word) : (c.setReg a v).reg b = if b = a then v else c.reg b := by
  split
  · rename_i h; subst h; exact reg_setReg_same ..
  · rename_i h; exact reg_setReg_other _ _ h

theorem wf_setReg (c : Chip) (a : Addr) (v : Word) (h : c.mem.wf = true) : (c.setReg a v).mem.wf = true :=
  wf_store _ _ (by have := a.isLt; omega) h

theorem reg_pend (c : Chip) (p : Option Addr) (b : Addr) : ({ c with pend := p } : Chip).reg b = c.reg b := rfl

/-! ### The chip's drift (R72) -/

theorem drift_pend (vol : List Addr) (c : Chip) (d : List (Addr × Word)) : (c.drift vol d).pend = c.pend := by
  induction d generalizing c with
  | nil => rfl
  | cons m rest ih => obtain ⟨a, v⟩ := m; simp only [Chip.drift, ih]; split <;> rfl

theorem drift_epoch (vol : List Addr) (c : Chip) (d : List (Addr × Word)) : (c.drift vol d).epoch = c.epoch := by
  induction d generalizing c with
  | nil => rfl
  | cons m rest ih => obtain ⟨a, v⟩ := m; simp only [Chip.drift, ih]; split <;> rfl

theorem wf_drift (vol : List Addr) (c : Chip) (d : List (Addr × Word)) (h : c.mem.wf = true) :
    (c.drift vol d).mem.wf = true := by
  induction d generalizing c with
  | nil => exact h
  | cons m rest ih =>
    obtain ⟨a, v⟩ := m
    refine ih _ ?_
    split
    · exact wf_setReg _ _ _ h
    · exact h

/-- Registers outside the Volatile set are not changed by the chip agent. -/
theorem reg_drift_nonvolatile {vol : List Addr} (c : Chip) (d : List (Addr × Word)) {b : Addr} (h : b ∉ vol) :
    (c.drift vol d).reg b = c.reg b := by
  induction d generalizing c with
  | nil => rfl
  | cons m rest ih =>
    obtain ⟨a, v⟩ := m
    simp only [Chip.drift, ih]
    split
    · rename_i ha; exact reg_setReg_other _ _ (fun e => h (e ▸ ha))
    · rfl

/-- A register the drift does not name is not changed. -/
theorem reg_drift_unnamed {vol : List Addr} (c : Chip) (d : List (Addr × Word)) {b : Addr} (h : ∀ m ∈ d, m.1 ≠ b) :
    (c.drift vol d).reg b = c.reg b := by
  induction d generalizing c with
  | nil => rfl
  | cons m rest ih =>
    obtain ⟨a, v⟩ := m
    simp only [Chip.drift]
    rw [ih _ (fun m hm => h m (List.mem_cons_of_mem _ hm))]
    have hne : b ≠ a := fun e => h (a, v) (by simp) e.symm
    split
    · exact reg_setReg_other _ _ hne
    · rfl

/-! ### Frames on the peripheral (R67) -/

theorem wf_take (c : Chip) (tx : Frame) (h : c.mem.wf = true) : (c.take tx).mem.wf = true := by
  unfold Chip.take
  split
  · exact wf_setReg _ _ _ h
  · exact h

theorem wf_takeFailed (c : Chip) (tx : Frame) (l : Bool) (p : Option Addr) (h : c.mem.wf = true) :
    (c.takeFailed tx l p).mem.wf = true := by
  unfold Chip.takeFailed
  split
  · exact wf_setReg _ _ _ h
  · exact h

/-- What a register holds after a frame: the frame's word if it is a write frame for the register. -/
theorem reg_take (c : Chip) (tx : Frame) (b : Addr) :
    (c.take tx).reg b = if tx.isWrite = true ∧ b = tx.addr then tx.data else c.reg b := by
  unfold Chip.take
  split
  · rw [reg_pend, reg_setReg]; simp [*]
  · rw [reg_pend]; simp [*]

/-- What a register holds after a failed frame: the frame's word if it is a write frame for the register that landed. -/
theorem reg_takeFailed (c : Chip) (tx : Frame) (l : Bool) (p : Option Addr) (b : Addr) :
    (c.takeFailed tx l p).reg b = if l = true ∧ tx.isWrite = true ∧ b = tx.addr then tx.data else c.reg b := by
  unfold Chip.takeFailed
  rw [reg_pend]
  cases l <;> cases tx.isWrite <;> simp [reg_setReg]

theorem wf_powerCycle (s : State) : (powerCycle s).chip.mem.wf = true := rfl

theorem wf_reset : State.reset.chip.mem.wf = true := rfl

end Sys2Proof.Machine
end

