-- ==== Sys2Proof/Laws/Codec.lean ====
section
/-! SUPPORT. The wire codec: what the frames the block sends are, bit by bit (spec/30_encoding.md R94). -/

namespace Sys2Proof

theorem data_frameOf (b0 : Byte) (v : Word) : (frameOf b0 v).data = v := by
  apply BitVec.eq_of_getLsbD_eq
  intro i hi
  simp only [frameOf, Frame.data, BitVec.getLsbD_append, BitVec.getLsbD_extractLsb']
  have : i < 8 ∨ (8 ≤ i ∧ i < 16) ∨ (16 ≤ i ∧ i < 24) ∨ (24 ≤ i ∧ i < 32) := by omega
  rcases this with h | h | h | h <;> simp [*] <;> grind

theorem b0_frameOf (b0 : Byte) (v : Word) : (frameOf b0 v).b0 = b0 := rfl

theorem isWrite_encWrite (a : Byte) (v : Word) : (encWrite a v).isWrite = true := by
  simp [encWrite, Frame.isWrite, frameOf]

theorem addr_encWrite (a : Addr) (v : Word) : (encWrite (addrByte a) v).addr = a := by
  simp only [encWrite, Frame.addr, frameOf, addrByte]
  revert a; decide

theorem data_encWrite (a : Byte) (v : Word) : (encWrite a v).data = v := data_frameOf _ _

theorem isWrite_encRead (a : Addr) : (encRead (addrByte a)).isWrite = false := by
  simp only [encRead, Frame.isWrite, frameOf, addrByte]
  revert a; decide

theorem addr_encRead (a : Addr) : (encRead (addrByte a)).addr = a := by
  simp only [encRead, Frame.addr, frameOf, addrByte]
  revert a; decide

theorem data_encRead (a : Byte) : (encRead a).data = 0 := data_frameOf _ _

namespace Machine

/-- What a write frame does to the peripheral (R67). -/
theorem take_encWrite (c : Chip) (a : Addr) (v : Word) :
    c.take (encWrite (addrByte a) v) = { c.setReg a v with pend := none } := by
  simp [Chip.take, isWrite_encWrite, addr_encWrite, data_encWrite]

/-- What a read-request frame does to the peripheral (R67). -/
theorem take_encRead (c : Chip) (a : Addr) : c.take (encRead (addrByte a)) = { c with pend := some a } := by
  simp [Chip.take, isWrite_encRead, addr_encRead]

/-- The status byte of a response is the answer's (R67). -/
theorem response_b0 (p : Config.Params) (c : Chip) (ans : Answer) : (response p c ans).b0 = ans.status := rfl

/-- The data of a response are those the latch selects (R66, R67). -/
theorem response_data (p : Config.Params) (c : Chip) (ans : Answer) :
    (response p c ans).data = responseData p c ans.data := data_frameOf _ _

end Machine

end Sys2Proof
end

