-- ==== Sys2Proof/Laws/Ops.lean ====
section
/-! SUPPORT. What each shared operation can do, said once: how a sequence of primitives ends (`Attempt.Sat`), the two ends of
every primitive, and the frame that every sequence of primitives keeps (`Follows`). -/

namespace Sys2Proof.Machine

/-! ### How a sequence ends -/

/-- If the attempt ends with a result then `P` holds, and if it ends with an error then `Q` holds. -/
def Attempt.Sat {α : Type} (t : Attempt α) (P : α → State → Prop) (Q : TErr → State → Prop) : Prop :=
  match t with
  | .done r s => P r s
  | .failed e s => Q e s
  | .hung => True

theorem sat_andThen {α β : Type} {t : Attempt α} {k : α → State → Attempt β} {P : α → State → Prop}
    {P' : β → State → Prop} {Q : TErr → State → Prop} (h : t.Sat P Q) (hk : ∀ r s, P r s → (k r s).Sat P' Q) :
    (t.andThen k).Sat P' Q := by
  cases t with
  | done r s => exact hk r s h
  | failed e s => exact h
  | hung => trivial

theorem sat_mono {α : Type} {t : Attempt α} {P P' : α → State → Prop} {Q Q' : TErr → State → Prop} (h : t.Sat P Q)
    (hP : ∀ r s, P r s → P' r s) (hQ : ∀ e s, Q e s → Q' e s) : t.Sat P' Q' := by
  cases t with
  | done r s => exact hP r s h
  | failed e s => exact hQ e s h
  | hung => trivial

theorem sat_done {α : Type} {t : Attempt α} {P : α → State → Prop} {Q : TErr → State → Prop} (h : t.Sat P Q) {r : α}
    {s : State} (e : t = .done r s) : P r s := by subst e; exact h

theorem sat_failed {α : Type} {t : Attempt α} {P : α → State → Prop} {Q : TErr → State → Prop} (h : t.Sat P Q) {er : TErr}
    {s : State} (e : t = .failed er s) : Q er s := by subst e; exact h

theorem andThen_done {α β : Type} (r : α) (s : State) (k : α → State → Attempt β) :
    (Attempt.done r s).andThen k = k r s := rfl

theorem andThen_failed {α β : Type} (e : TErr) (s : State) (k : α → State → Attempt β) :
    (Attempt.failed e s).andThen k = .failed e s := rfl

theorem andThen_hung {α β : Type} (k : α → State → Attempt β) : (Attempt.hung : Attempt α).andThen k = .hung := rfl

/-! ### Primitives -/

/-- A primitive completes exactly as `complete` says, or its error is taken (R221, R222), or it hangs. -/
theorem primitive_completes {α : Type} {c : Answer → State → Attempt α} {sp : Bool → Option Addr → State → State}
    {s : State} (h : (nextAnswer s).verdict = .completes) : primitive c sp s = c (nextAnswer s) (takeAnswer s) := by
  simp [primitive, h]

theorem primitive_fails {α : Type} {c : Answer → State → Attempt α} {sp : Bool → Option Addr → State → State}
    {s : State} {e : TErr} {l : Bool} {p : Option Addr} {r : Bool} (h : (nextAnswer s).verdict = .fails e l p r) :
    primitive c sp s = .failed e (takeTransportError e r (sp l p (takeAnswer s))) := by
  simp [primitive, h]

theorem primitive_sat {α : Type} {c : Answer → State → Attempt α} {sp : Bool → Option Addr → State → State} {s : State}
    {P : α → State → Prop} {Q : TErr → State → Prop} (hc : (c (nextAnswer s) (takeAnswer s)).Sat P Q)
    (hf : ∀ e l p r, (nextAnswer s).verdict = .fails e l p r → Q e (takeTransportError e r (sp l p (takeAnswer s)))) :
    (primitive c sp s).Sat P Q := by
  unfold primitive
  split
  · exact hc
  · exact hf _ _ _ _ ‹_›
  · trivial

theorem busAcquire_sat (s : State) :
    (busAcquire s).Sat (fun _ t => t = completed .acq { takeAnswer s with scope := true })
      (fun e t => ∃ r, t = takeTransportError e r (takeAnswer s)) :=
  primitive_sat rfl fun _ _ _ r _ => ⟨r, rfl⟩

theorem busRelease_sat (s : State) :
    (busRelease s).Sat (fun _ t => t = completed .rel { takeAnswer s with scope := false })
      (fun e t => ∃ p r, t = takeTransportError e r { takeAnswer s with chip := (takeAnswer s).chip.loseLatch p }) :=
  primitive_sat rfl fun _ _ p r _ => ⟨p, r, rfl⟩

theorem platformSetup_sat (cs : Byte) (s : State) :
    (platformSetup cs s).Sat (fun _ t => t = completed (.setup cs) (takeAnswer s))
      (fun e t => ∃ p r, t = takeTransportError e r { takeAnswer s with chip := (takeAnswer s).chip.loseLatch p }) :=
  primitive_sat rfl fun _ _ p r _ => ⟨p, r, rfl⟩

/-- The state after a completed exchange, less the sequencer's count. -/
def exchanged (tx : Frame) (s : State) : State :=
  { takeAnswer s with
    chip := (takeAnswer s).chip.take tx
    trace := s.trace ++ [.xchg tx (response s.cfg (takeAnswer s).chip (nextAnswer s))] }

theorem wireExchange_sat (tx : Frame) (s : State) :
    (wireExchange tx s).Sat
      (fun rx t => rx = response s.cfg (takeAnswer s).chip (nextAnswer s) ∧ t = exchanged tx s)
      (fun e t => ∃ l p r, t = takeTransportError e r
        { takeAnswer s with chip := (takeAnswer s).chip.takeFailed tx l p }) :=
  primitive_sat ⟨rfl, rfl⟩ fun _ l p r _ => ⟨l, p, r, rfl⟩

theorem busExchange_sat (tx : Frame) (s : State) :
    (busExchange tx s).Sat
      (fun rx t => rx = response s.cfg (takeAnswer s).chip (nextAnswer s) ∧
        t = { exchanged tx s with seq := s.seq + 1 })
      (fun e t => ∃ l p r, t = takeTransportError e r
        { takeAnswer s with chip := (takeAnswer s).chip.takeFailed tx l p }) :=
  sat_andThen (wireExchange_sat tx s) fun rx t h => by obtain ⟨rfl, rfl⟩ := h; exact ⟨rfl, rfl⟩

/-! ### The frame of every sequence of primitives -/

/-- What holds between a state and a later one when only primitives ran between them: the block's registers other than
fault, seq and scope, the parameters and the boundary are unchanged; the canonical form of PR is kept; answers were taken
in order; events were only added. -/
structure Follows (s t : State) : Prop where
  cfg : t.cfg = s.cfg
  x : t.x = s.x
  cs : t.cs = s.cs
  ready : t.ready = s.ready
  wire : t.wire = s.wire
  inputs : t.inputs = s.inputs
  wf : s.chip.mem.wf = true → t.chip.mem.wf = true
  epoch : t.chip.epoch = s.chip.epoch
  draws : ∃ n, t.draws = s.draws + n ∧ t.env = s.env.drop n
  trace : ∃ evs, t.trace = s.trace ++ evs

theorem Follows.refl (s : State) : Follows s s :=
  ⟨rfl, rfl, rfl, rfl, rfl, rfl, id, rfl, ⟨0, rfl, rfl⟩, ⟨[], by simp⟩⟩

theorem Follows.trans {s t u : State} (h : Follows s t) (k : Follows t u) : Follows s u := by
  obtain ⟨n, hn, he⟩ := h.draws
  obtain ⟨m, hm, hf⟩ := k.draws
  obtain ⟨e1, h1⟩ := h.trace
  obtain ⟨e2, h2⟩ := k.trace
  exact ⟨k.cfg.trans h.cfg, k.x.trans h.x, k.cs.trans h.cs, k.ready.trans h.ready, k.wire.trans h.wire,
    k.inputs.trans h.inputs, k.wf ∘ h.wf, k.epoch.trans h.epoch,
    ⟨n + m, by omega, by rw [hf, he, List.drop_drop]⟩,
    ⟨e1 ++ e2, by rw [h2, h1, List.append_assoc]⟩⟩

theorem takeAnswer_follows (s : State) : Follows s (takeAnswer s) :=
  ⟨rfl, rfl, rfl, rfl, rfl, rfl, wf_drift _ _ _, drift_epoch _ _ _, ⟨1, rfl, by simp⟩, ⟨[], by simp⟩⟩

theorem chip_follows (s : State) (c : Chip) (hw : s.chip.mem.wf = true → c.mem.wf = true)
    (he : c.epoch = s.chip.epoch) : Follows s { s with chip := c } :=
  ⟨rfl, rfl, rfl, rfl, rfl, rfl, hw, he, ⟨0, rfl, rfl⟩, ⟨[], by simp⟩⟩

theorem takeTransportError_follows (e : TErr) (r : Bool) (s : State) : Follows s (takeTransportError e r s) :=
  ⟨by simp, by simp, by simp, by simp, by simp, by simp, by simp, by simp, ⟨0, by simp, by simp⟩, ⟨_, by simp; rfl⟩⟩

/-- The block state after an error: the error latched, seq 0 (R222). -/
abbrev Failed (e : TErr) (t : State) : Prop := t.fault = some e ∧ t.seq = 0

/-- A sequence keeps the frame; a completed one also keeps the fault latch, a failed one sets it. -/
abbrev Attempt.Framed {α : Type} (s : State) (t : Attempt α) : Prop :=
  t.Sat (fun _ u => Follows s u ∧ u.fault = s.fault) (fun e u => Follows s u ∧ Failed e u)

theorem framed_andThen {α β : Type} {s : State} {t : Attempt α} {k : α → State → Attempt β} (h : t.Framed s)
    (hk : ∀ r u, (k r u).Framed u) : (t.andThen k).Framed s :=
  sat_andThen h fun r u hu =>
    sat_mono (hk r u) (fun _ _ hv => ⟨hu.1.trans hv.1, hv.2.trans hu.2⟩) (fun _ _ hv => ⟨hu.1.trans hv.1, hv.2⟩)

theorem lostLatch_follows (p : Option Addr) (e : TErr) (r : Bool) (s : State) :
    Follows s (takeTransportError e r { takeAnswer s with chip := (takeAnswer s).chip.loseLatch p }) :=
  ((takeAnswer_follows s).trans (chip_follows _ ((takeAnswer s).chip.loseLatch p) id rfl)).trans (takeTransportError_follows ..)

theorem busAcquire_framed (s : State) : (busAcquire s).Framed s :=
  sat_mono (busAcquire_sat s)
    (fun _ t h => by
      subst h
      exact ⟨(takeAnswer_follows s).trans ⟨rfl, rfl, rfl, rfl, rfl, rfl, id, rfl, ⟨0, rfl, rfl⟩, ⟨_, rfl⟩⟩, rfl⟩)
    (fun _ t h => by
      obtain ⟨r, rfl⟩ := h
      exact ⟨(takeAnswer_follows s).trans (takeTransportError_follows ..), by simp, by simp⟩)

theorem busRelease_framed (s : State) : (busRelease s).Framed s :=
  sat_mono (busRelease_sat s)
    (fun _ t h => by
      subst h
      exact ⟨(takeAnswer_follows s).trans ⟨rfl, rfl, rfl, rfl, rfl, rfl, id, rfl, ⟨0, rfl, rfl⟩, ⟨_, rfl⟩⟩, rfl⟩)
    (fun _ t h => by
      obtain ⟨p, r, rfl⟩ := h
      exact ⟨lostLatch_follows .., by simp, by simp⟩)

theorem platformSetup_framed (cs : Byte) (s : State) : (platformSetup cs s).Framed s :=
  sat_mono (platformSetup_sat cs s)
    (fun _ t h => by
      subst h
      exact ⟨(takeAnswer_follows s).trans ⟨rfl, rfl, rfl, rfl, rfl, rfl, id, rfl, ⟨0, rfl, rfl⟩, ⟨_, rfl⟩⟩, rfl⟩)
    (fun _ t h => by
      obtain ⟨p, r, rfl⟩ := h
      exact ⟨lostLatch_follows .., by simp, by simp⟩)

theorem exchanged_follows (tx : Frame) (s : State) : Follows s (exchanged tx s) :=
  (takeAnswer_follows s).trans
    ⟨rfl, rfl, rfl, rfl, rfl, rfl, wf_take _ _, take_epoch _ _, ⟨0, rfl, rfl⟩, ⟨_, rfl⟩⟩

theorem spoiled_follows (tx : Frame) (l : Bool) (p : Option Addr) (e : TErr) (r : Bool) (s : State) :
    Follows s (takeTransportError e r { takeAnswer s with chip := (takeAnswer s).chip.takeFailed tx l p }) :=
  ((takeAnswer_follows s).trans (chip_follows _ _ (wf_takeFailed _ _ _ _) (takeFailed_epoch _ _ _ _))).trans
    (takeTransportError_follows ..)

theorem wireExchange_framed (tx : Frame) (s : State) : (wireExchange tx s).Framed s :=
  sat_mono (wireExchange_sat tx s)
    (fun _ t h => by obtain ⟨-, rfl⟩ := h; exact ⟨exchanged_follows tx s, rfl⟩)
    (fun e t h => by obtain ⟨l, p, r, rfl⟩ := h; exact ⟨spoiled_follows tx l p e r s, by simp, by simp⟩)

theorem busExchange_framed (tx : Frame) (s : State) : (busExchange tx s).Framed s :=
  framed_andThen (wireExchange_framed tx s) fun _ t =>
    ⟨⟨rfl, rfl, rfl, rfl, rfl, rfl, id, rfl, ⟨0, rfl, rfl⟩, ⟨[], by simp⟩⟩, rfl⟩

theorem memWrite_framed (a : Addr) (v : Word) (s : State) : (memWrite a v s).Framed s :=
  framed_andThen (busAcquire_framed s) fun _ s1 =>
  framed_andThen (busExchange_framed _ s1) fun _ s2 => busRelease_framed s2

theorem memRead_framed (a : Addr) (s : State) : (memRead a s).Framed s :=
  framed_andThen (busAcquire_framed s) fun _ s1 =>
  framed_andThen (busExchange_framed _ s1) fun _ s2 =>
  framed_andThen (busExchange_framed _ s2) fun _ s3 =>
  framed_andThen (busRelease_framed s3) fun _ s4 => ⟨Follows.refl s4, rfl⟩

theorem memWrites_framed (ws : List (Addr × Word)) (s : State) : (memWrites ws s).Framed s := by
  induction ws generalizing s with
  | nil => exact ⟨Follows.refl s, rfl⟩
  | cons w rest ih => exact framed_andThen (memWrite_framed w.1 w.2 s) fun _ s1 => ih s1

theorem editRegister_framed (a : Addr) (bit : Nat) (en : Bool) (s : State) : (editRegister a bit en s).Framed s :=
  framed_andThen (memRead_framed a s) fun r s1 => memWrite_framed a (editBit r.2 bit en) s1

/-! ### The bus scope -/

/-- A logical transaction that completes holds no scope at its end, whatever was held before (R41, R75). -/
theorem memWrite_scope (a : Addr) (v : Word) (s : State) : (memWrite a v s).Sat (fun _ t => t.scope = false) fun _ _ => True :=
  sat_andThen (sat_mono (busAcquire_sat s) (fun _ _ _ => trivial) fun _ _ _ => trivial) fun _ s1 (_ : True) =>
  sat_andThen (sat_mono (busExchange_sat _ s1) (fun _ _ _ => trivial) fun _ _ _ => trivial) fun _ s2 (_ : True) =>
  sat_mono (busRelease_sat s2) (fun _ _ h => by subst h; rfl) fun _ _ _ => trivial

theorem memRead_scope (a : Addr) (s : State) : (memRead a s).Sat (fun _ t => t.scope = false) fun _ _ => True :=
  sat_andThen (sat_mono (busAcquire_sat s) (fun _ _ _ => trivial) fun _ _ _ => trivial) fun _ s1 (_ : True) =>
  sat_andThen (sat_mono (busExchange_sat _ s1) (fun _ _ _ => trivial) fun _ _ _ => trivial) fun _ s2 (_ : True) =>
  sat_andThen (sat_mono (busExchange_sat _ s2) (fun _ _ _ => trivial) fun _ _ _ => trivial) fun _ s3 (_ : True) =>
  sat_andThen (sat_mono (busRelease_sat s3) (fun _ t (h : t = _) => show t.scope = false by subst h; rfl)
    fun _ _ _ => trivial) fun _ _ h => h

end Sys2Proof.Machine
end

