-- ==== Sys2Proof/Laws/Complete.lean ====
section
/-! SUPPORT. What a logical transaction does when its primitives complete: the run of primitives (`Ran`), the two
transactions, and the lists of writes. -/

namespace Sys2Proof.Machine

/-! ### The premises, one primitive at a time -/

theorem quiet_head {s : State} {k : Nat} (h : s.Quiet (k + 1)) : (nextAnswer s).verdict = .completes := by
  unfold nextAnswer
  cases he : s.env with
  | nil => rfl
  | cons a rest => exact h a (by simp [he])

theorem quiet_tail {s t : State} {k : Nat} (h : s.Quiet (k + 1)) (e : t.env = s.env.tail) : t.Quiet k := by
  intro ans ha
  rw [e] at ha
  cases he : s.env with
  | nil => simp [he] at ha
  | cons a rest => exact h ans (by rw [he, List.take_succ_cons]; exact List.mem_cons_of_mem _ (by simpa [he] using ha))

theorem quiet_drop {s t : State} {j k : Nat} (h : s.Quiet (j + k)) (e : t.env = s.env.drop j) : t.Quiet k := by
  intro ans ha
  refine h ans ?_
  rw [e, List.take_drop] at ha
  exact List.mem_of_mem_drop ha

theorem quiet_le {s : State} {j k : Nat} (h : s.Quiet k) (hj : j ≤ k) : s.Quiet j :=
  fun ans ha => h ans ((List.take_prefix_take_left hj).subset ha)

theorem still_le {s : State} {j k : Nat} {b : Addr} (h : s.Still k b) (hj : j ≤ k) : s.Still j b := by
  rcases h with h | ⟨hl, h⟩
  · exact .inl h
  · exact .inr ⟨by omega, fun ans ha => h ans ((List.take_prefix_take_left hj).subset ha)⟩

theorem still_head {s : State} {k : Nat} {b : Addr} (h : s.Still (k + 1) b) (c : Chip) :
    (c.drift s.cfg.volatile (nextAnswer s).drift).reg b = c.reg b := by
  rcases h with h | ⟨hl, h⟩
  · exact reg_drift_nonvolatile _ _ h
  · cases he : s.env with
    | nil => simp [he] at hl
    | cons a rest => exact reg_drift_unnamed _ _ (by simpa [nextAnswer, he] using h a (by simp [he]))

theorem still_tail {s t : State} {k : Nat} {b : Addr} (h : s.Still (k + 1) b) (e : t.env = s.env.tail)
    (hc : t.cfg = s.cfg) : t.Still k b := by
  rcases h with h | ⟨hl, h⟩
  · exact .inl (hc ▸ h)
  · cases he : s.env with
    | nil => simp [he] at hl
    | cons a rest =>
      refine .inr ⟨by simp [e, he] at hl ⊢; omega, fun ans ha => h ans ?_⟩
      rw [he, List.take_succ_cons]
      exact List.mem_cons_of_mem _ (by simpa [e, he] using ha)

theorem still_drop {s t : State} {j k : Nat} {b : Addr} (h : s.Still (j + k) b) (e : t.env = s.env.drop j)
    (hc : t.cfg = s.cfg) : t.Still k b := by
  induction j generalizing s with
  | zero => rcases h with h | ⟨hl, h⟩
            · exact .inl (hc ▸ h)
            · exact .inr ⟨by simpa [e] using hl, by simpa [e] using h⟩
  | succ j ih =>
    have h' : s.Still ((j + k) + 1) b := by simpa [Nat.succ_add] using h
    exact ih (s := { s with env := s.env.tail }) (still_tail h' rfl rfl) (by simp [e]) hc

/-! ### A run of completed primitives -/

/-- From `s` to `t`, `k` primitives completed and left the events `evs` (R25, R74). -/
structure Ran (s t : State) (k : Nat) (evs : List Event) : Prop where
  cfg : t.cfg = s.cfg
  x : t.x = s.x
  cs : t.cs = s.cs
  ready : t.ready = s.ready
  fault : t.fault = s.fault
  wire : t.wire = s.wire
  inputs : t.inputs = s.inputs
  seq : t.seq = s.seq + k
  env : t.env = s.env.drop k
  draws : t.draws = s.draws + k
  trace : t.trace = s.trace ++ evs

theorem Ran.refl (s : State) : Ran s s 0 [] := ⟨rfl, rfl, rfl, rfl, rfl, rfl, rfl, rfl, rfl, rfl, by simp⟩

theorem Ran.trans {s t u : State} {j k : Nat} {e f : List Event} (h : Ran s t j e) (g : Ran t u k f) :
    Ran s u (j + k) (e ++ f) :=
  ⟨g.cfg.trans h.cfg, g.x.trans h.x, g.cs.trans h.cs, g.ready.trans h.ready, g.fault.trans h.fault,
    g.wire.trans h.wire, g.inputs.trans h.inputs, by rw [g.seq, h.seq]; omega,
    by rw [g.env, h.env, List.drop_drop], by rw [g.draws, h.draws]; omega,
    by rw [g.trace, h.trace, List.append_assoc]⟩

theorem Ran.quiet {s t : State} {j k : Nat} {e : List Event} (h : Ran s t j e) (q : s.Quiet (j + k)) : t.Quiet k :=
  quiet_drop q h.env

theorem Ran.still {s t : State} {j k : Nat} {e : List Event} {b : Addr} (h : Ran s t j e) (q : s.Still (j + k) b) :
    t.Still k b :=
  still_drop q h.env h.cfg

theorem takeAnswer_ran (s : State) (e : Event) (sc : Bool) : Ran s (completed e { takeAnswer s with scope := sc }) 1 [e] :=
  ⟨rfl, rfl, rfl, rfl, rfl, rfl, rfl, rfl, by simp, rfl, rfl⟩

theorem busAcquire_completes {s : State} (h : s.Quiet 1) :
    busAcquire s = .done () (completed .acq { takeAnswer s with scope := true }) :=
  primitive_completes (quiet_head h)

theorem busRelease_completes {s : State} (h : s.Quiet 1) :
    busRelease s = .done () (completed .rel { takeAnswer s with scope := false }) :=
  primitive_completes (quiet_head h)

theorem platformSetup_completes {s : State} (cs : Byte) (h : s.Quiet 1) :
    platformSetup cs s = .done () (completed (.setup cs) (takeAnswer s)) :=
  primitive_completes (quiet_head h)

theorem wireExchange_completes {s : State} (tx : Frame) (h : s.Quiet 1) :
    wireExchange tx s = .done (response s.cfg (takeAnswer s).chip (nextAnswer s)) (exchanged tx s) :=
  primitive_completes (quiet_head h)

theorem busExchange_completes {s : State} (tx : Frame) (h : s.Quiet 1) :
    busExchange tx s =
      .done (response s.cfg (takeAnswer s).chip (nextAnswer s)) { exchanged tx s with seq := s.seq + 1 } := by
  rw [busExchange, wireExchange_completes tx h]; rfl

theorem exchanged_ran (tx : Frame) (s : State) :
    Ran s { exchanged tx s with seq := s.seq + 1 } 1 [.xchg tx (response s.cfg (takeAnswer s).chip (nextAnswer s))] :=
  ⟨rfl, rfl, rfl, rfl, rfl, rfl, rfl, rfl, by simp [exchanged], rfl, rfl⟩

/-! ### MemWrite and MemRead -/

/-- `write` without its response (R130). -/
theorem memWrite_completes (a : Addr) (v : Word) {s : State} (h : s.Quiet 3) :
    ∃ rx t, memWrite a v s = .done () t ∧ Ran s t 3 (writeEvents a v rx) ∧ t.scope = false ∧ t.chip.pend = none ∧
      ∀ b, s.Still 3 b → t.chip.reg b = if b = a then v else s.chip.reg b := by
  let s1 := completed .acq { takeAnswer s with scope := true }
  have r1 : Ran s s1 1 _ := takeAnswer_ran s .acq true
  have q1 : s1.Quiet 2 := r1.quiet h
  let tx := encWrite (addrByte a) v
  let s2 : State := { exchanged tx s1 with seq := s1.seq + 1 }
  have r2 : Ran s1 s2 1 _ := exchanged_ran tx s1
  have q2 : s2.Quiet 1 := r2.quiet q1
  let s3 := completed .rel { takeAnswer s2 with scope := false }
  have r3 : Ran s2 s3 1 _ := takeAnswer_ran s2 .rel false
  have c1 : s1.chip = s.chip.drift s.cfg.volatile (nextAnswer s).drift := rfl
  have c2 : s2.chip = (s1.chip.drift s1.cfg.volatile (nextAnswer s1).drift).take tx := rfl
  have c3 : s3.chip = s2.chip.drift s2.cfg.volatile (nextAnswer s2).drift := rfl
  refine ⟨_, s3, ?_, (r1.trans r2).trans r3, rfl, ?_, ?_⟩
  · rw [memWrite, busAcquire_completes (quiet_le h (by omega))]
    simp only [andThen_done]
    rw [busExchange_completes _ (quiet_le q1 (by omega))]
    simp only [andThen_done]
    exact busRelease_completes q2
  · rw [c3, drift_pend, c2, take_encWrite]
  · intro b hb
    have hb1 := r1.still (k := 2) hb
    have hb2 := r2.still (k := 1) hb1
    rw [c3, still_head hb2, c2, take_encWrite, reg_pend, reg_setReg, still_head hb1, c1, still_head hb]

/-- `read` without its response (R131): the value is that of the second response. -/
theorem memRead_completes (a : Addr) {s : State} (h : s.Quiet 4) :
    ∃ rx1 rx2 t, memRead a s = .done (rx2.b0, rx2.data) t ∧ Ran s t 4 (readEvents a rx1 rx2) ∧ t.scope = false ∧
      t.chip.pend = some a ∧ (∀ b, s.Still 4 b → t.chip.reg b = s.chip.reg b) ∧
      (s.Readable a → s.Still 3 a → rx2.data = s.chip.reg a) ∧
      (∀ ans, s.env[2]? = some ans → rx2.b0 = ans.status ∧ (¬ s.Readable a → rx2.data = ans.data)) := by
  let s1 := completed .acq { takeAnswer s with scope := true }
  have r1 : Ran s s1 1 _ := takeAnswer_ran s .acq true
  have q1 : s1.Quiet 3 := r1.quiet h
  let tx := encRead (addrByte a)
  let s2 : State := { exchanged tx s1 with seq := s1.seq + 1 }
  have r2 : Ran s1 s2 1 _ := exchanged_ran tx s1
  have q2 : s2.Quiet 2 := r2.quiet q1
  let s3 : State := { exchanged tx s2 with seq := s2.seq + 1 }
  have r3 : Ran s2 s3 1 _ := exchanged_ran tx s2
  have q3 : s3.Quiet 1 := r3.quiet q2
  let s4 := completed .rel { takeAnswer s3 with scope := false }
  have r4 : Ran s3 s4 1 _ := takeAnswer_ran s3 .rel false
  have c1 : s1.chip = s.chip.drift s.cfg.volatile (nextAnswer s).drift := rfl
  have c2 : s2.chip = (s1.chip.drift s1.cfg.volatile (nextAnswer s1).drift).take tx := rfl
  have c3 : s3.chip = (s2.chip.drift s2.cfg.volatile (nextAnswer s2).drift).take tx := rfl
  have c4 : s4.chip = s3.chip.drift s3.cfg.volatile (nextAnswer s3).drift := rfl
  have d2 : (takeAnswer s2).chip = s2.chip.drift s2.cfg.volatile (nextAnswer s2).drift := rfl
  have p2 : (takeAnswer s2).chip.pend = some a := by rw [d2, drift_pend, c2, take_encRead]
  have hcfg : s2.cfg = s.cfg := rfl
  refine ⟨response s1.cfg (takeAnswer s1).chip (nextAnswer s1), response s2.cfg (takeAnswer s2).chip (nextAnswer s2), s4,
    ?_, ((r1.trans r2).trans r3).trans r4, rfl, ?_, ?_, ?_, ?_⟩
  · rw [memRead, busAcquire_completes (quiet_le h (by omega))]
    simp only [andThen_done]
    rw [busExchange_completes _ (quiet_le q1 (by omega))]
    simp only [andThen_done]
    have := busExchange_completes tx (quiet_le q2 (by omega : 1 ≤ 2))
    rw [this]
    simp only [andThen_done]
    have := busRelease_completes (quiet_le q3 (by omega : 1 ≤ 1))
    rw [this]
    simp only [andThen_done, decResp]
    rfl
  · rw [c4, drift_pend, c3, take_encRead]
  · intro b hb
    have hb1 := r1.still (k := 3) hb
    have hb2 := r2.still (k := 2) hb1
    have hb3 := r3.still (k := 1) hb2
    rw [c4, still_head hb3, c3, take_encRead, reg_pend, still_head hb2, c2, take_encRead, reg_pend, still_head hb1, c1,
      still_head hb]
  · intro hr hb
    have hb1 := r1.still (k := 2) hb
    have hb2 := r2.still (k := 1) hb1
    have hr' : a ∈ s.cfg.volatile ∨ a ∈ s.cfg.readBack := hr
    rw [response_data, responseData, p2]
    simp only [sample, hcfg, hr', if_true]
    rw [d2, still_head hb2, c2, take_encRead, reg_pend, still_head hb1, c1, still_head hb]
  · intro ans hans
    have hn : nextAnswer s2 = ans := by
      have he : s2.env = s.env.drop 2 := by simp [s2, exchanged, s1, ← List.drop_one]
      have : (s.env.drop 2).head? = some ans := by rw [List.head?_drop]; exact hans
      unfold nextAnswer
      rw [he]
      cases hd : s.env.drop 2 with
      | nil => simp [hd] at this
      | cons y ys => simpa [hd] using this
    refine ⟨by rw [response_b0, hn], fun hr => ?_⟩
    have hr' : ¬ (a ∈ s.cfg.volatile ∨ a ∈ s.cfg.readBack) := hr
    rw [response_data, responseData, p2]
    simp only [sample, hcfg, hr', if_false, hn]

/-! ### Lists of writes -/

/-- The content a list of writes leaves in register `b` (the last write of it wins). -/
def afterWrites : List (Addr × Word) → Addr → Word → Word
  | [], _, w => w
  | (a, v) :: rest, b, w => afterWrites rest b (if b = a then v else w)

/-- The fixed sequence of writes of the commit and of begin (R191, R193). -/
theorem memWrites_completes (ws : List (Addr × Word)) {s : State} (h : s.Quiet (3 * ws.length)) :
    ∃ rxs t, rxs.length = ws.length ∧ memWrites ws s = .done () t ∧ Ran s t (3 * ws.length) (writesEvents ws rxs) ∧
      (ws ≠ [] → t.scope = false ∧ t.chip.pend = none) ∧
      ∀ b, s.Still (3 * ws.length) b → t.chip.reg b = afterWrites ws b (s.chip.reg b) := by
  induction ws generalizing s with
  | nil => exact ⟨[], s, rfl, rfl, Ran.refl s, fun h => absurd rfl h, fun _ _ => rfl⟩
  | cons w rest ih =>
    obtain ⟨a, v⟩ := w
    have hlen : 3 * ((a, v) :: rest).length = 3 + 3 * rest.length := by simp; omega
    rw [hlen] at h
    obtain ⟨rx, t, ht, rt, st, pt, mt⟩ := memWrite_completes a v (quiet_le h (by omega) : s.Quiet 3)
    obtain ⟨rxs, u, hl, hu, ru, su, mu⟩ := ih (rt.quiet h)
    refine ⟨rx :: rxs, u, by simp [hl], ?_, ?_, fun _ => ?_, fun b hb => ?_⟩
    · rw [memWrites, ht]; exact hu
    · rw [hlen]; exact rt.trans ru
    · cases rest with
      | nil => simp only [memWrites, Attempt.done.injEq, true_and] at hu; subst hu; exact ⟨st, pt⟩
      | cons _ _ => exact su (by simp)
    · rw [hlen] at hb
      rw [mu b (rt.still hb), mt b (still_le hb (by omega))]
      rfl

/-- The read-modify-write of one bit (R181): the word written is the word read with the bit edited. -/
theorem editRegister_completes (a : Addr) (bit : Nat) (en : Bool) {s : State} (h : s.Quiet 7) :
    ∃ rx1 rx2 rx3 t, editRegister a bit en s = .done () t ∧
      Ran s t 7 (readEvents a rx1 rx2 ++ writeEvents a (editBit rx2.data bit en) rx3) ∧ t.scope = false ∧
      t.chip.pend = none ∧ (∀ b, s.Still 7 b → t.chip.reg b = if b = a then editBit rx2.data bit en else s.chip.reg b) ∧
      (s.Readable a → s.Still 3 a → rx2.data = s.chip.reg a) := by
  obtain ⟨rx1, rx2, t, ht, rt, -, -, mt, dt, -⟩ := memRead_completes a (quiet_le h (by omega) : s.Quiet 4)
  obtain ⟨rx3, u, hu, ru, su, pu, mu⟩ := memWrite_completes a (editBit rx2.data bit en) (rt.quiet (k := 3) h)
  refine ⟨rx1, rx2, rx3, u, ?_, rt.trans ru, su, pu, fun b hb => ?_, dt⟩
  · rw [editRegister, ht]; exact hu
  · rw [mu b (rt.still hb), mt b (still_le hb (by omega))]

end Sys2Proof.Machine
end

