-- ==== Sys2Proof/Laws/Commands.lean ====
section
/-! SUPPORT. How commands begin and end: the checks of R227, the responses, and the one form of every command's meaning
(`body`): the checks, then `finish` of a fixed sequence. -/

namespace Sys2Proof.Machine

theorem whenReady_runs {s : State} (h : s.Runs) (run : State → Host.Outcome State Fault Refusal) :
    whenReady s run = run s := by
  simp [whenReady, unlessFaulted, h.1, h.2]

theorem unlessFaulted_none {s : State} (h : s.fault = none) (run : State → Host.Outcome State Fault Refusal) :
    unlessFaulted s run = run s := by
  simp [unlessFaulted, h]

theorem whenReady_next {s t : State} {run : State → Host.Outcome State Fault Refusal} (h : whenReady s run = .next t) :
    s.Runs ∧ run s = .next t := by
  unfold whenReady unlessFaulted at h
  split at h
  · split at h
    · cases h
    · rename_i hr hf; exact ⟨⟨hr, by simpa using hf⟩, h⟩
  · cases h

theorem unlessFaulted_next {s t : State} {run : State → Host.Outcome State Fault Refusal}
    (h : unlessFaulted s run = .next t) : s.fault = none ∧ run s = .next t := by
  unfold unlessFaulted at h
  split at h
  · cases h
  · rename_i hf; exact ⟨by simpa using hf, h⟩

theorem finish_done (r : Response) (s : State) : finish (.done r s) = .next (respond r s) := rfl

theorem finish_failed (e : TErr) (s : State) : finish (.failed e s) = .next (respond (.transportError e) s) := rfl

theorem finish_hung : finish .hung = .fault .transportHang := rfl

theorem finishAck_done (u : Unit) (s : State) : finishAck (.done u s) = .next (respond .ack s) := rfl

theorem finish_next {t : Attempt Response} {u : State} (h : finish t = .next u) :
    (∃ r s, t = .done r s ∧ u = respond r s) ∨ ∃ e s, t = .failed e s ∧ u = respond (.transportError e) s := by
  cases t with
  | done r s => exact .inl ⟨r, s, rfl, by cases h; rfl⟩
  | failed e s => exact .inr ⟨e, s, rfl, by cases h; rfl⟩
  | hung => cases h

/-- A sequence of primitives followed by a fixed response. -/
def thenRespond {α : Type} (f : State → Attempt α) (r : α → Response) (s : State) : Attempt Response :=
  (f s).andThen fun a t => .done (r a) t

/-- The sequence each command performs once its checks have passed. -/
def body : Instr → State → Attempt Response
  | .beginBlock cs, s =>
    thenRespond (fun s0 => (platformSetup cs s0).andThen fun _ s2 =>
      (memWrites (beginWrites s2.cfg s2.x) s2).andThen fun _ s3 => .done () { s3 with ready := true })
      (fun _ => .ack) { s with x := s.cfg.profileDefault, cs := cs }
  | .write a v, s => thenRespond (memWrite a v) (fun _ => .ack) s
  | .read a, s => thenRespond (memRead a) (fun p => .statusValue p.1 p.2) s
  | .setRampMode m, s => thenRespond (memWrite s.cfg.map.rampmode (rampWord s.cfg m)) (fun _ => .ack) s
  | .jog d, s =>
    thenRespond (fun s0 => (memRead s.cfg.map.xactual s0).andThen fun p s2 => memWrite s.cfg.map.xtarget (p.2 + d) s2)
      (fun _ => .ack) s
  | .moveTo p, s => thenRespond (memWrite s.cfg.map.xtarget p) (fun _ => .ack) s
  | .setVelocity v, s => thenRespond (memWrite s.cfg.map.vmax v) (fun _ => .ack) { s with x := s.x.set 3 v }
  | .enableStealthChop en, s => thenRespond (editRegister s.cfg.map.gconf stealthBit en) (fun _ => .ack) s
  | .reverseDirection en, s => thenRespond (editRegister s.cfg.map.gconf reverseBit en) (fun _ => .ack) s
  | .setPosition p, s => thenRespond (memWrite s.cfg.map.xactual p) (fun _ => .ack) s
  | .getPosition, s => thenRespond (memRead s.cfg.map.xactual) (fun p => .value p.2) s
  | .setCurrentLimits d h r, s =>
    thenRespond (fun s0 => (memWrite s.cfg.map.iholdIrun (currentWord d h r) s0).andThen fun _ s2 =>
      editRegister s.cfg.map.chopconf vsenseBit (vsense h r) s2) (fun _ => .ack) s
  | .updateMotionProfile, s => thenRespond (memWrites (commitWrites s.cfg s.x)) (fun _ => .ack) s
  | .getEncoderPosition, s => thenRespond (memRead s.cfg.map.xenc) (fun p => .value p.2) s
  | .setEncoderPosition p, s => thenRespond (memWrite s.cfg.map.xenc p) (fun _ => .ack) s
  | .isStopped, s => thenRespond (memRead s.cfg.map.vactual) (fun p => .bool (isZero p.2)) s
  | .setProfileField i v, s =>
    match profileIndex i with
    | some k => .done .ack { s with x := s.x.set k v }
    | none => .done .illegal s
  | .getProfileField i, s =>
    match profileIndex i with
    | some k => .done (.value s.x[k]) s
    | none => .done .illegal s
  | .frameWr _ _, s => .done .ack s
  | .frameRd _, s => .done .ack s

theorem profileIndex_of_ok {i : BitVec 3} (h : profileIndexOk i = true) : ∃ k, profileIndex i = some k := by
  revert i; decide

theorem profileIndex_seven : profileIndex 7 = none := by decide

/-- An accepted command is its sequence, finished. -/
theorem exec_eq_body {i : Instr} {s : State} (h : s.Accepts i) : exec i s = finish (body i s) := by
  obtain ⟨hc, hw, hf, hr, hp⟩ := h
  have hruns : isBegin i = false → s.Runs := fun hb => by
    rcases hr with hr | hr
    · simp [hb] at hr
    · exact ⟨hr, hf⟩
  cases i with
  | beginBlock cs =>
    simp only [exec, execBegin]
    rw [unlessFaulted_none hf]
    rfl
  | setCurrentLimits d h r =>
    have := hp d h r rfl
    simp only [exec, execSetCurrentLimits, whenReady_runs (hruns rfl), this, if_true]
    rfl
  | setProfileField k v =>
    obtain ⟨j, hj⟩ := profileIndex_of_ok (i := k) hw
    simp only [exec, execSetProfileField, hj, whenReady_runs (hruns rfl), body]
    rfl
  | getProfileField k =>
    obtain ⟨j, hj⟩ := profileIndex_of_ok (i := k) hw
    simp only [exec, execGetProfileField, hj, whenReady_runs (hruns rfl), body]
    rfl
  | frameWr a v => cases hc
  | frameRd a => cases hc
  | _ => exact whenReady_runs (hruns rfl) _

/-- A command that answers a next state was accepted, or was the illegal index 7 (R110 (d)). -/
theorem exec_next_accepts {i : Instr} {s t : State} (hc : isCommand i = true) (h : exec i s = .next t) :
    s.Accepts i ∨ (i.wf = false ∧ t = takeIllegal s) := by
  have ready : ∀ run, isBegin i = false → i.wf = true → (∀ d h r, i ≠ .setCurrentLimits d h r) →
      whenReady s run = .next t → s.Accepts i := fun run hb hw hp hn =>
    have hr := (whenReady_next hn).1
    ⟨hc, hw, hr.2, .inr hr.1, fun d h r e => absurd e (hp d h r)⟩
  cases i with
  | beginBlock cs =>
    simp only [exec, execBegin] at h
    exact .inl ⟨rfl, rfl, (unlessFaulted_next h).1, .inl rfl, fun _ _ _ e => by cases e⟩
  | setCurrentLimits d c r =>
    have hr := whenReady_next h
    refine .inl ⟨rfl, rfl, hr.1.2, .inr hr.1.1, fun d' h' r' e => ?_⟩
    cases e
    have h2 := hr.2
    split at h2
    · assumption
    · cases h2
  | setProfileField k v =>
    cases hw : profileIndexOk k with
    | true =>
      obtain ⟨j, hj⟩ := profileIndex_of_ok hw
      simp only [exec, execSetProfileField, hj] at h
      exact .inl (ready _ rfl hw (fun _ _ _ e => by cases e) h)
    | false =>
      have : k = 7 := by simpa [profileIndexOk] using hw
      subst this
      simp only [exec, execSetProfileField, profileIndex_seven] at h
      cases h
      exact .inr ⟨hw, rfl⟩
  | getProfileField k =>
    cases hw : profileIndexOk k with
    | true =>
      obtain ⟨j, hj⟩ := profileIndex_of_ok hw
      simp only [exec, execGetProfileField, hj] at h
      exact .inl (ready _ rfl hw (fun _ _ _ e => by cases e) h)
    | false =>
      have : k = 7 := by simpa [profileIndexOk] using hw
      subst this
      simp only [exec, execGetProfileField, profileIndex_seven] at h
      cases h
      exact .inr ⟨hw, rfl⟩
  | frameWr a v => cases hc
  | frameRd a => cases hc
  | _ => exact .inl (ready _ rfl rfl (fun _ _ _ e => by cases e) h)

/-- A wire frame that answers a next state is an exchange that completed or whose error was taken. -/
theorem finishWire_next {t : Attempt Frame} {u : State} (h : finishWire t = .next u) :
    (∃ rx, t = .done rx u) ∨ ∃ e, t = .failed e u := by
  cases t with
  | done r s => cases h; exact .inl ⟨r, rfl⟩
  | failed e s => cases h; exact .inr ⟨e, rfl⟩
  | hung => cases h

end Sys2Proof.Machine
end

