-- ==== Sys2Proof/Laws/Operands.lean ====
section
/-! SUPPORT. The operand computations: the named registers have distinct addresses (spec/10_state.md R29), the profile index
(spec/10_state.md R20), and the integer square root of spec/42_config.md R186. -/

namespace Sys2Proof.Machine

open Sys2Proof.Config

/-- Two of the sixteen named registers with one address are one register (R29). -/
theorem addr_injective {p : Params} (h : p.wf) : Function.Injective p.map.addr := fun r r' e =>
  List.inj_on_of_nodup_map h.1 (by cases r <;> decide) (by cases r' <;> decide) e

theorem profileIndex_of_lt {i : BitVec 3} {k : Fin 7} (h : i.toNat = k.val) : profileIndex i = some k := by
  have := k.isLt
  simp [profileIndex, h]

theorem currentsAccepted_clamp (hold run : BitVec 16) : currentsAccepted .clamp hold run = true := rfl

/-- What the digit-by-digit search keeps: the result is the root, if the root lies in the window searched. -/
theorem isqrtFrom_spec (k n acc : Nat) (lo : acc * acc ≤ n) (hi : n < (acc + 2 ^ k) * (acc + 2 ^ k)) :
    isqrtFrom k n acc * isqrtFrom k n acc ≤ n ∧ n < (isqrtFrom k n acc + 1) * (isqrtFrom k n acc + 1) := by
  induction k generalizing acc with
  | zero => exact ⟨lo, by simpa [isqrtFrom] using hi⟩
  | succ k ih =>
    simp only [isqrtFrom]
    split
    · rename_i h
      refine ih _ h ?_
      rwa [Nat.add_assoc, ← Nat.two_mul, ← Nat.pow_succ']
    · rename_i h
      exact ih _ lo (by omega)

/-- `isqrt n` is the integer square root of `n`, rounded down, for every `n` below 2 ^ 48. -/
theorem isqrt_spec {n : Nat} (h : n < 2 ^ 48) : isqrt n * isqrt n ≤ n ∧ n < (isqrt n + 1) * (isqrt n + 1) :=
  isqrtFrom_spec 24 n 0 (by omega) (by omega)

end Sys2Proof.Machine
end

