-- ==== Sys2Proof/Laws/PerInstr.lean ====
section
/-! SUPPORT. Per-instruction laws. Family TableRow: the word `encode` gives an instruction lies in its row of
spec/opcode_table.json, so the encoder agrees with the table's match and mask bit by bit. -/

namespace Sys2Proof.Laws

/-- Match and mask of each instruction's row, copied from spec/opcode_table.json. -/
def tableRow : Instr → PortWord × PortWord
  | .beginBlock _ => (0x010000000000, 0xFF00FFFFFFFF)
  | .write _ _ => (0x020000000000, 0xFF8000000000)
  | .read _ => (0x030000000000, 0xFF80FFFFFFFF)
  | .setRampMode _ => (0x040000000000, 0xFFFCFFFFFFFF)
  | .jog _ => (0x050000000000, 0xFFFF00000000)
  | .moveTo _ => (0x060000000000, 0xFFFF00000000)
  | .setVelocity _ => (0x070000000000, 0xFFFF00000000)
  | .enableStealthChop _ => (0x080000000000, 0xFFFEFFFFFFFF)
  | .reverseDirection _ => (0x090000000000, 0xFFFEFFFFFFFF)
  | .setPosition _ => (0x0A0000000000, 0xFFFF00000000)
  | .getPosition => (0x0B0000000000, 0xFFFFFFFFFFFF)
  | .setCurrentLimits _ _ _ => (0x0C0000000000, 0xFFF000000000)
  | .updateMotionProfile => (0x0D0000000000, 0xFFFFFFFFFFFF)
  | .getEncoderPosition => (0x0E0000000000, 0xFFFFFFFFFFFF)
  | .setEncoderPosition _ => (0x0F0000000000, 0xFFFF00000000)
  | .isStopped => (0x100000000000, 0xFFFFFFFFFFFF)
  | .setProfileField _ _ => (0x110000000000, 0xFFF800000000)
  | .getProfileField _ => (0x120000000000, 0xFFF8FFFFFFFF)
  | .frameWr _ _ => (0x008000000000, 0xFF8000000000)
  | .frameRd _ => (0x000000000000, 0xFF80FFFFFFFF)

/-- The encoding of `i` has the fixed bits of its row. -/
def TableRow.Statement (i : Instr) : Prop := encode i &&& (tableRow i).2 = (tableRow i).1

/-- A word whose op field is fixed and whose a and v fields avoid the row's fixed bits lies in the row. -/
theorem row_of_fields {w m k : PortWord} (op a ma : Byte) (v mv : Word) (hw : w = cmdWord op a v)
    (hm : m = cmdWord 0xFF ma mv) (hk : k = cmdWord op 0 0) (ha : a &&& ma = 0) (hv : v &&& mv = 0) : w &&& m = k := by
  subst hw hm hk
  unfold cmdWord
  have hop : op &&& 0xFF = op := BitVec.and_allOnes
  rw [BitVec.and_append, BitVec.and_append, ha, hv, hop]

theorem TableRow.beginBlock (cs : Byte) : TableRow.Statement (.beginBlock cs) :=
  row_of_fields 0x01 _ 0x00 _ 0xFFFFFFFF rfl
    (by simp only [tableRow]; decide) (by simp only [tableRow]; decide) (by simp) (by decide)

theorem TableRow.write (a : Addr) (v : Word) : TableRow.Statement (.write a v) :=
  row_of_fields 0x02 _ 0x80 _ 0x00000000 rfl
    (by simp only [tableRow]; decide) (by simp only [tableRow]; decide) (by revert a; decide) (by simp)

theorem TableRow.read (a : Addr) : TableRow.Statement (.read a) :=
  row_of_fields 0x03 _ 0x80 _ 0xFFFFFFFF rfl
    (by simp only [tableRow]; decide) (by simp only [tableRow]; decide) (by revert a; decide) (by decide)

theorem TableRow.setRampMode (m : RampMode) : TableRow.Statement (.setRampMode m) :=
  row_of_fields 0x04 _ 0xFC _ 0xFFFFFFFF rfl
    (by simp only [tableRow]; decide) (by simp only [tableRow]; decide) (by cases m <;> decide) (by decide)

theorem TableRow.jog (d : Word) : TableRow.Statement (.jog d) :=
  row_of_fields 0x05 _ 0xFF _ 0x00000000 rfl
    (by simp only [tableRow]; decide) (by simp only [tableRow]; decide) (by decide) (by simp)

theorem TableRow.moveTo (p : Word) : TableRow.Statement (.moveTo p) :=
  row_of_fields 0x06 _ 0xFF _ 0x00000000 rfl
    (by simp only [tableRow]; decide) (by simp only [tableRow]; decide) (by decide) (by simp)

theorem TableRow.setVelocity (v : Word) : TableRow.Statement (.setVelocity v) :=
  row_of_fields 0x07 _ 0xFF _ 0x00000000 rfl
    (by simp only [tableRow]; decide) (by simp only [tableRow]; decide) (by decide) (by simp)

theorem TableRow.enableStealthChop (en : Bool) : TableRow.Statement (.enableStealthChop en) :=
  row_of_fields 0x08 _ 0xFE _ 0xFFFFFFFF rfl
    (by simp only [tableRow]; decide) (by simp only [tableRow]; decide) (by cases en <;> decide) (by decide)

theorem TableRow.reverseDirection (en : Bool) : TableRow.Statement (.reverseDirection en) :=
  row_of_fields 0x09 _ 0xFE _ 0xFFFFFFFF rfl
    (by simp only [tableRow]; decide) (by simp only [tableRow]; decide) (by cases en <;> decide) (by decide)

theorem TableRow.setPosition (p : Word) : TableRow.Statement (.setPosition p) :=
  row_of_fields 0x0A _ 0xFF _ 0x00000000 rfl
    (by simp only [tableRow]; decide) (by simp only [tableRow]; decide) (by decide) (by simp)

theorem TableRow.getPosition : TableRow.Statement .getPosition :=
  row_of_fields 0x0B _ 0xFF _ 0xFFFFFFFF rfl
    (by simp only [tableRow]; decide) (by simp only [tableRow]; decide) (by decide) (by decide)

theorem TableRow.setCurrentLimits (d : BitVec 4) (h : BitVec 16) (r : BitVec 16) : TableRow.Statement (.setCurrentLimits d h r) :=
  row_of_fields 0x0C _ 0xF0 _ 0x00000000 rfl
    (by simp only [tableRow]; decide) (by simp only [tableRow]; decide) (by revert d; decide) (by simp)

theorem TableRow.updateMotionProfile : TableRow.Statement .updateMotionProfile :=
  row_of_fields 0x0D _ 0xFF _ 0xFFFFFFFF rfl
    (by simp only [tableRow]; decide) (by simp only [tableRow]; decide) (by decide) (by decide)

theorem TableRow.getEncoderPosition : TableRow.Statement .getEncoderPosition :=
  row_of_fields 0x0E _ 0xFF _ 0xFFFFFFFF rfl
    (by simp only [tableRow]; decide) (by simp only [tableRow]; decide) (by decide) (by decide)

theorem TableRow.setEncoderPosition (p : Word) : TableRow.Statement (.setEncoderPosition p) :=
  row_of_fields 0x0F _ 0xFF _ 0x00000000 rfl
    (by simp only [tableRow]; decide) (by simp only [tableRow]; decide) (by decide) (by simp)

theorem TableRow.isStopped : TableRow.Statement .isStopped :=
  row_of_fields 0x10 _ 0xFF _ 0xFFFFFFFF rfl
    (by simp only [tableRow]; decide) (by simp only [tableRow]; decide) (by decide) (by decide)

theorem TableRow.setProfileField (i : BitVec 3) (v : Word) : TableRow.Statement (.setProfileField i v) :=
  row_of_fields 0x11 _ 0xF8 _ 0x00000000 rfl
    (by simp only [tableRow]; decide) (by simp only [tableRow]; decide) (by revert i; decide) (by simp)

theorem TableRow.getProfileField (i : BitVec 3) : TableRow.Statement (.getProfileField i) :=
  row_of_fields 0x12 _ 0xF8 _ 0xFFFFFFFF rfl
    (by simp only [tableRow]; decide) (by simp only [tableRow]; decide) (by revert i; decide) (by decide)

theorem TableRow.frameWr (a : Addr) (v : Word) : TableRow.Statement (.frameWr a v) := by
  apply BitVec.eq_of_getLsbD_eq
  intro k hk
  simp only [encode, tableRow, wireWord, Frame.toBits, BitVec.getLsbD_and, BitVec.getLsbD_append]
  interval_cases k <;> simp [encWrite, frameOf]

theorem TableRow.frameRd (a : Addr) : TableRow.Statement (.frameRd a) := by
  apply BitVec.eq_of_getLsbD_eq
  intro k hk
  simp only [encode, tableRow, wireWord, Frame.toBits, data_encRead, BitVec.getLsbD_and, BitVec.getLsbD_append]
  interval_cases k <;> simp [encRead, frameOf, addrByte]

end Sys2Proof.Laws
end

