-- ==== Sys2Proof/Laws/Program.lean ====
section
/-! SUPPORT. Commands as programs of bus primitives: what a sequence of exactly `n` primitives does when they complete, when
primitive `k` reports an error (R222), and when it hangs (R221); and every accepted command is one (`exec_program`). -/

namespace Sys2Proof.Machine

/-! ### What events do -/

/-- Whether a scope is held after the events, from what it was before (R41). -/
def held (b : Bool) (es : List Event) : Bool :=
  ((es.filter fun e => e == .acq || e == .rel).getLast?).elim b (· == .acq)

theorem held_append (b : Bool) (es fs : List Event) : held b (es ++ fs) = held (held b es) fs := by
  simp only [held, List.filter_append, List.getLast?_append]
  cases (fs.filter fun e => e == .acq || e == .rel).getLast? <;> simp

theorem held_false (es : List Event) : held false es = scopeHeld es := by
  unfold held scopeHeld
  cases (es.filter fun e => e == .acq || e == .rel).getLast? <;> simp

theorem contentAfter_append (es fs : List Event) (b : Addr) (w : Word) :
    contentAfter (es ++ fs) b w = contentAfter fs b (contentAfter es b w) := by
  induction es generalizing w with
  | nil => rfl
  | cons e es ih => cases e <;> exact ih _

theorem latchAfter_append (es fs : List Event) (p : Option Addr) :
    latchAfter (es ++ fs) p = latchAfter fs (latchAfter es p) := by
  induction es generalizing p with
  | nil => rfl
  | cons e es ih => cases e <;> exact ih _

/-- Where no write frame for `b` is among the events, `b` keeps its content. -/
theorem contentAfter_unwritten {es : List Event} {b : Addr} (w : Word)
    (h : ∀ tx rx, Event.xchg tx rx ∈ es → tx.isWrite = true → b ≠ tx.addr) : contentAfter es b w = w := by
  induction es with
  | nil => rfl
  | cons e es ih =>
    have h' := ih fun tx rx hm => h tx rx (List.mem_cons_of_mem _ hm)
    cases e with
    | xchg tx rx =>
      have hn : ¬ (tx.isWrite = true ∧ b = tx.addr) := fun hc => h tx rx (by simp) hc.1 hc.2
      simpa [contentAfter, hn] using h'
    | _ => exact h'

/-- An event of a bus primitive (R7, R9). -/
def isPrimitive : Event → Bool
  | .setup _ | .acq | .xchg _ _ | .rel => true
  | _ => false

/-! ### The answers -/

theorem nextAnswer_of_head {s : State} {ans : Answer} (h : s.env[0]? = some ans) : nextAnswer s = ans := by
  unfold nextAnswer
  cases he : s.env with
  | nil => simp [he] at h
  | cons y ys => simpa [he] using h

theorem quiet_completing {s : State} {k : Nat} (ans : Answer) (h : s.Quiet k) (n : Nat) : (s.completing k ans).Quiet n := by
  intro a ha
  rcases List.mem_append.1 (List.mem_of_mem_take ha) with ha | ha
  · exact h a ha
  · rw [List.mem_singleton.1 ha]

theorem completing_env (s : State) (k : Nat) (ans : Answer) :
    (s.completing k ans).env = s.env.take k ++ [{ ans with verdict := .completes }] := rfl

/-- Past the first `n` answers a completing script is that of the state they leave. -/
theorem completing_drop {s u : State} {n j : Nat} (ans : Answer) (h : u.env = s.env.drop n) (hl : n + j < s.env.length) :
    { u with env := (s.completing (n + j) ans).env.drop n } = u.completing j ans := by
  have : (s.completing (n + j) ans).env.drop n = u.env.take j ++ [{ ans with verdict := .completes }] := by
    rw [completing_env, List.drop_append_of_le_length (by simp; omega), h, List.drop_take]
    simp
  rw [this]; rfl

/-- The first primitive that does not complete, if any. -/
theorem quiet_or_first (s : State) (n : Nat) :
    s.Quiet n ∨ ∃ k ans, k < n ∧ s.Quiet k ∧ s.env[k]? = some ans ∧ ans.verdict ≠ .completes := by
  induction n with
  | zero => exact .inl fun ans ha => by simp at ha
  | succ n ih =>
    rcases ih with q | ⟨k, ans, hk, h⟩
    · cases he : s.env[n]? with
      | none =>
        have hl := List.getElem?_eq_none_iff.1 he
        refine .inl fun ans ha => q ans ?_
        rw [List.take_of_length_le hl]
        exact List.mem_of_mem_take ha
      | some ans =>
        by_cases hv : ans.verdict = .completes
        · refine .inl fun a ha => ?_
          rw [List.take_add_one, he] at ha
          rcases List.mem_append.1 ha with ha | ha
          · exact q a ha
          · have : a = ans := by simpa using ha
            rwa [this]
        · exact .inr ⟨n, ans, by omega, q, he, hv⟩
    · exact .inr ⟨k, ans, by omega, h⟩

/-! ### Completed primitives, and an error among them -/

/-- `n` primitives completed and left the events `evs`: what they did to the scope, the latch and the registers (R41, R67). -/
structure Performed (s t : State) (n : Nat) (evs : List Event) : Prop where
  ran : Ran s t n evs
  count : evs.length = n
  primitives : ∀ ev ∈ evs, isPrimitive ev = true
  scope : t.scope = held s.scope evs
  pend : t.chip.pend = latchAfter evs s.chip.pend
  reg : ∀ b, s.Still n b → t.chip.reg b = contentAfter evs b (s.chip.reg b)

/-- Primitive `k`, which was to leave the event `ev`, reported `e` after the events `pre` of the primitives before it
(R222). -/
structure Aborted (s t : State) (k : Nat) (pre : List Event) (ev : Event) (e : TErr) (landed : Bool) (latch : Option Addr)
    (release : Bool) : Prop where
  cfg : t.cfg = s.cfg
  x : t.x = s.x
  cs : t.cs = s.cs
  ready : t.ready = s.ready
  wire : t.wire = s.wire
  inputs : t.inputs = s.inputs
  fault : t.fault = some e
  seq : t.seq = 0
  env : t.env = s.env.drop (k + 1)
  draws : t.draws = s.draws + (k + 1)
  count : pre.length = k
  primitives : ∀ f ∈ pre, isPrimitive f = true
  trace : t.trace = s.trace ++ pre ++ [.err e] ++ (if held s.scope pre && release then [.rel] else [])
  scope : t.scope = (held s.scope pre && !release)
  pend : t.chip.pend = if ev = .acq then latchAfter pre s.chip.pend else latch
  reg : ∀ b, s.Still (k + 1) b →
    t.chip.reg b = contentAfter (if landed = true then pre ++ [ev] else pre) b (s.chip.reg b)

theorem Performed.refl (s : State) : Performed s s 0 [] :=
  ⟨Ran.refl s, rfl, by simp, rfl, rfl, fun _ _ => rfl⟩

theorem Performed.trans {s t u : State} {j k : Nat} {es fs : List Event} (h : Performed s t j es) (g : Performed t u k fs) :
    Performed s u (j + k) (es ++ fs) where
  ran := h.ran.trans g.ran
  count := by simp [h.count, g.count]
  primitives ev he := (List.mem_append.1 he).elim (h.primitives ev) (g.primitives ev)
  scope := by rw [g.scope, h.scope, held_append]
  pend := by rw [g.pend, h.pend, latchAfter_append]
  reg b hb := by rw [g.reg b (h.ran.still hb), h.reg b (still_le hb (by omega)), contentAfter_append]

theorem Performed.abort {s t u : State} {j k : Nat} {es pre : List Event} {ev : Event} {e : TErr} {landed : Bool}
    {latch : Option Addr} {release : Bool} (h : Performed s t j es) (g : Aborted t u k pre ev e landed latch release) :
    Aborted s u (j + k) (es ++ pre) ev e landed latch release where
  cfg := g.cfg.trans h.ran.cfg
  x := g.x.trans h.ran.x
  cs := g.cs.trans h.ran.cs
  ready := g.ready.trans h.ran.ready
  wire := g.wire.trans h.ran.wire
  inputs := g.inputs.trans h.ran.inputs
  fault := g.fault
  seq := g.seq
  env := by rw [g.env, h.ran.env, List.drop_drop]; rfl
  draws := by rw [g.draws, h.ran.draws]; omega
  count := by simp [h.count, g.count]
  primitives f hf := (List.mem_append.1 hf).elim (h.primitives f) (g.primitives f)
  trace := by rw [g.trace, h.ran.trace, h.scope, held_append]; simp
  scope := by rw [g.scope, h.scope, held_append]
  pend := by rw [g.pend, h.pend, latchAfter_append]
  reg b hb := by
    rw [g.reg b (h.ran.still (k := k + 1) hb), h.reg b (still_le hb (by omega)), ← contentAfter_append]
    cases landed <;> simp

/-! ### Programs -/

/-- A sequence of exactly `n` primitives: what it does when they complete, that it looks at no later answer, what an error of
one leaves, and that one that hangs leaves it unfinished (R221, R222). -/
structure Program {α : Type} (f : State → Attempt α) (n : Nat) : Prop where
  completes : ∀ s : State, s.Quiet n → ∃ r t evs, f s = .done r t ∧ Performed s t n evs ∧
    ∀ l : List Answer, n ≤ s.env.length → n ≤ l.length → l.take n = s.env.take n →
      f { s with env := l } = .done r { t with env := l.drop n }
  fails : ∀ (s : State) (k : Nat) (ans : Answer) (e : TErr) (landed : Bool) (latch : Option Addr) (release : Bool),
    k < n → s.Quiet k → s.env[k]? = some ans → ans.verdict = .fails e landed latch release →
    ∃ t r u pre ev post, f s = .failed e t ∧ Aborted s t k pre ev e landed latch release ∧
      f (s.completing k ans) = .done r u ∧ u.trace = s.trace ++ pre ++ ev :: post
  hangs : ∀ (s : State) (k : Nat) (ans : Answer), k < n → s.Quiet k → s.env[k]? = some ans → ans.verdict = .hangs →
    f s = .hung

theorem Program.pure {α : Type} (r : State → α) (hr : ∀ s l, r { s with env := l } = r s) :
    Program (fun s => .done (r s) s) 0 where
  completes s _ := ⟨r s, s, [], rfl, Performed.refl s, fun l _ _ _ => by rw [hr]; simp⟩
  fails _ _ _ _ _ _ _ h := absurd h (by omega)
  hangs _ _ _ h := absurd h (by omega)

theorem Program.andThen {α β : Type} {f : State → Attempt α} {g : α → State → Attempt β} {n m : Nat} (hf : Program f n)
    (hg : ∀ r, Program (g r) m) : Program (fun s => (f s).andThen (g · ·)) (n + m) where
  completes s q := by
    obtain ⟨r, t, es, h1, h2, h3⟩ := hf.completes s (quiet_le q (by omega))
    obtain ⟨r', u, fs, g1, g2, g3⟩ := (hg r).completes t (h2.ran.quiet q)
    refine ⟨r', u, es ++ fs, by simp only [h1, andThen_done, g1], h2.trans g2, fun l hs hl ht => ?_⟩
    have hn := congrArg (List.take n) ht
    rw [List.take_take, List.take_take, Nat.min_eq_left (by omega)] at hn
    have hm := congrArg (List.drop n) ht
    rw [List.drop_take, List.drop_take, Nat.add_sub_cancel_left] at hm
    simp only [h3 l (by omega) (by omega) hn, andThen_done]
    rw [g3 (l.drop n) (by rw [h2.ran.env]; simp; omega) (by simp; omega) (by rw [h2.ran.env]; exact hm), List.drop_drop]
  fails s k ans e landed latch release hk q he hv := by
    by_cases hkn : k < n
    · obtain ⟨t, r, u, pre, ev, post, h1, h2, h3, h4⟩ := hf.fails s k ans e landed latch release hkn q he hv
      obtain ⟨r0, u0, es, c1, c2, -⟩ := hf.completes (s.completing k ans) (quiet_completing ans q n)
      rw [h3] at c1
      cases c1
      obtain ⟨r', u', fs, g1, g2, -⟩ := (hg r).completes u (c2.ran.quiet (quiet_completing ans q (n + m)))
      exact ⟨t, r', u', pre, ev, post ++ fs, by simp only [h1, andThen_failed], h2, by simp only [h3, andThen_done, g1],
        by rw [g2.ran.trace, h4]; simp⟩
    · obtain ⟨j, rfl⟩ : ∃ j, k = n + j := ⟨k - n, by omega⟩
      have hl := (List.getElem?_eq_some_iff.1 he).1
      obtain ⟨r, t, es, h1, h2, h3⟩ := hf.completes s (quiet_le q (by omega))
      obtain ⟨u, r', c, pre, ev, post, g1, g2, g3, g4⟩ := (hg r).fails t j ans e landed latch release (by omega)
        (h2.ran.quiet q) (by rw [h2.ran.env, List.getElem?_drop]; exact he) hv
      refine ⟨u, r', c, es ++ pre, ev, post, by simp only [h1, andThen_done, g1], h2.abort g2, ?_,
        by rw [g4, h2.ran.trace]; simp⟩
      have hc := h3 (s.completing (n + j) ans).env (by omega) (by simp [completing_env]; omega)
        (by rw [completing_env, List.take_append_of_le_length (by simp; omega), List.take_take, Nat.min_eq_left (by omega)])
      rw [completing_drop ans h2.ran.env hl] at hc
      simp only [show f (s.completing (n + j) ans) = _ from hc, andThen_done, g3]
  hangs s k ans hk q he hv := by
    by_cases hkn : k < n
    · simp only [hf.hangs s k ans hkn q he hv, andThen_hung]
    · obtain ⟨j, rfl⟩ : ∃ j, k = n + j := ⟨k - n, by omega⟩
      obtain ⟨r, t, es, h1, h2, -⟩ := hf.completes s (quiet_le q (by omega))
      simp only [h1, andThen_done]
      exact (hg r).hangs t j ans (by omega) (h2.ran.quiet q) (by rw [h2.ran.env, List.getElem?_drop]; exact he) hv

/-! ### The primitives -/

/-- A primitive is a program of one, if its effect counts it, leaves its event, and looks at no later answer (`local_`,
`effect`), and if the chip is left by the completed and by the failed primitive as the event says (`chip`, `spoiled`). -/
theorem Program.primitive {α : Type} (r : Answer → State → α) (eff : Answer → State → State) (ev : Answer → State → Event)
    (spoil : Bool → Option Addr → State → State)
    (local_ : ∀ a t l v, r { a with verdict := v } { t with env := l } = r a t ∧
      ev { a with verdict := v } { t with env := l } = ev a t ∧
      eff { a with verdict := v } { t with env := l } = { eff a t with env := l })
    (effect : ∀ a t, isPrimitive (ev a t) = true ∧
      eff a t = { completed (ev a t) t with scope := held t.scope [ev a t], chip := (eff a t).chip })
    (chip : ∀ a t, (eff a t).chip.pend = latchAfter [ev a t] t.chip.pend ∧
      ∀ b, (eff a t).chip.reg b = contentAfter [ev a t] b (t.chip.reg b))
    (spoiled : ∀ a t landed latch, spoil landed latch t = { t with chip := (spoil landed latch t).chip } ∧
      (spoil landed latch t).chip.pend = (if ev a t = .acq then t.chip.pend else latch) ∧
      ∀ b, (spoil landed latch t).chip.reg b =
        contentAfter (if landed = true then [ev a t] else []) b (t.chip.reg b)) :
    Program (primitive (fun a t => .done (r a t) (eff a t)) spoil) 1 where
  completes s q := by
    have hd : Performed s (eff (nextAnswer s) (takeAnswer s)) 1 [ev (nextAnswer s) (takeAnswer s)] := by
      obtain ⟨hi, he⟩ := effect (nextAnswer s) (takeAnswer s)
      obtain ⟨hp, hr⟩ := chip (nextAnswer s) (takeAnswer s)
      refine ⟨?_, rfl, by simpa using hi, by rw [he]; rfl, by rw [hp]; simp [drift_pend], fun b hb => ?_⟩
      · rw [he]
        exact ⟨rfl, rfl, rfl, rfl, rfl, rfl, rfl, rfl, by simp, rfl, rfl⟩
      · rw [hr]
        exact congrArg _ (still_head hb _)
    refine ⟨_, _, _, primitive_completes (quiet_head q), hd, fun l hs hl ht => ?_⟩
    obtain ⟨ans, rest, hs'⟩ : ∃ ans rest, s.env = ans :: rest := by cases h : s.env <;> simp [h] at hs ⊢
    obtain ⟨ans', rest', rfl⟩ : ∃ ans rest, l = ans :: rest := by cases h : l <;> simp [h] at hl ⊢
    obtain rfl : ans' = ans := by simpa [hs'] using ht
    have hn : nextAnswer s = ans' := by simp [nextAnswer, hs']
    have hn' : nextAnswer { s with env := ans' :: rest' } = ans' := rfl
    have ht' : takeAnswer { s with env := ans' :: rest' } = { takeAnswer s with env := rest' } := by
      simp [takeAnswer, hn, hn']
    obtain ⟨h1, -, h3⟩ := local_ ans' (takeAnswer s) rest' ans'.verdict
    rw [primitive_completes (by rw [hn', ← hn]; exact quiet_head q), hn', ht', hn, h1, h3]
    rfl
  fails s k ans e landed latch release hk q he hv := by
    obtain rfl : k = 0 := by omega
    have hn := nextAnswer_of_head he
    obtain ⟨hi, ho⟩ := effect ans (takeAnswer s)
    obtain ⟨hs, hp, hr⟩ := spoiled ans (takeAnswer s) landed latch
    refine ⟨_, _, _, [], ev ans (takeAnswer s), [], primitive_fails (hn ▸ hv), ?_, primitive_completes ?_, ?_⟩
    · rw [hs]
      refine ⟨by simp, by simp, by simp, by simp, by simp, by simp, by simp, by simp, by simp, by simp, rfl, by simp, ?_,
        ?_, ?_, fun b hb => ?_⟩
      · simp [held]; cases s.scope <;> cases release <;> simp
      · simp [held]
      · rw [takeTransportError_chip, hp]; simp [drift_pend, latchAfter]
      · rw [takeTransportError_chip, hr, show (takeAnswer s).chip.reg b = s.chip.reg b from still_head hb _]; rfl
    · rfl
    · have hn' : nextAnswer (s.completing 0 ans) = { ans with verdict := .completes } := rfl
      have ht' : takeAnswer (s.completing 0 ans) = { takeAnswer s with env := [] } := by
        simp only [takeAnswer, hn, hn']; rfl
      rw [hn', ht', (local_ ans (takeAnswer s) [] .completes).2.2, ho]
      simp
  hangs s k ans hk q he hv := by
    obtain rfl : k = 0 := by omega
    simp [Machine.primitive, nextAnswer_of_head he, hv]

theorem busAcquire_program : Program busAcquire 1 :=
  Program.primitive (fun _ _ => ()) (fun _ t => completed .acq { t with scope := true }) (fun _ _ => .acq) (fun _ _ t => t)
    (fun _ _ _ _ => ⟨rfl, rfl, rfl⟩) (fun _ _ => ⟨rfl, rfl⟩) (fun _ _ => ⟨rfl, fun _ => rfl⟩)
    (fun _ _ landed _ => ⟨rfl, rfl, fun _ => by cases landed <;> rfl⟩)

theorem busRelease_program : Program busRelease 1 :=
  Program.primitive (fun _ _ => ()) (fun _ t => completed .rel { t with scope := false }) (fun _ _ => .rel)
    (fun _ latch t => { t with chip := t.chip.loseLatch latch })
    (fun _ _ _ _ => ⟨rfl, rfl, rfl⟩) (fun _ _ => ⟨rfl, rfl⟩) (fun _ _ => ⟨rfl, fun _ => rfl⟩)
    (fun _ _ landed _ => ⟨rfl, rfl, fun _ => by cases landed <;> rfl⟩)

theorem platformSetup_program (cs : Byte) : Program (platformSetup cs) 1 :=
  Program.primitive (fun _ _ => ()) (fun _ t => completed (.setup cs) t) (fun _ _ => .setup cs)
    (fun _ latch t => { t with chip := t.chip.loseLatch latch })
    (fun _ _ _ _ => ⟨rfl, rfl, rfl⟩) (fun _ _ => ⟨rfl, rfl⟩) (fun _ _ => ⟨rfl, fun _ => rfl⟩)
    (fun _ _ landed _ => ⟨rfl, rfl, fun _ => by cases landed <;> rfl⟩)

/-- A counted exchange is one primitive. -/
theorem busExchange_eq (tx : Frame) (s : State) :
    busExchange tx s = Machine.primitive
      (fun a t => .done (response t.cfg t.chip a)
        { completed (.xchg tx (response t.cfg t.chip a)) t with chip := t.chip.take tx })
      (fun landed latch t => { t with chip := t.chip.takeFailed tx landed latch }) s := by
  unfold busExchange wireExchange Machine.primitive
  cases (nextAnswer s).verdict <;> rfl

theorem busExchange_program (tx : Frame) : Program (busExchange tx) 1 := by
  rw [show busExchange tx = _ from funext (busExchange_eq tx)]
  refine Program.primitive (fun a t => response t.cfg t.chip a)
    (fun a t => { completed (.xchg tx (response t.cfg t.chip a)) t with chip := t.chip.take tx })
    (fun a t => .xchg tx (response t.cfg t.chip a)) _ (fun _ _ _ _ => ⟨rfl, rfl, rfl⟩) (fun _ _ => ⟨rfl, rfl⟩)
    (fun _ t => ⟨?_, fun b => reg_take _ tx b⟩) (fun _ t landed latch => ⟨rfl, rfl, fun b => ?_⟩)
  · simp only [latchAfter, Chip.take]; split <;> rfl
  · show (t.chip.takeFailed tx landed latch).reg b = _
    rw [reg_takeFailed]
    cases landed <;> simp [contentAfter]

/-! ### Transactions and commands -/

theorem memWrite_program (a : Addr) (v : Word) : Program (memWrite a v) 3 :=
  busAcquire_program.andThen (m := 2) fun _ => (busExchange_program _).andThen (m := 1) fun _ => busRelease_program

theorem memRead_program (a : Addr) : Program (memRead a) 4 :=
  busAcquire_program.andThen (m := 3) fun _ => (busExchange_program _).andThen (m := 2) fun _ =>
  (busExchange_program _).andThen (m := 1) fun rx => busRelease_program.andThen (m := 0) fun _ =>
  Program.pure (fun _ => decResp rx) fun _ _ => rfl

theorem editRegister_program (a : Addr) (bit : Nat) (en : Bool) : Program (editRegister a bit en) 7 :=
  (memRead_program a).andThen (m := 3) fun _ => memWrite_program _ _

theorem memWrites_program (ws : List (Addr × Word)) : Program (memWrites ws) (3 * ws.length) := by
  induction ws with
  | nil => exact Program.pure _ fun _ _ => rfl
  | cons w ws ih =>
    rw [List.length_cons, Nat.mul_add, Nat.add_comm]
    exact (memWrite_program w.1 w.2).andThen fun _ => ih

theorem thenRespond_program {α : Type} {f : State → Attempt α} {n : Nat} (h : Program f n) (r : α → Response) :
    Program (thenRespond f r) n :=
  h.andThen (m := 0) fun a => Program.pure (fun _ => r a) fun _ _ => rfl

/-- Begin's last act, once all its primitives have completed (R193). -/
def ended (i : Instr) (t : State) : State := if isBegin i then { t with ready := true } else t

/-- The state in which a command's first primitive starts: cache and handle written (R155, R193, R195). -/
def started (i : Instr) (s : State) : State := { s with x := cacheAfter i s, cs := handleAfter i s }

/-- Every accepted command is a program of `primitiveCount i` primitives, from the state in which its first primitive starts to
its response; it is the same program whatever the answers. -/
theorem exec_program {i : Instr} {s : State} (h : s.Accepts i) :
    ∃ f : State → Attempt Response, Program f (primitiveCount i) ∧
      ∀ l, exec i { s with env := l } =
        finish ((f { started i s with env := l }).andThen fun r t => .done r (ended i t)) := by
  have ready : ∀ f : State → Attempt Response, Program f (primitiveCount i) → isBegin i = false →
      (∀ l, body i { s with env := l } = f { started i s with env := l }) → ∃ f : State → Attempt Response,
      Program f (primitiveCount i) ∧ ∀ l, exec i { s with env := l } =
        finish ((f { started i s with env := l }).andThen fun r t => .done r (ended i t)) := fun f hf hb he => by
    refine ⟨f, hf, fun l => ?_⟩
    rw [exec_eq_body (s := { s with env := l }) h, he]
    cases f { started i s with env := l } <;> simp [ended, hb, Attempt.andThen]
  cases i with
  | beginBlock cs =>
    refine ⟨thenRespond (fun z => (platformSetup cs z).andThen fun _ s2 =>
      memWrites (beginWrites s.cfg s.cfg.profileDefault) s2) fun _ => .ack, thenRespond_program
        ((platformSetup_program cs).andThen (m := 27) fun _ => memWrites_program (beginWrites s.cfg s.cfg.profileDefault)) _,
      fun l => ?_⟩
    rw [exec_eq_body (s := { s with env := l }) h]
    simp only [body, thenRespond]
    have hf := platformSetup_framed cs { s with x := s.cfg.profileDefault, cs := cs, env := l }
    show finish (((platformSetup cs { s with x := s.cfg.profileDefault, cs := cs, env := l }).andThen _).andThen _) =
      finish ((((platformSetup cs { s with x := s.cfg.profileDefault, cs := cs, env := l }).andThen _).andThen _).andThen _)
    cases hp : platformSetup cs { s with x := s.cfg.profileDefault, cs := cs, env := l } with
    | done r u =>
      obtain ⟨hu, -⟩ := sat_done hf hp
      simp only [andThen_done, hu.cfg, hu.x]
      cases memWrites (beginWrites s.cfg s.cfg.profileDefault) u <;> rfl
    | failed e u => rfl
    | hung => rfl
  | write a v =>
    exact ready _ (thenRespond_program (memWrite_program a v) fun _ => .ack) rfl fun _ => rfl
  | read a =>
    exact ready _ (thenRespond_program (memRead_program a) fun p => .statusValue p.1 p.2) rfl fun _ => rfl
  | setRampMode m =>
    exact ready _ (thenRespond_program (memWrite_program s.cfg.map.rampmode (rampWord s.cfg m)) fun _ => .ack) rfl fun _ => rfl
  | jog d =>
    exact ready _ (thenRespond_program ((memRead_program s.cfg.map.xactual).andThen (m := 3) fun p =>
      memWrite_program s.cfg.map.xtarget (p.2 + d)) fun _ => .ack) rfl fun _ => rfl
  | moveTo p =>
    exact ready _ (thenRespond_program (memWrite_program s.cfg.map.xtarget p) fun _ => .ack) rfl fun _ => rfl
  | setVelocity v =>
    exact ready _ (thenRespond_program (memWrite_program s.cfg.map.vmax v) fun _ => .ack) rfl fun _ => rfl
  | enableStealthChop en =>
    exact ready _ (thenRespond_program (editRegister_program s.cfg.map.gconf stealthBit en) fun _ => .ack) rfl fun _ => rfl
  | reverseDirection en =>
    exact ready _ (thenRespond_program (editRegister_program s.cfg.map.gconf reverseBit en) fun _ => .ack) rfl fun _ => rfl
  | setPosition p =>
    exact ready _ (thenRespond_program (memWrite_program s.cfg.map.xactual p) fun _ => .ack) rfl fun _ => rfl
  | getPosition =>
    exact ready _ (thenRespond_program (memRead_program s.cfg.map.xactual) fun p => .value p.2) rfl fun _ => rfl
  | setCurrentLimits d c r =>
    exact ready _ (thenRespond_program ((memWrite_program s.cfg.map.iholdIrun (currentWord d c r)).andThen (m := 7) fun _ =>
      editRegister_program s.cfg.map.chopconf vsenseBit (vsense c r)) fun _ => .ack) rfl fun _ => rfl
  | updateMotionProfile =>
    exact ready _ (thenRespond_program (memWrites_program (commitWrites s.cfg s.x)) fun _ => .ack) rfl fun _ => rfl
  | getEncoderPosition =>
    exact ready _ (thenRespond_program (memRead_program s.cfg.map.xenc) fun p => .value p.2) rfl fun _ => rfl
  | setEncoderPosition p =>
    exact ready _ (thenRespond_program (memWrite_program s.cfg.map.xenc p) fun _ => .ack) rfl fun _ => rfl
  | isStopped =>
    exact ready _ (thenRespond_program (memRead_program s.cfg.map.vactual) fun p => .bool (isZero p.2)) rfl fun _ => rfl
  | setProfileField i v =>
    obtain ⟨k, hk⟩ := profileIndex_of_ok (i := i) h.2.1
    exact ready _ (Program.pure (fun _ => .ack) fun _ _ => rfl) rfl fun l => by
      simp [body, hk, started, cacheAfter, handleAfter]
  | getProfileField i =>
    obtain ⟨k, hk⟩ := profileIndex_of_ok (i := i) h.2.1
    have hf : Program (fun t : State => .done (Response.value t.x[k]) t) 0 := Program.pure _ fun _ _ => rfl
    exact ready _ hf rfl fun l => by simp [body, hk, started, cacheAfter, handleAfter]
  | frameWr a v => cases h.1
  | frameRd a => cases h.1

/-- An accepted command whose primitives complete ends ok with the events of that many primitives. -/
theorem exec_completes {i : Instr} {s : State} (h : s.Accepts i) (q : s.Quiet (primitiveCount i)) :
    ∃ r t evs, exec i s = .next (respond r (ended i t)) ∧ Performed (started i s) t (primitiveCount i) evs := by
  obtain ⟨f, hf, he⟩ := exec_program h
  obtain ⟨r, t, evs, h1, h2, -⟩ := hf.completes (started i s) q
  exact ⟨r, t, evs, by rw [show exec i s = _ from he s.env]; show finish ((f (started i s)).andThen _) = _; rw [h1]; rfl, h2⟩

/-- An accepted command whose primitive `k` reports `e` ends in the transport error of R222, which leaves what `Aborted` says;
the event of primitive `k` is that of the run in which it completes. -/
theorem exec_fails {i : Instr} {s : State} {k : Nat} {ans : Answer} {e : TErr} {landed : Bool} {latch : Option Addr}
    {release : Bool} (h : s.Accepts i) (hk : k < primitiveCount i) (q : s.Quiet k) (he : s.env[k]? = some ans)
    (hv : ans.verdict = .fails e landed latch release) :
    ∃ t u pre ev post, exec i s = .next (respond (.transportError e) t) ∧
      Aborted (started i s) t k pre ev e landed latch release ∧
      exec i (s.completing k ans) = .next u ∧ u.trace = s.trace ++ pre ++ ev :: post := by
  obtain ⟨f, hf, hx⟩ := exec_program h
  obtain ⟨t, r, u, pre, ev, post, h1, h2, h3, h4⟩ := hf.fails (started i s) k ans e landed latch release hk q he hv
  refine ⟨t, respond r (ended i u), pre, ev, post ++ [.resp (encodeResponse r)], ?_, h2, ?_, ?_⟩
  · rw [show exec i s = _ from hx s.env]; show finish ((f (started i s)).andThen _) = _; rw [h1]; rfl
  · rw [show exec i (s.completing k ans) = _ from hx _]
    show finish ((f ((started i s).completing k ans)).andThen _) = _
    rw [h3]; rfl
  · rw [respond_trace, show (ended i u).trace = u.trace by unfold ended; split <;> rfl, h4]; simp [started]

/-- An accepted command whose primitive `k` never returns is stuck (R221). -/
theorem exec_hangs {i : Instr} {s : State} {k : Nat} {ans : Answer} (h : s.Accepts i) (hk : k < primitiveCount i)
    (q : s.Quiet k) (he : s.env[k]? = some ans) (hv : ans.verdict = .hangs) : exec i s = .fault .transportHang := by
  obtain ⟨f, hf, hx⟩ := exec_program h
  rw [show exec i s = _ from hx s.env]
  show finish ((f (started i s)).andThen _) = _
  rw [hf.hangs (started i s) k ans hk q he hv]
  rfl

/-- An accepted command that answers a next state completed its primitives, or one of them reported an error. -/
theorem exec_next_cases {i : Instr} {s t : State} (h : s.Accepts i) (hn : exec i s = .next t) :
    s.Quiet (primitiveCount i) ∨ ∃ k ans e landed latch release, k < primitiveCount i ∧ s.Quiet k ∧ s.env[k]? = some ans ∧
      ans.verdict = .fails e landed latch release := by
  rcases quiet_or_first s (primitiveCount i) with q | ⟨k, ans, hk, q, he, hv⟩
  · exact .inl q
  · cases hc : ans.verdict with
    | completes => exact absurd hc hv
    | fails e landed latch release => exact .inr ⟨k, ans, e, landed, latch, release, hk, q, he, hc⟩
    | hangs => rw [exec_hangs h hk q he hc] at hn; cases hn

end Sys2Proof.Machine
end

