-- ==== Sys2Proof/Laws/Step.lean ====
section
/-! SUPPORT. What one step can be, said once (`step_cases`), and what the two decoders can answer. -/

namespace Sys2Proof

/-- The wire decoder answers a wire frame (R91, R92). -/
theorem decodeFrame_ok {f : Frame} {i : Instr} (h : decodeFrame f = .ok i) :
    i = .frameWr f.addr f.data ∨ i = .frameRd f.addr := by
  unfold decodeFrame at h
  split at h
  · cases h; exact .inl rfl
  · split at h
    · cases h; exact .inr rfl
    · cases h

namespace Machine

/-- The command decoder answers a well-formed command (R99, R110). -/
theorem decodeCmd_ok {w : PortWord} {i : Instr} (h : decodeCmd w = .ok i) : isCommand i = true ∧ i.wf = true := by
  unfold decodeCmd at h
  simp only [aLow, vOnly, noOperands] at h
  repeat' split at h
  all_goals try cases h
  all_goals first | exact ⟨rfl, rfl⟩ | exact ⟨rfl, by assumption⟩

/-! ### The step, by what it takes -/

theorem step_wire {s : State} {f : Frame} (h : s.wire = some f) : step s = acceptFrame f { s with wire := none } := by
  unfold step advance
  split
  · rename_i g hg; rw [h] at hg; cases hg; rfl
  · rename_i hg; rw [h] at hg; cases hg

theorem step_input {s : State} {inp : Input} {rest : List Input} (h : s.wire = none) (hi : s.inputs = inp :: rest) :
    step s = acceptInput inp { s with inputs := rest } := by
  unfold step advance
  split
  · rename_i g hg; rw [h] at hg; cases hg
  · split
    · rename_i he; rw [hi] at he; cases he
    · rename_i j r he; rw [hi] at he; cases he; rfl

/-- Everything a step that answers a next state can have done. -/
theorem step_cases {s t : State} (h : step s = .next t) :
    (∃ f i, s.wire = some f ∧ decodeFrame f = .ok i ∧ exec i { s with wire := none } = .next t) ∨
    (s.wire = none ∧ s.inputs = [] ∧ t = s) ∨
    (∃ w i rest, s.wire = none ∧ s.inputs = .cmd w :: rest ∧ decodeCmd w = .ok i ∧
      exec i (presented w { s with inputs := rest }) = .next t) ∨
    (∃ w e rest, s.wire = none ∧ s.inputs = .cmd w :: rest ∧ decodeCmd w = .error e ∧
      t = takeIllegal (presented w { s with inputs := rest })) ∨
    (∃ rest, s.wire = none ∧ s.inputs = .reset :: rest ∧ t = resetBlock { s with inputs := rest }) ∨
    (∃ d rest, s.wire = none ∧ s.inputs = .chip d :: rest ∧ t = chipActs d { s with inputs := rest }) ∨
    ∃ rest, s.wire = none ∧ s.inputs = .powerCycle :: rest ∧ t = powerCycle { s with inputs := rest } := by
  obtain hw | ⟨f, hw⟩ := Option.eq_none_or_eq_some s.wire
  · obtain hi | ⟨inp, rest, hi⟩ : s.inputs = [] ∨ ∃ inp rest, s.inputs = inp :: rest := by cases s.inputs <;> simp
    · unfold step advance at h
      split at h
      · rename_i g hg; rw [hw] at hg; cases hg
      · split at h
        · cases h; exact .inr (.inl ⟨hw, hi, rfl⟩)
        · rename_i j r he; rw [hi] at he; cases he
    · rw [step_input hw hi] at h
      refine .inr (.inr ?_)
      cases inp with
      | cmd w =>
        rw [acceptInput, acceptCommand] at h
        split at h
        · exact .inl ⟨w, _, rest, hw, hi, ‹_›, h⟩
        · cases h; exact .inr (.inl ⟨w, _, rest, hw, hi, ‹_›, rfl⟩)
      | reset => cases h; exact .inr (.inr (.inl ⟨rest, hw, hi, rfl⟩))
      | chip d => cases h; exact .inr (.inr (.inr (.inl ⟨d, rest, hw, hi, rfl⟩)))
      | powerCycle => cases h; exact .inr (.inr (.inr (.inr ⟨rest, hw, hi, rfl⟩)))
  · rw [step_wire hw, acceptFrame] at h
    split at h
    · exact .inl ⟨f, _, hw, ‹_›, h⟩
    · cases h

end Machine

end Sys2Proof
end

