-- ==== Sys2Proof/Tests/Slice0.lean ====
section
/-! SUPPORT. The model's own tests. Every expected value is the spec's: the vectors S1 to S8, V1 to V77 and the programs P1
to P4 of spec/95_test_vectors.md, by their number, or the patterns of spec/opcode_table.json. At the end, one witness for the
hypotheses of each obligation that has any. -/

namespace Sys2Proof.Tests

open Sys2Proof Sys2Proof.Machine Sys2Proof.Config

/-! ### Well-formedness and decoding -/

theorem test_wf_refuses_set_index_seven : (Instr.setProfileField 7 0).wf = false := by decide
theorem test_wf_refuses_get_index_seven : (Instr.getProfileField 7).wf = false := by decide
theorem test_wf_admits_index_six : (Instr.setProfileField 6 0).wf = true ∧ (Instr.getProfileField 6).wf = true := by decide

-- The words of sections 2.1 to 2.5 and of R92's pattern.
theorem test_decode_begin : decodeTableWord 48 0x01FF00000000 = some (.beginBlock 0xFF) := by decide
theorem test_decode_write : decodeTableWord 48 0x0221FFFFFF9C = some (.write 0x21 (-100)) := by decide
theorem test_decode_read : decodeTableWord 48 0x037F00000000 = some (.read 0x7F) := by decide
theorem test_decode_setRampMode : decodeTableWord 48 0x040300000000 = some (.setRampMode .hold) := by decide
theorem test_decode_jog : decodeTableWord 48 0x0500FFFFEC78 = some (.jog (-5000)) := by decide
theorem test_decode_moveTo : decodeTableWord 48 0x0600000013EC = some (.moveTo 5100) := by decide
theorem test_decode_setVelocity : decodeTableWord 48 0x070000030D40 = some (.setVelocity 200000) := by decide
theorem test_decode_enableStealthChop : decodeTableWord 48 0x080100000000 = some (.enableStealthChop true) := by decide
theorem test_decode_reverseDirection : decodeTableWord 48 0x090000000000 = some (.reverseDirection false) := by decide
theorem test_decode_setPosition : decodeTableWord 48 0x0A0000000000 = some (.setPosition 0) := by decide
theorem test_decode_getPosition : decodeTableWord 48 0x0B0000000000 = some .getPosition := by decide
theorem test_decode_setCurrentLimits : decodeTableWord 48 0x0C0F00C803E8 = some (.setCurrentLimits 15 200 1000) := by
  decide
theorem test_decode_updateMotionProfile : decodeTableWord 48 0x0D0000000000 = some .updateMotionProfile := by decide
theorem test_decode_getEncoderPosition : decodeTableWord 48 0x0E0000000000 = some .getEncoderPosition := by decide
theorem test_decode_setEncoderPosition : decodeTableWord 48 0x0F00FFFFF000 = some (.setEncoderPosition (-4096)) := by decide
theorem test_decode_isStopped : decodeTableWord 48 0x100000000000 = some .isStopped := by decide
theorem test_decode_setProfileField : decodeTableWord 48 0x1106FFFFFFFF = some (.setProfileField 6 0xFFFFFFFF) := by decide
theorem test_decode_getProfileField : decodeTableWord 48 0x120200000000 = some (.getProfileField 2) := by decide
theorem test_decode_frameWr : decodeTableWord 40 0xEC80000001 = some (.frameWr 0x6C 0x80000001) := by decide
theorem test_decode_frameRd : decodeTableWord 40 0x3900000000 = some (.frameRd 0x39) := by decide

/-- All words of section 2.6, the four cases of R110. -/
theorem test_illegal_words : ([0x000000000000, 0x130000000000, 0xFF0000000000, 0x028000000000, 0x02FF00000001,
    0x038100000000, 0x032100000001, 0x040400000000, 0x040000000001, 0x050100000000, 0x080200000000, 0x080100000001,
    0x0B0000000001, 0x0B0100000000, 0x0C1001F401F4, 0x0D0000000001, 0x100100000000, 0x110700000000, 0x120700000000,
    0x110800000000, 0x120200000001, 0x010A00000001] : List PortWord).all
    (fun w => (decodeCmd w).toOption.isNone) = true := by decide

/-- R92: a read-request frame has a zero payload. -/
theorem test_frame_payload_refused : decodeTableWord 40 0x2100000001 = none := by decide

/-- S1: the frames of EncWrite; S3: those of EncRead. -/
theorem test_frames : encWrite 0x7F 0xFFFFFFFF = ⟨0xFF, 0xFF, 0xFF, 0xFF, 0xFF⟩ ∧
    encWrite 0x6C 0x80000001 = ⟨0xEC, 0x80, 0x00, 0x00, 0x01⟩ ∧ encRead 0x21 = ⟨0x21, 0, 0, 0, 0⟩ := by decide

/-- R103's examples of operands: a current in amps, register and mode names, the default of R104. -/
theorem test_assemble : assemble launchParams .setCurrentLimits [.amps 500, .amps 500] = some (.setCurrentLimits 7 500 500) ∧
    assemble launchParams .read [.reg .xtarget] = some (.read 0x2D) ∧
    assemble launchParams .setProfileField [.reg .amax, .int 800] = some (.setProfileField 2 800) ∧
    assemble launchParams .moveTo [.int (-100)] = some (.moveTo 0xFFFFFF9C) ∧
    assemble launchParams .setRampMode [.mode .velocityPositive] = some (.setRampMode .velocityPositive) := by decide

/-! ### States: the instantiation T0, after `begin 10` -/

/-- T0 of 95_test_vectors.md. -/
def t0 : Params :=
  { launchParams with
    profileDefault := #v[1000, 50000, 500, 200000, 700, 1400, 10], chopconfDefault := 0x000100C3
    pwmconfDefault := 0x000401C8 }

/-- A primitive completes; an exchange's status byte is `st`; the chip does nothing. -/
def ok (st : Byte) : Answer := { drift := [], status := st, data := 0, verdict := .completes }

/-- A primitive fails with the error of V71. -/
def broken (landed release : Bool) : Answer :=
  { drift := [], status := 0, data := 0, verdict := .fails 0xDEAD0001 landed none release }

/-- The state after `begin 10`, with some registers given and the answers to come. -/
def at0 (mem : Memory) (env : List Answer) : State :=
  { cfg := t0, x := t0.profileDefault, cs := 0x0A, ready := true, fault := none, seq := 0, scope := false
    chip := { mem := mem, pend := none, epoch := 0 }, wire := none, inputs := [], env := env, draws := 0, trace := [] }

/-- After reset: nothing is ready. -/
def cold (env : List Answer) : State := { at0 [] env with ready := false }

/-- Thirty primitives that complete. -/
def calm (st : Byte) : List Answer := List.replicate 30 (ok st)

/-- What a run left: the frames it sent and the responses it presented. -/
def seen : Host.Outcome State Fault Refusal → Option (List Frame × List PortWord)
  | .next t => some ((exchanges t.trace).map Prod.fst, responses t.trace)
  | _ => none

/-- A look at the next state. -/
def look {α : Type} (f : State → α) : Host.Outcome State Fault Refusal → Option α
  | .next t => some (f t)
  | _ => none

/-- Why a run was refused. -/
def why : Host.Outcome State Fault Refusal → Option Refusal
  | .refused r => some r
  | _ => none

/-! ### One command each -/

-- V64: `begin 0xFF` from reset.
theorem test_begin_frames : seen (exec (.beginBlock 0xFF) (cold (calm 0))) = some (
    [⟨0xA4, 0, 0, 0x03, 0xE8⟩, ⟨0xA5, 0, 0, 0xC3, 0x50⟩, ⟨0xA6, 0, 0, 0x01, 0xF4⟩, ⟨0xA7, 0, 0x03, 0x0D, 0x40⟩,
      ⟨0xA8, 0, 0, 0x02, 0xBC⟩, ⟨0xAA, 0, 0, 0x05, 0x78⟩, ⟨0xAB, 0, 0, 0, 0x0A⟩, ⟨0xEC, 0, 0x01, 0, 0xC3⟩,
      ⟨0xF0, 0, 0x04, 0x01, 0xC8⟩], [0]) := by decide +kernel
theorem test_begin_ready : look (fun t => (t.ready, t.cs, t.trace.head?)) (exec (.beginBlock 0xFF) (cold (calm 0))) =
    some (true, 0xFF, some (.setup 0xFF)) := by decide +kernel

-- V3, V2.
theorem test_write : seen (exec (.write 0x2D 5100) (at0 [] (calm 0))) = some ([⟨0xAD, 0, 0, 0x13, 0xEC⟩], [0]) := by decide
theorem test_write_top : seen (exec (.write 0x7F 0xFFFFFFFF) (at0 [] (calm 0))) =
    some ([⟨0xFF, 0xFF, 0xFF, 0xFF, 0xFF⟩], [0]) := by decide

-- P2 step 3 (status 0x39), with XTARGET in ReadBack as the idle peripheral has it; V8: the stale result is discarded.
theorem test_read : seen (exec (.read 0x2D) { at0 [(0x2D, 5100)] (calm 0x39) with cfg := { t0 with readBack := [0x2D] } }) =
    some ([⟨0x2D, 0, 0, 0, 0⟩, ⟨0x2D, 0, 0, 0, 0⟩], [0x0239000013EC]) := by decide
theorem test_read_stale : seen (exec (.read 0x21)
    { at0 [(0x00, 5), (0x21, 5000)] (calm 0) with chip := { mem := [(0x00, 5), (0x21, 5000)], pend := some 0, epoch := 0 } }) =
    some ([⟨0x21, 0, 0, 0, 0⟩, ⟨0x21, 0, 0, 0, 0⟩], [0x020000001388]) := by decide

-- V12, V13.
theorem test_setRampMode : seen (exec (.setRampMode .velocityNegative) (at0 [] (calm 0))) =
    some ([⟨0xA0, 0, 0, 0, 2⟩], [0]) := by decide
theorem test_setRampMode_hold : seen (exec (.setRampMode .hold) (at0 [] (calm 0))) = some ([⟨0xA0, 0, 0, 0, 3⟩], [0]) := by
  decide

-- V22 (wrap), V21.
theorem test_jog_wraps : seen (exec (.jog 1) (at0 [(0x21, 0x7FFFFFFF)] (calm 0))) =
    some ([⟨0x21, 0, 0, 0, 0⟩, ⟨0x21, 0, 0, 0, 0⟩, ⟨0xAD, 0x80, 0, 0, 0⟩], [0]) := by decide
theorem test_jog_negative : seen (exec (.jog (-100)) (at0 [(0x21, 5000)] (calm 0))) =
    some ([⟨0x21, 0, 0, 0, 0⟩, ⟨0x21, 0, 0, 0, 0⟩, ⟨0xAD, 0, 0, 0x13, 0x24⟩], [0]) := by decide

-- V14, V15, V17, V18.
theorem test_moveTo : seen (exec (.moveTo (-100)) (at0 [] (calm 0))) = some ([⟨0xAD, 0xFF, 0xFF, 0xFF, 0x9C⟩], [0]) := by
  decide
theorem test_setVelocity : seen (exec (.setVelocity 200000) (at0 [] (calm 0))) = some ([⟨0xA7, 0, 0x03, 0x0D, 0x40⟩], [0]) := by
  decide
theorem test_setVelocity_cache : look (fun t => t.x) (exec (.setVelocity 0) (at0 [] (calm 0))) =
    some #v[1000, 50000, 500, 0, 700, 1400, 10] := by decide
theorem test_setPosition : seen (exec (.setPosition 0) (at0 [] (calm 0))) = some ([⟨0xA1, 0, 0, 0, 0⟩], [0]) := by decide
theorem test_setEncoderPosition : seen (exec (.setEncoderPosition (-4096)) (at0 [] (calm 0))) =
    some ([⟨0xB9, 0xFF, 0xFF, 0xF0, 0⟩], [0]) := by decide

-- V19, V20 (the status byte is dropped), S4.
theorem test_getPosition : seen (exec .getPosition (at0 [(0x21, 0xFFFFFF9C)] (calm 0))) =
    some ([⟨0x21, 0, 0, 0, 0⟩, ⟨0x21, 0, 0, 0, 0⟩], [0x0100FFFFFF9C]) := by decide
theorem test_getEncoderPosition : seen (exec .getEncoderPosition (at0 [(0x39, 4096)] (calm 0x55))) =
    some ([⟨0x39, 0, 0, 0, 0⟩, ⟨0x39, 0, 0, 0, 0⟩], [0x010000001000]) := by decide
theorem test_isStopped_true : seen (exec .isStopped (at0 [(0x22, 0)] (calm 0xFF))) =
    some ([⟨0x22, 0, 0, 0, 0⟩, ⟨0x22, 0, 0, 0, 0⟩], [0x030000000001]) := by decide
theorem test_isStopped_top_bit : seen (exec .isStopped (at0 [(0x22, 0x80000000)] (calm 0))) =
    some ([⟨0x22, 0, 0, 0, 0⟩, ⟨0x22, 0, 0, 0, 0⟩], [0x030000000000]) := by decide

-- V31, V33, V36, V35.
theorem test_stealth_on : seen (exec (.enableStealthChop true) (at0 [(0, 0x11)] (calm 0))) =
    some ([⟨0, 0, 0, 0, 0⟩, ⟨0, 0, 0, 0, 0⟩, ⟨0x80, 0, 0, 0, 0x15⟩], [0]) := by decide
theorem test_stealth_off : seen (exec (.enableStealthChop false) (at0 [(0, 0xFFFFFFFF)] (calm 0))) =
    some ([⟨0, 0, 0, 0, 0⟩, ⟨0, 0, 0, 0, 0⟩, ⟨0x80, 0xFF, 0xFF, 0xFF, 0xFB⟩], [0]) := by decide
theorem test_reverse_off : seen (exec (.reverseDirection false) (at0 [(0, 0x15)] (calm 0))) =
    some ([⟨0, 0, 0, 0, 0⟩, ⟨0, 0, 0, 0, 0⟩, ⟨0x80, 0, 0, 0, 0x05⟩], [0]) := by decide
theorem test_reverse_on : seen (exec (.reverseDirection true) (at0 [(0, 0x04)] (calm 0))) =
    some ([⟨0, 0, 0, 0, 0⟩, ⟨0, 0, 0, 0, 0⟩, ⟨0x80, 0, 0, 0, 0x14⟩], [0]) := by decide

-- P3 steps 1 and 2.
theorem test_setCurrentLimits_low : seen (exec (.setCurrentLimits 7 500 500) (at0 [(0x6C, 0x000100C3)] (calm 0))) =
    some ([⟨0x90, 0, 0x07, 0x14, 0x14⟩, ⟨0x6C, 0, 0, 0, 0⟩, ⟨0x6C, 0, 0, 0, 0⟩, ⟨0xEC, 0, 0x03, 0, 0xC3⟩], [0]) := by
  decide +kernel
theorem test_setCurrentLimits_high : seen (exec (.setCurrentLimits 7 1000 1000) (at0 [(0x6C, 0x000300C3)] (calm 0))) =
    some ([⟨0x90, 0, 0x07, 0x17, 0x17⟩, ⟨0x6C, 0, 0, 0, 0⟩, ⟨0x6C, 0, 0, 0, 0⟩, ⟨0xEC, 0, 0x01, 0, 0xC3⟩], [0]) := by
  decide +kernel

-- The table of section 2.4: V42 to V56.
theorem test_current_words_low : currentWord 7 750 750 = 0x00071F1F ∧ currentWord 5 300 600 = 0x0005190C ∧
    currentWord 7 737 738 = 0x00071F1E ∧ currentWord 7 0 0 = 0x00070000 ∧ currentWord 7 11 12 = 0x00070000 := by
  decide +kernel
theorem test_current_words_high : currentWord 7 751 750 = 0x00071111 ∧ currentWord 7 750 751 = 0x00071111 ∧
    currentWord 0 760 760 = 0x00001111 ∧ currentWord 15 200 1000 = 0x000F1704 ∧ currentWord 1 21 1000 = 0x00011700 ∧
    currentWord 7 1351 1352 = 0x00071F1F ∧ currentWord 7 65535 0 = 0x0007001F := by decide +kernel
theorem test_raw_scales : rawScale false 11 = -1 ∧ rawScale false 12 = 0 ∧ rawScale false 737 = 30 ∧ rawScale false 738 = 31 ∧
    rawScale true 20 = -1 ∧ rawScale true 21 = 0 ∧ rawScale true 1351 = 31 ∧ rawScale true 1352 = 32 ∧
    rawScale true 65535 = 1575 := by decide +kernel
theorem test_refuse_policy : currentsAccepted .refuse 11 12 = false ∧ currentsAccepted .refuse 1351 1352 = false ∧
    currentsAccepted .refuse 21 1000 = true ∧ currentsAccepted .refuse 1351 1351 = true := by decide +kernel

-- V63; V60 to V62.
theorem test_updateMotionProfile : seen (exec .updateMotionProfile (at0 [] (calm 0))) = some (
    [⟨0xA4, 0, 0, 0x03, 0xE8⟩, ⟨0xA5, 0, 0, 0xC3, 0x50⟩, ⟨0xA6, 0, 0, 0x01, 0xF4⟩, ⟨0xA7, 0, 0x03, 0x0D, 0x40⟩,
      ⟨0xA8, 0, 0, 0x02, 0xBC⟩, ⟨0xAA, 0, 0, 0x05, 0x78⟩, ⟨0xAB, 0, 0, 0, 0x0A⟩], [0]) := by decide +kernel
theorem test_setProfileField : look (fun t => (t.x, t.trace)) (exec (.setProfileField 6 0xFFFFFFFF) (at0 [] [])) =
    some (#v[1000, 50000, 500, 200000, 700, 1400, 0xFFFFFFFF], [.resp 0]) := by decide
theorem test_getProfileField : seen (exec (.getProfileField 2) { at0 [] [] with x := (at0 [] []).x.set 2 800 }) =
    some ([], [0x010000000320]) := by decide

-- R67: the frames on their own.
theorem test_frameWr : look (fun t => (t.chip.mem, t.chip.pend, t.trace)) (exec (.frameWr 0x6C 0x80000001) (at0 [] [ok 9])) =
    some ([(0x6C, 0x80000001)], none, [.xchg ⟨0xEC, 0x80, 0, 0, 1⟩ ⟨9, 0, 0, 0, 0⟩]) := by decide
theorem test_frameRd : look (fun t => (t.chip.mem, t.chip.pend, t.trace)) (exec (.frameRd 0x21)
    { at0 [(0, 0x15)] [ok 9] with chip := { mem := [(0, 0x15)], pend := some 0, epoch := 0 } }) =
    some ([(0, 0x15)], some 0x21, [.xchg ⟨0x21, 0, 0, 0, 0⟩ ⟨9, 0, 0, 0, 0x15⟩]) := by decide

/-! ### Refusals and transport errors (section 2.7) -/

-- V70: before `begin` a command is refused, an illegal word is not.
theorem test_refused_before_begin : why (exec .getPosition (cold [])) = some .notReady := by decide
theorem test_illegal_before_begin : seen (step { cold [] with inputs := [.cmd 0] }) = some ([], [0xEF0000000000]) := by decide

-- V71: the request exchange fails; with and without the release.
theorem test_error_released : look (fun t => (t.trace, t.fault, t.scope)) (exec (.read 0x21) (at0 [] [ok 0, broken false true])) =
    some ([.acq, .err 0xDEAD0001, .rel, .resp 0xE000DEAD0001], some 0xDEAD0001, false) := by decide
theorem test_error_held : look (fun t => (t.trace, t.scope)) (exec (.read 0x21) (at0 [] [ok 0, broken false false])) =
    some ([.acq, .err 0xDEAD0001, .resp 0xE000DEAD0001], true) := by decide

-- V73: the acquire fails: nothing to release.
theorem test_acquire_fails : look (fun t => t.trace) (exec (.write 0x2D 1) (at0 [] [broken false true])) =
    some [.err 0xDEAD0001, .resp 0xE000DEAD0001] := by decide

-- R222, log 34: a failed release leaves the register written and the latch a draw; V73: a failed acquire leaves the latch alone.
theorem test_release_fails : look (fun t => (t.chip.mem, t.chip.pend, t.scope)) (exec (.write 0x2D 1)
    (at0 [] [ok 0, ok 0, { ok 0 with verdict := .fails 1 false (some 0x7F) false }])) = some ([(0x2D, 1)], some 0x7F, true) := by
  decide
theorem test_acquire_fails_latch : look (fun t => t.chip.pend) (exec (.write 0x2D 1)
    { at0 [] [{ ok 0 with verdict := .fails 1 false (some 0x7F) false }] with chip := { mem := [], pend := some 2, epoch := 0 } }) =
    some (some 2) := by decide

-- V72, V76: a failed frame's register is old or new by the draw, its latch the draw.
theorem test_frame_fails : look (fun t => (t.chip.reg 0x2D, t.chip.pend, t.fault, t.trace)) (exec (.frameWr 0x2D 1)
    { at0 [(0x2D, 9)] [broken true true] with scope := true }) = some (1, none, some 0xDEAD0001, [.err 0xDEAD0001, .rel]) ∧
    look (fun t => t.chip.reg 0x2D) (exec (.frameWr 0x2D 1) (at0 [(0x2D, 9)] [broken false true])) = some 9 := by decide

-- P4 step 5: the sixth write of the commit fails and did not arrive: D1 old, VSTOP never written.
theorem test_commit_prefix : look (fun t => ([0x28, 0x2A, 0x2B].map fun a : Addr => t.chip.reg a, t.fault))
    (exec .updateMotionProfile (at0 [(0x2A, 1), (0x2B, 2)] (List.replicate 16 (ok 0) ++ [broken false true]))) =
    some ([700, 1, 2], some 0xDEAD0001) := by decide +kernel

-- V77: after an error a legal command is refused, an illegal word is not, and reset clears the latch.
theorem test_refused_after_error : why (exec (.write 0 0) { at0 [] [] with fault := some 1 }) = some .faultLatched := by decide
theorem test_reset_clears : look (fun t => (t.ready, t.fault)) (step { at0 [] [] with fault := some 1, inputs := [.reset] }) =
    some (false, none) := by decide

-- U18.
theorem test_hang : exec (.write 0 0) (at0 [] [{ ok 0 with verdict := .hangs }]) = .fault .transportHang := by rfl

/-! ### The step -/

-- The first instruction after reset, as the host places it.
theorem test_step_command : look (fun t => t.trace) (step ({ cold (calm 0) with inputs := [] }.withFetchWord 48 0x0600000013EC)) =
    some [.cmd 0x0600000013EC, .acq, .xchg ⟨0xAD, 0, 0, 0x13, 0xEC⟩ ⟨0, 0, 0, 0, 0⟩, .rel, .resp 0] := by decide
theorem test_step_frame : look (fun t => t.chip.mem) (step ((cold [ok 0]).withFetchWord 40 0xA1FFFFFF9C)) =
    some [(0x21, 0xFFFFFF9C)] := by decide
theorem test_step_reset_state : look (fun t => t.x[6]) (step (State.reset.withFetchWord 48 0x1106FFFFFFFF)) =
    some 0xFFFFFFFF := by rfl

/-! ### Witnesses: each obligation's hypotheses met together, at the boundary values of its clauses -/

/-- All hypotheses about a completing command at once: T0 is a legal choice of the parameters, the state is ready, the next 28
primitives complete and the chip is still. It serves WriteFrameStoresAndClearsTheLatch, ReadRequestFrameSetsTheLatch,
ResponseDataBelongToThePreviousRequest, WriteStoresItsWord, ReadAnswersFromTheSecondExchange, ConsecutiveReadsDoNotMix,
RegisterCommandsWriteTheirRegister, SetVelocityWritesCacheAndChip, PositionReadsAnswerTheValue, IsStoppedIffVelocityReadsZero,
JogWritesPositionPlusDelta, GconfCommandsEditOneBit, StealthOnThenOffKeepsTheOtherBits, StealthAndReverseCompose,
SetCurrentLimitsWritesScalesThenSelector (with `witness_Policies`) and CommitWritesTheSevenInOrder. -/
theorem witness_completing_command : (at0 [] (calm 0)).cfg.wf ∧ (at0 [] (calm 0)).Runs ∧ (at0 [] (calm 0)).Quiet 28 ∧
    (∀ b : Addr, (at0 [] (calm 0)).Still 28 b) ∧ (at0 [] (calm 0)).Readable 0x21 ∧ (at0 [] (calm 0)).Readable 0x6C ∧
    ¬ (at0 [] (calm 0)).Readable 0x7F := by
  refine ⟨by decide, by decide, by decide, fun b => .inr ⟨by decide, fun ans ha m hm => ?_⟩, by decide, by decide, by decide⟩
  have : ans = ok 0 := List.eq_of_mem_replicate (List.mem_of_mem_take ha)
  subst this
  cases hm

theorem witness_DecodeOfEncode : (Instr.setProfileField 6 0xFFFFFFFF).wf = true ∧ (Instr.getProfileField 0).wf = true ∧
    (Instr.setCurrentLimits 15 65535 65535).wf = true ∧ (Instr.frameWr 0x7F 0).wf = true := by decide

theorem witness_EncodeOfDecode : decodeWord 0x007F00000000 = .ok (.frameRd 0x7F) ∧
    decodeWord 0x0C0FFFFFFFFF = .ok (.setCurrentLimits 15 65535 65535) ∧ decodeCmd 0x120600000000 = .ok (.getProfileField 6) := by
  decide

theorem witness_IllegalWords : ({ cold [] with inputs := [.cmd 0x130000000000] } : State).wire = none ∧
    decodeCmd 0x130000000000 = .error .undefinedOpcode ∧ decodeCmd 0x010A00000001 = .error .unusedFieldNotZero ∧
    decodeCmd 0x0C1000000000 = .error .reservedBitsNotZero ∧ decodeCmd 0x110700000000 = .error .profileIndexSeven := by decide

theorem witness_FramesOfTheCodec : (0x7F#8).toNat ≤ 0x7F ∧ encWrite 0x21 5 = encWrite 0xA1 5 ∧ encRead 0x21 = encRead 0x21 := by
  decide

theorem witness_EditBit : 31 < 32 ∧ editBit 0 31 true = 0x80000000 ∧ editBit 0xFFFFFFFF 31 false = 0x7FFFFFFF := by decide

/-- The latch holds a register that is readable, one that is not, or nothing. -/
theorem witness_Answered : (at0 [] [ok 0]).chip.pend = none ∧ (at0 [] [ok 0]).env = ok 0 :: [] ∧
    ({ at0 [] [ok 0] with chip := { mem := [], pend := some 0x21, epoch := 0 } } : State).Still 1 0x21 ∧
    (at0 [] [ok 0]).Readable 0x21 ∧ ¬ (at0 [] [ok 0]).Readable 0x20 ∧ (at0 [] [ok 0]).Quiet 1 :=
  ⟨rfl, rfl, .inr ⟨Nat.le_refl 1, fun ans ha m hm => by rw [List.mem_singleton.1 ha] at hm; cases hm⟩, by decide, by decide,
    by decide⟩

/-- For ReadBackRegistersAreIdempotent, with `witness_completing_command`. -/
theorem witness_ReadBack : (0x00#7) ∈ t0.readBack ∧ (0x00#7) ∉ t0.volatile ∧ (at0 [] (calm 0)).Quiet 8 := by decide

/-- A script that has run out: the free answers complete too, and a register outside Volatile is still. -/
theorem witness_ReadPastTheScript : (at0 [] []).Runs ∧ (at0 [] []).Quiet 4 ∧ (at0 [] []).Still 4 0x00 := by decide

/-- The status clause of ReadAnswersFromTheSecondExchange. -/
theorem witness_ReadStatus : (at0 [] (calm 7)).env[2]? = some (ok 7) ∧ ¬ (at0 [] (calm 7)).Readable 0x7F := by decide

theorem witness_JogInRange : -2 ^ 31 ≤ (0x7FFFFFFF#32).toInt + (0#32).toInt ∧ (0x7FFFFFFF#32).toInt + (0#32).toInt < 2 ^ 31 := by
  decide

theorem witness_SetVelocityFailure : ∀ k : Fin 3,
    (at0 [] (List.replicate k (ok 0) ++ [broken true true])).Runs ∧
    (at0 [] (List.replicate k (ok 0) ++ [broken true true])).Quiet k ∧
    (at0 [] (List.replicate k (ok 0) ++ [broken true true])).env[k.val]? = some (broken true true) := by decide

/-- The boundary values of R186 and R187. -/
theorem witness_Scales : rawScale false 0 = -1 ∧ rawScale false 11 = -1 ∧ rawScale false 12 = 0 ∧ rawScale false 750 = 31 ∧
    rawScale true 1310 = 30 ∧ rawScale true 1311 = 31 ∧ rawScale true 1351 = 31 ∧ rawScale true 1352 = 32 := by decide +kernel

theorem witness_Policies : currentsAccepted .clamp 0 65535 = true ∧ currentsAccepted .refuse 750 750 = true ∧
    currentsAccepted .refuse 0 750 = false ∧ ({ at0 [] [] with cfg := { t0 with policy := .refuse } } : State).Runs := by
  decide +kernel

/-- CommitErrorLeavesAPrefix at each of the 21 primitives: the acquire, the exchange and the release of every write. -/
theorem witness_CommitError : (at0 [] []).cfg.wf ∧ (at0 [] []).Runs ∧ ∀ n : Fin 21,
    (at0 [] (List.replicate n (ok 0) ++ [broken true false])).Quiet n ∧
    (at0 [] (List.replicate n (ok 0) ++ [broken true false])).env[n.val]? = some (broken true false) ∧
    ∀ j : Fin 7, (at0 [] (List.replicate n (ok 0) ++ [broken true false])).Still (n + 1) (t0.map.addr profileRegs[j]) := by
  refine ⟨by decide, by decide, ?_⟩
  decide +kernel

theorem witness_Begin : (cold (calm 0)).fault = none ∧ (cold (calm 0)).Quiet 28 ∧ (cold (calm 0)).cfg.wf ∧
    (cold (calm 0)).Still 28 t0.map.pwmconf := by decide

theorem witness_BeginSetupFailure : (cold [broken false true]).fault = none ∧ (cold [broken false true]).scope = false ∧
    (cold [broken false true]).env = broken false true :: [] ∧ (cold [broken false true]).Still 1 0x00 := by decide

/-- BeginErrorLeavesAPrefix at the setup, at an acquire, an exchange and a release, and at the last primitive. -/
theorem witness_BeginError : ∀ k ∈ [0, 1, 2, 3, 23, 26, 27],
    (cold (List.replicate k (ok 0) ++ [broken true true])).fault = none ∧
    (cold (List.replicate k (ok 0) ++ [broken true true])).Quiet k ∧
    (cold (List.replicate k (ok 0) ++ [broken true true])).env[k]? = some (broken true true) ∧
    (cold (List.replicate k (ok 0) ++ [broken true true])).Still (k + 1) t0.map.chopconf := by decide

/-- WireFrameErrors: a frame landed, a frame not landed, and one that never returns. -/
theorem witness_WireFrameErrors : (at0 [] [broken true false]).env[0]? = some (broken true false) ∧
    (broken true false).verdict = .fails 0xDEAD0001 true none false ∧
    (broken false true).verdict = .fails 0xDEAD0001 false none true ∧ (at0 [] [broken true false]).Still 1 0x21 ∧
    ({ ok 0 with verdict := .hangs } : Answer).verdict = .hangs := by
  exact ⟨rfl, rfl, rfl, .inr ⟨Nat.le_refl 1, fun ans ha m hm => by rw [List.mem_singleton.1 ha] at hm; cases hm⟩, rfl⟩

theorem witness_ProfileFields : (0#3).toNat = (0 : Fin 7).val ∧ (6#3).toNat = (6 : Fin 7).val ∧ (at0 [] []).Runs := by decide

/-- An accepted command with its last primitive failing: the release of `begin`'s ninth write, and with it the hang. It serves
HangingPrimitiveStopsTheRun and the two statements about a transport error at primitive k. -/
theorem witness_LastPrimitive : (cold (List.replicate 27 (ok 0) ++ [broken true true])).Accepts (.beginBlock 1) ∧
    27 < primitiveCount (.beginBlock 1) ∧ (cold (List.replicate 27 (ok 0) ++ [broken true true])).Quiet 27 ∧
    (cold (List.replicate 27 (ok 0) ++ [broken true true])).env[27]? = some (broken true true) ∧
    ({ ok 0 with verdict := .hangs } : Answer).verdict = .hangs := by
  refine ⟨⟨rfl, rfl, rfl, .inl rfl, fun _ _ _ h => by cases h⟩, by decide, by decide, by decide, rfl⟩

theorem witness_Accepts_currents : (at0 [] (calm 0)).Accepts (.setCurrentLimits 7 65535 0) :=
  ⟨rfl, rfl, rfl, .inr rfl, fun _ _ _ _ => rfl⟩

theorem witness_Refused : (cold []).ready = false ∧ isBegin .getPosition = false ∧ Instr.getPosition.wf = true ∧
    ({ at0 [] [] with fault := some 1 } : State).fault.isSome = true ∧ isCommand (.beginBlock 0) = true := by decide

theorem witness_Step : ({ at0 [] [] with inputs := [.cmd 0x0B0000000000] } : State).wire = none ∧
    decodeCmd 0x0B0000000000 = .ok .getPosition ∧
    ({ at0 [] [] with wire := some ⟨0xA1, 0, 0, 0, 1⟩ } : State).wire = some ⟨0xA1, 0, 0, 0, 1⟩ ∧
    decodeFrame ⟨0xA1, 0, 0, 0, 1⟩ = .ok (.frameWr 0x21 1) := by decide

theorem witness_Outside : (at0 [] []).wire = none ∧ ({ at0 [] [] with inputs := [.reset] } : State).inputs = .reset :: [] ∧
    ({ at0 [] [] with inputs := [.powerCycle] } : State).inputs = .powerCycle :: [] ∧
    ({ at0 [] [] with inputs := [.chip [(0x00, 1), (0x21, 9)]] } : State).inputs = .chip ([(0x00, 1)] ++ [(0x21, 9)]) :: [] ∧
    (0x21#7) ∈ t0.volatile ∧ (0x00#7) ∉ t0.volatile ∧ (at0 [] []).inputs = [] := by decide

/-- FirstExchangeAfterPowerUpReturnsADraw, with a readable register pending before the power-cycle. -/
theorem witness_PowerUp : look (fun t => (t.chip.pend, t.chip.mem, t.env)) (step { at0 [(0x00, 5)] [ok 9] with
      inputs := [.powerCycle], chip := { mem := [(0x00, 5)], pend := some 0x00, epoch := 0 } }) = some (none, [], [ok 9]) ∧
    (ok 9).verdict = .completes ∧ ({ at0 [] [ok 9] with inputs := [.powerCycle] } : State).wire = none := by decide

-- R68 (b): the data of the first exchange after power-up are the draw, not the content requested before it.
theorem test_power_up : look (fun t => t.trace) (exec (.frameRd 0x00) (powerCycle
    { at0 [] [{ ok 9 with data := 0x12345678 }] with chip := { mem := [(0x00, 5)], pend := some 0x00, epoch := 0 } })) =
    some [.xchg ⟨0, 0, 0, 0, 0⟩ ⟨9, 0x12, 0x34, 0x56, 0x78⟩] := by decide

theorem witness_Invariant : (at0 [] []).Inv ∧ look (fun t => t.seq) (step { at0 [] [] with inputs := [.cmd 0x110000000001] }) =
    some 0 := by decide

theorem witness_CacheChanges : look (fun t => decide (t.x ≠ (at0 [] []).x)) (step { at0 [] [] with inputs := [.cmd 0x110000000001] }) =
    some true ∧ look (fun t => decide (t.x ≠ (at0 [] []).x)) (step { at0 [] (calm 0) with inputs := [.cmd 0x070000000000] }) =
    some true := by decide

theorem witness_HandleChanges : look (fun t => (t.cs, decide (t.cs ≠ (at0 [] []).cs)))
    (step { at0 [] (calm 0) with inputs := [.cmd 0x01FF00000000] }) = some (0xFF, true) ∧
    decodeCmd 0x01FF00000000 = .ok (.beginBlock 0xFF) := by decide +kernel

theorem witness_ReadyChanges : look (fun t => t.ready) (step { cold (calm 0) with inputs := [.cmd 0x010A00000000] }) = some true ∧
    look (fun t => t.ready) (step { at0 [] [] with inputs := [.reset] }) = some false := by decide +kernel

theorem witness_LatchCleared : look (fun t => t.fault) (step { at0 [] [] with fault := some 1, inputs := [.reset] }) = some none := by
  decide

/-- A register changed by a run that ends in an error at the landed write frame itself, and one changed before the error. -/
theorem witness_RegisterChangesInError : (at0 [(0x24, 1)] [ok 0, broken true true]).env[1]? = some (broken true true) ∧
    look (fun t => (t.fault, t.chip.reg 0x24)) (exec (.write 0x24 7) (at0 [(0x24, 1)] [ok 0, broken true true])) =
      some (some 0xDEAD0001, 7) ∧
    look (fun t => (t.fault, t.chip.reg 0x24)) (exec (.write 0x24 7) (at0 [(0x24, 1)] [ok 0, ok 0, broken true true])) =
      some (some 0xDEAD0001, 7) ∧
    look (fun t => t.trace) (exec (.write 0x24 7) ((at0 [(0x24, 1)] [ok 0, broken true true]).completing 1 (broken true true))) =
      some [.acq, .xchg ⟨0xA4, 0, 0, 0, 7⟩ ⟨0, 0, 0, 0, 0⟩, .rel, .resp 0] := by decide

theorem witness_RegisterChanges : look (fun t => (t.fault, t.chip.reg 0x24)) (exec (.write 0x24 7) (at0 [(0x24, 1)] (calm 0))) =
    some (none, 7) ∧ (0x24#7) ∉ t0.volatile ∧ (at0 [(0x24, 1)] (calm 0)).chip.reg 0x24 = 1 := by decide

theorem witness_StatusBytes : List.Forall₂ (fun a b : Answer => a.drift = b.drift ∧ a.data = b.data ∧ a.verdict = b.verdict)
    (at0 [(0x22, 0)] [ok 0, ok 0, ok 0, ok 0]).env [ok 1, ok 2, ok 3, ok 0xFF] ∧
    seen (exec .isStopped (at0 [(0x22, 0)] [ok 0, ok 0, ok 0, ok 0])) =
      some ([⟨0x22, 0, 0, 0, 0⟩, ⟨0x22, 0, 0, 0, 0⟩], [0x030000000001]) := by
  refine ⟨?_, by decide⟩
  repeat' constructor

theorem witness_WholeTransactions : isCommand (.jog 1) = true ∧ (Instr.jog 1).wf = true ∧
    look (fun t => (t.fault, t.draws, (exchanges t.trace).length)) (exec (.jog 1) (at0 [(0x21, 0)] (calm 0))) = some (none, 7, 3) := by
  decide

/-- An accepted command none of whose primitives hangs, though one of them fails. -/
theorem witness_Ends : (at0 [] [ok 0, broken true true]).Accepts (.write 0 0) ∧
    ∀ ans ∈ (at0 [] [ok 0, broken true true]).env.take (primitiveCount (.write 0 0)), ans.verdict ≠ .hangs :=
  ⟨⟨rfl, rfl, rfl, .inr rfl, fun _ _ _ h => by cases h⟩, by decide⟩

theorem witness_ErrorLatched : look (fun t => (t.trace, t.fault)) (exec (.write 0 0) (at0 [] [broken true true])) =
    some ([] ++ [.err 0xDEAD0001, .resp 0xE000DEAD0001], some 0xDEAD0001) := by decide

/-- The two responses of a read under two status bytes, and the third answer each run takes. -/
theorem witness_StatusOfRead : look (fun t => (t.fault, responses t.trace))
    (exec (.read 0x21) (at0 [(0x21, 5000)] [ok 1, ok 2, ok 0x39, ok 4])) = some (none, [0x023900001388]) ∧
    look (fun t => (t.fault, responses t.trace)) (exec (.read 0x21) (at0 [(0x21, 5000)] [ok 5, ok 6, ok 0xFF, ok 8])) =
      some (none, [0x02FF00001388]) ∧
    [ok 1, ok 2, ok 0x39, ok 4][2]? = some (ok 0x39) ∧ [ok 5, ok 6, ok 0xFF, ok 8][2]? = some (ok 0xFF) := by decide

theorem witness_RampMode : (at0 [] (calm 0)).Still 3 t0.map.rampmode ∧ t0.map.rampmode ∉ t0.volatile ∧
    look (fun t => t.chip.rampMode t.cfg) (exec (.setRampMode .hold) (at0 [(0x20, 3)] (calm 0))) = some (some .hold) ∧
    look (fun t => t.chip.rampMode t.cfg) (exec (.moveTo 1) (at0 [(0x20, 2)] (calm 0))) = some (some .velocityNegative) := by
  decide

theorem witness_NoOtherBusMaster : look (fun t => t.wire) (step { at0 [] [ok 0] with wire := some ⟨0x21, 0, 0, 0, 0⟩ }) = some none := by
  decide

theorem witness_Assembler : assemble t0 .setCurrentLimits [.amps 65535, .amps 0] = some (.setCurrentLimits 7 65535 0) := by decide

end Sys2Proof.Tests
end

section
/-! PROOFS. What a step runs: the instruction that the command word, or the frame on the wire, decodes to (R7, R24, R78). -/

namespace Sys2Proof.Machine

/-- A frame that decodes to `i` is accepted by running `i`. -/
theorem acceptFrame_of_decodeFrame {f : Frame} {i : Instr} (h : decodeFrame f = .ok i) (s : State) :
    acceptFrame f s = exec i s := by
  simp only [acceptFrame, h]

/-- A word that decodes to `i` is accepted by running `i` on the state with the word presented (R223). -/
theorem acceptInput_cmd_of_decodeCmd {w : PortWord} {i : Instr} (h : decodeCmd w = .ok i) (s : State) :
    acceptInput (.cmd w) s = exec i (presented w s) := by
  simp only [acceptInput, acceptCommand, h]

/-- Settles O40: the step takes the word or the frame, and accepting what it took runs what it decodes to. -/
theorem stepRunsTheDecodedInstruction : Obligations.StepRunsTheDecodedInstruction := by
  refine ⟨fun s w rest i hwire hinputs hdecode => ?_, fun s f i hwire hdecode => ?_⟩
  · calc step s = acceptInput (.cmd w) { s with inputs := rest } := step_input hwire hinputs
      _ = exec i (presented w { s with inputs := rest }) := acceptInput_cmd_of_decodeCmd hdecode _
      _ = exec i { s with inputs := rest, trace := s.trace ++ [.cmd w] } := rfl
  · calc step s = acceptFrame f { s with wire := none } := step_wire hwire
      _ = exec i { s with wire := none } := acceptFrame_of_decodeFrame hdecode _

end Sys2Proof.Machine
end

section
/-! PROOFS. What an instruction that answers a next state leaves behind it, said once for all of them (`exec_next`): the frame
of its sequence of primitives, the bus scope, and the registers it does not write (spec/10_state.md R21 to R28, R41, R72). -/

namespace Sys2Proof.Machine

/-! ### Registers that are not written -/

/-- From `s` to `t` no register changed but those of `W` and the Volatile ones (R72). -/
structure KeepsOutside (W : List Addr) (s t : State) : Prop where
  cfg : t.cfg = s.cfg
  reg : ∀ b, b ∉ s.cfg.volatile → b ∉ W → t.chip.reg b = s.chip.reg b

theorem KeepsOutside.refl (W : List Addr) (s : State) : KeepsOutside W s s := ⟨rfl, fun _ _ _ => rfl⟩

theorem KeepsOutside.trans {W : List Addr} {s t u : State} (h : KeepsOutside W s t) (k : KeepsOutside W t u) :
    KeepsOutside W s u :=
  ⟨k.cfg.trans h.cfg, fun b hv hw => (k.reg b (h.cfg ▸ hv) hw).trans (h.reg b hv hw)⟩

/-- A sequence keeps the registers outside `W`, whether it completes or fails. -/
abbrev Attempt.Keeps {α : Type} (W : List Addr) (s : State) (t : Attempt α) : Prop :=
  t.Sat (fun _ u => KeepsOutside W s u) (fun _ u => KeepsOutside W s u)

theorem keeps_andThen {α β : Type} {W : List Addr} {s : State} {t : Attempt α} {k : α → State → Attempt β}
    (h : t.Keeps W s) (hk : ∀ r u, (k r u).Keeps W u) : (t.andThen k).Keeps W s :=
  sat_andThen h fun r u hu => sat_mono (hk r u) (fun _ _ hv => hu.trans hv) fun _ _ hv => hu.trans hv

/-- Taking an answer changes Volatile registers alone (R72); `t` is what the primitive made of the registers then. -/
theorem keeps_of_takeAnswer {W : List Addr} {s t : State} (hc : t.cfg = s.cfg)
    (hr : ∀ b, b ∉ W → t.chip.reg b = (takeAnswer s).chip.reg b) : KeepsOutside W s t :=
  ⟨hc, fun b hv hw => (hr b hw).trans (reg_drift_nonvolatile _ _ hv)⟩

theorem takeTransportError_keeps {W : List Addr} {s t : State} (e : TErr) (r : Bool) (h : KeepsOutside W s t) :
    KeepsOutside W s (takeTransportError e r t) :=
  ⟨by simpa using h.cfg, fun b hv hw => by simpa using h.reg b hv hw⟩

theorem busAcquire_keeps (W : List Addr) (s : State) : (busAcquire s).Keeps W s :=
  primitive_sat (keeps_of_takeAnswer rfl fun _ _ => rfl) fun e _ _ r _ =>
    takeTransportError_keeps e r (keeps_of_takeAnswer rfl fun _ _ => rfl)

theorem busRelease_keeps (W : List Addr) (s : State) : (busRelease s).Keeps W s :=
  primitive_sat (keeps_of_takeAnswer rfl fun _ _ => rfl) fun e _ _ r _ =>
    takeTransportError_keeps e r (keeps_of_takeAnswer rfl fun _ _ => loseLatch_reg ..)

theorem platformSetup_keeps (W : List Addr) (cs : Byte) (s : State) : (platformSetup cs s).Keeps W s :=
  primitive_sat (keeps_of_takeAnswer rfl fun _ _ => rfl) fun e _ _ r _ =>
    takeTransportError_keeps e r (keeps_of_takeAnswer rfl fun _ _ => loseLatch_reg ..)

/-- An exchange keeps every register but the one its frame writes, also when it fails (R67, R222). -/
theorem wireExchange_keeps {W : List Addr} {tx : Frame} (h : tx.isWrite = true → tx.addr ∈ W) (s : State) :
    (wireExchange tx s).Keeps W s := by
  have unwritten : ∀ b, b ∉ W → ¬ (tx.isWrite = true ∧ b = tx.addr) := fun b hw ⟨hi, hb⟩ => hw (hb ▸ h hi)
  refine primitive_sat (keeps_of_takeAnswer rfl fun b hw => ?_) fun e landed latch r _ =>
    takeTransportError_keeps e r (keeps_of_takeAnswer rfl fun b hw => ?_)
  · exact (reg_take _ _ _).trans (if_neg (unwritten b hw))
  · exact (reg_takeFailed ..).trans (if_neg fun hc => unwritten b hw hc.2)

theorem busExchange_keeps {W : List Addr} {tx : Frame} (h : tx.isWrite = true → tx.addr ∈ W) (s : State) :
    (busExchange tx s).Keeps W s :=
  keeps_andThen (wireExchange_keeps h s) fun _ _ => ⟨rfl, fun _ _ _ => rfl⟩

theorem memWrite_keeps {W : List Addr} {a : Addr} (h : a ∈ W) (v : Word) (s : State) : (memWrite a v s).Keeps W s :=
  keeps_andThen (busAcquire_keeps W s) fun _ s1 =>
  keeps_andThen (busExchange_keeps (fun _ => by rwa [addr_encWrite]) s1) fun _ s2 => busRelease_keeps W s2

theorem memRead_keeps (W : List Addr) (a : Addr) (s : State) : (memRead a s).Keeps W s := by
  have request : (encRead (addrByte a)).isWrite = true → (encRead (addrByte a)).addr ∈ W := by
    rw [isWrite_encRead]; exact fun h => by cases h
  exact keeps_andThen (busAcquire_keeps W s) fun _ s1 =>
    keeps_andThen (busExchange_keeps request s1) fun _ s2 =>
    keeps_andThen (busExchange_keeps request s2) fun _ s3 =>
    keeps_andThen (busRelease_keeps W s3) fun _ s4 => KeepsOutside.refl W s4

/-! ### Transactions -/

theorem sat_and {α : Type} {t : Attempt α} {P P' : α → State → Prop} {Q Q' : TErr → State → Prop} (h : t.Sat P Q)
    (h' : t.Sat P' Q') : t.Sat (fun r s => P r s ∧ P' r s) (fun e s => Q e s ∧ Q' e s) := by
  cases t with
  | done r s => exact ⟨h, h'⟩
  | failed e s => exact ⟨h, h'⟩
  | hung => trivial

/-- From `s` to `t` transactions that write only the registers of `W` completed: beside the frame and the registers, the fault
latch is as it was, and no scope is held if none was before (R28, R41). -/
structure Completed (W : List Addr) (s t : State) : Prop where
  follows : Follows s t
  fault : t.fault = s.fault
  scope : s.scope = false → t.scope = false
  keeps : KeepsOutside W s t

/-- From `s` to `t` transactions that write only the registers of `W` ran, the last of which reported `e` (R222). -/
structure Broken (W : List Addr) (e : TErr) (s t : State) : Prop where
  follows : Follows s t
  failed : Failed e t
  keeps : KeepsOutside W s t

theorem Completed.refl (W : List Addr) (s : State) : Completed W s s := ⟨Follows.refl s, rfl, id, KeepsOutside.refl W s⟩

theorem Completed.trans {W : List Addr} {s t u : State} (h : Completed W s t) (k : Completed W t u) : Completed W s u :=
  ⟨h.follows.trans k.follows, k.fault.trans h.fault, k.scope ∘ h.scope, h.keeps.trans k.keeps⟩

theorem Completed.broken {W : List Addr} {e : TErr} {s t u : State} (h : Completed W s t) (k : Broken W e t u) :
    Broken W e s u :=
  ⟨h.follows.trans k.follows, k.failed, h.keeps.trans k.keeps⟩

/-- Begin's last act on both sides. -/
theorem Completed.setReady {W : List Addr} {s t : State} (h : Completed W s t) :
    Completed W { s with ready := true } { t with ready := true } :=
  ⟨⟨h.follows.cfg, h.follows.x, h.follows.cs, rfl, h.follows.wire, h.follows.inputs, h.follows.wf, h.follows.epoch,
    h.follows.draws, h.follows.trace⟩, h.fault, h.scope, h.keeps.cfg, h.keeps.reg⟩

/-- The sequence is one of transactions that write only the registers of `W`. -/
abbrev Attempt.Within {α : Type} (W : List Addr) (s : State) (t : Attempt α) : Prop :=
  t.Sat (fun _ u => Completed W s u) (fun e u => Broken W e s u)

theorem within_andThen {α β : Type} {W : List Addr} {s : State} {t : Attempt α} {k : α → State → Attempt β}
    (h : t.Within W s) (hk : ∀ r u, Completed W s u → (k r u).Within W u) : (t.andThen k).Within W s :=
  sat_andThen h fun r u hu => sat_mono (hk r u hu) (fun _ _ hv => hu.trans hv) fun _ _ hv => hu.broken hv

/-- A sequence is within `W` if it keeps the frame, gives up the scope, and keeps the registers outside `W`. -/
theorem within_of_parts {α : Type} {W : List Addr} {s : State} {t : Attempt α} (hf : t.Framed s)
    (hs : t.Sat (fun _ u => s.scope = false → u.scope = false) fun _ _ => True) (hk : t.Keeps W s) : t.Within W s :=
  sat_mono (sat_and hf (sat_and hs hk)) (fun _ _ ⟨⟨hfol, hfault⟩, hscope, hkeeps⟩ => ⟨hfol, hfault, hscope, hkeeps⟩)
    fun _ _ ⟨⟨hfol, hfailed⟩, _, hkeeps⟩ => ⟨hfol, hfailed, hkeeps⟩

theorem platformSetup_within (W : List Addr) (cs : Byte) (s : State) : (platformSetup cs s).Within W s :=
  within_of_parts (platformSetup_framed cs s)
    (sat_mono (platformSetup_sat cs s) (fun _ u (h : u = _) hs => by subst h; exact hs) fun _ _ _ => trivial)
    (platformSetup_keeps W cs s)

theorem wireExchange_within {W : List Addr} {tx : Frame} (h : tx.isWrite = true → tx.addr ∈ W) (s : State) :
    (wireExchange tx s).Within W s :=
  within_of_parts (wireExchange_framed tx s)
    (sat_mono (wireExchange_sat tx s) (fun _ u ⟨_, (hu : u = _)⟩ hs => by subst hu; exact hs) fun _ _ _ => trivial)
    (wireExchange_keeps h s)

theorem memWrite_within {W : List Addr} {a : Addr} (h : a ∈ W) (v : Word) (s : State) : (memWrite a v s).Within W s :=
  within_of_parts (memWrite_framed a v s)
    (sat_mono (memWrite_scope a v s) (fun _ _ hu _ => hu) fun _ _ _ => trivial) (memWrite_keeps h v s)

theorem memRead_within (W : List Addr) (a : Addr) (s : State) : (memRead a s).Within W s :=
  within_of_parts (memRead_framed a s)
    (sat_mono (memRead_scope a s) (fun _ _ hu _ => hu) fun _ _ _ => trivial) (memRead_keeps W a s)

theorem memWrites_within {W : List Addr} {ws : List (Addr × Word)} (h : ∀ w ∈ ws, w.1 ∈ W) (s : State) :
    (memWrites ws s).Within W s := by
  induction ws generalizing s with
  | nil => exact Completed.refl W s
  | cons w rest ih =>
    exact within_andThen (memWrite_within (h w (by simp)) w.2 s) fun _ u _ =>
      ih (fun w' hw' => h w' (List.mem_cons_of_mem _ hw')) u

theorem editRegister_within {W : List Addr} {a : Addr} (h : a ∈ W) (bit : Nat) (en : Bool) (s : State) :
    (editRegister a bit en s).Within W s :=
  within_andThen (memRead_within W a s) fun r u _ => memWrite_within h (editBit r.2 bit en) u

theorem thenRespond_within {α : Type} {W : List Addr} {f : State → Attempt α} {s : State} (r : α → Response)
    (h : (f s).Within W s) : (thenRespond f r s).Within W s :=
  within_andThen h fun _ u _ => Completed.refl W u

/-! ### Begin's last act -/

@[simp] theorem ended_cfg (i : Instr) (t : State) : (ended i t).cfg = t.cfg := by unfold ended; split <;> rfl
@[simp] theorem ended_x (i : Instr) (t : State) : (ended i t).x = t.x := by unfold ended; split <;> rfl
@[simp] theorem ended_cs (i : Instr) (t : State) : (ended i t).cs = t.cs := by unfold ended; split <;> rfl
@[simp] theorem ended_fault (i : Instr) (t : State) : (ended i t).fault = t.fault := by unfold ended; split <;> rfl
@[simp] theorem ended_seq (i : Instr) (t : State) : (ended i t).seq = t.seq := by unfold ended; split <;> rfl
@[simp] theorem ended_scope (i : Instr) (t : State) : (ended i t).scope = t.scope := by unfold ended; split <;> rfl
@[simp] theorem ended_chip (i : Instr) (t : State) : (ended i t).chip = t.chip := by unfold ended; split <;> rfl
@[simp] theorem ended_trace (i : Instr) (t : State) : (ended i t).trace = t.trace := by unfold ended; split <;> rfl
@[simp] theorem ended_ready (i : Instr) (t : State) : (ended i t).ready = (isBegin i || t.ready) := by
  unfold ended; split <;> simp [*]

/-! ### Commands -/

/-- The registers an instruction sends write frames for (R99, R274). -/
def writtenAddrs (m : Config.RegMap) : Instr → List Addr
  | .beginBlock _ => (profileRegs ++ [Config.RegName.chopconf, .pwmconf]).map m.addr
  | .write a _ | .frameWr a _ => [a]
  | .setRampMode _ => [m.rampmode]
  | .jog _ | .moveTo _ => [m.xtarget]
  | .setVelocity _ => [m.vmax]
  | .enableStealthChop _ | .reverseDirection _ => [m.gconf]
  | .setPosition _ => [m.xactual]
  | .setCurrentLimits _ _ _ => [m.iholdIrun, m.chopconf]
  | .updateMotionProfile => profileRegs.map m.addr
  | .setEncoderPosition _ => [m.xenc]
  | .read _ | .getPosition | .getEncoderPosition | .isStopped | .setProfileField _ _ | .getProfileField _ | .frameRd _ => []

theorem commitWrites_addrs (p : Config.Params) (x : Vector Word 7) :
    (commitWrites p x).map Prod.fst = profileRegs.map p.map.addr := rfl

theorem beginWrites_addrs (p : Config.Params) (x : Vector Word 7) :
    (beginWrites p x).map Prod.fst = (profileRegs ++ [Config.RegName.chopconf, .pwmconf]).map p.map.addr := rfl

/-- The sequence of every command writes only the command's registers, from the state in which its first primitive starts to
that of begin's last act. -/
theorem body_within (i : Instr) (s : State) :
    (body i s).Sat (fun _ u => Completed (writtenAddrs s.cfg.map i) (ended i (started i s)) u)
      (fun e u => Broken (writtenAddrs s.cfg.map i) e (started i s) u) := by
  cases i with
  | beginBlock cs =>
    let W := writtenAddrs s.cfg.map (.beginBlock cs)
    let s1 := started (.beginBlock cs) s
    have setup : (platformSetup cs s1).Within W s1 := platformSetup_within W cs s1
    have writes : ∀ u, Completed W s1 u → (memWrites (beginWrites u.cfg u.x) u).Within W u := fun u hu =>
      memWrites_within (fun w hw => by
        rw [hu.keeps.cfg] at hw
        exact List.mem_map_of_mem hw) u
    refine sat_andThen (sat_andThen (P' := fun _ u => Completed W (ended (.beginBlock cs) s1) u) setup fun _ s2 h2 => ?_)
      fun _ _ h => h
    exact sat_andThen (sat_mono (writes s2 h2) (fun _ _ h => h2.trans h) fun _ _ h => h2.broken h) fun _ _ h => h.setReady
  | write a v => exact thenRespond_within _ (memWrite_within (by simp [writtenAddrs]) _ s)
  | read a => exact thenRespond_within _ (memRead_within _ _ s)
  | setRampMode m => exact thenRespond_within _ (memWrite_within (by simp [writtenAddrs]) _ s)
  | jog d =>
    exact thenRespond_within (f := fun s0 => (memRead _ s0).andThen _) _
      (within_andThen (memRead_within _ _ s) fun _ u _ => memWrite_within (by simp [writtenAddrs]) _ u)
  | moveTo p => exact thenRespond_within _ (memWrite_within (by simp [writtenAddrs]) _ s)
  | setVelocity v => exact thenRespond_within _ (memWrite_within (by simp [writtenAddrs]) _ (started (.setVelocity v) s))
  | enableStealthChop en => exact thenRespond_within _ (editRegister_within (by simp [writtenAddrs]) _ _ s)
  | reverseDirection en => exact thenRespond_within _ (editRegister_within (by simp [writtenAddrs]) _ _ s)
  | setPosition p => exact thenRespond_within _ (memWrite_within (by simp [writtenAddrs]) _ s)
  | getPosition => exact thenRespond_within _ (memRead_within _ _ s)
  | setCurrentLimits d h r =>
    exact thenRespond_within (f := fun s0 => (memWrite _ _ s0).andThen _) _
      (within_andThen (memWrite_within (by simp [writtenAddrs]) _ s) fun _ u _ =>
        editRegister_within (by simp [writtenAddrs]) _ _ u)
  | updateMotionProfile =>
    exact thenRespond_within _ (memWrites_within (fun _ hw => by
      rw [writtenAddrs, ← commitWrites_addrs s.cfg s.x]; exact List.mem_map_of_mem hw) s)
  | getEncoderPosition => exact thenRespond_within _ (memRead_within _ _ s)
  | setEncoderPosition p => exact thenRespond_within _ (memWrite_within (by simp [writtenAddrs]) _ s)
  | isStopped => exact thenRespond_within _ (memRead_within _ _ s)
  | setProfileField k v =>
    cases hk : profileIndex k <;>
      simpa [body, hk, started, ended, isBegin, cacheAfter, handleAfter, Attempt.Sat] using Completed.refl _ _
  | getProfileField k =>
    cases hk : profileIndex k <;> simp only [body, hk] <;> exact Completed.refl _ s
  | frameWr a v => exact Completed.refl _ s
  | frameRd a => exact Completed.refl _ s

/-- A command that answers a next state is its sequence, finished: also the illegal index 7 (R110 (d)). -/
theorem exec_next_eq_body {i : Instr} {s t : State} (hc : isCommand i = true) (h : exec i s = .next t) :
    finish (body i s) = .next t := by
  rcases exec_next_accepts hc h with ha | ⟨hw, rfl⟩
  · rwa [← exec_eq_body ha]
  · cases i with
    | setProfileField k v =>
      obtain rfl : k = 7 := by simpa [Instr.wf, profileIndexOk] using hw
      rfl
    | getProfileField k =>
      obtain rfl : k = 7 := by simpa [Instr.wf, profileIndexOk] using hw
      rfl
    | _ => cases hw

theorem respond_completed (W : List Addr) (r : Response) (s : State) : Completed W s (respond r s) :=
  ⟨⟨rfl, rfl, rfl, rfl, rfl, rfl, id, rfl, ⟨0, rfl, rfl⟩, ⟨_, rfl⟩⟩, rfl, id, rfl, fun _ _ _ => rfl⟩

theorem Broken.respond {W : List Addr} {e : TErr} {s t : State} (h : Broken W e s t) (r : Response) :
    Broken W e s (respond r t) :=
  ⟨h.follows.trans (respond_completed W r t).follows, ⟨h.failed.1, rfl⟩, h.keeps.trans (respond_completed W r t).keeps⟩

/-- How an instruction that answers a next state ended: ok, with begin's last act done, or in the error `e`, without it. -/
def Ended (i : Instr) (s t : State) : Prop :=
  Completed (writtenAddrs s.cfg.map i) (ended i (started i s)) t ∨
    ∃ e, Broken (writtenAddrs s.cfg.map i) e (started i s) t

/-- A wire frame that answers a next state: the sequencer's count is left alone, or cleared by an error. -/
theorem wireExchange_next {W : List Addr} {tx : Frame} {s t : State} (hw : tx.isWrite = true → tx.addr ∈ W)
    (h : finishWire (wireExchange tx s) = .next t) : (Completed W s t ∧ t.seq = s.seq) ∨ ∃ e, Broken W e s t := by
  rcases finishWire_next h with ⟨rx, hd⟩ | ⟨e, hf⟩
  · obtain ⟨-, rfl⟩ := sat_done (wireExchange_sat tx s) hd
    exact .inl ⟨sat_done (wireExchange_within hw s) hd, rfl⟩
  · exact .inr ⟨e, sat_failed (wireExchange_within hw s) hf⟩

theorem started_frame {i : Instr} (h : isCommand i = false) (s : State) : ended i (started i s) = s ∧ started i s = s := by
  cases i with
  | frameWr _ _ | frameRd _ => exact ⟨rfl, rfl⟩
  | _ => cases h

/-- Everything an instruction that answers a next state leaves behind it. -/
theorem exec_next {i : Instr} {s t : State} (h : exec i s = .next t) : Ended i s t ∧ (s.seq = 0 → t.seq = 0) := by
  cases hc : isCommand i with
  | true =>
    rcases finish_next (exec_next_eq_body hc h) with ⟨r, u, hd, rfl⟩ | ⟨e, u, hf, rfl⟩
    · exact ⟨.inl ((sat_done (body_within i s) hd).trans (respond_completed _ r u)), fun _ => rfl⟩
    · exact ⟨.inr ⟨e, (sat_failed (body_within i s) hf).respond _⟩, fun _ => rfl⟩
  | false =>
    have frame : ∀ tx : Frame, (tx.isWrite = true → tx.addr ∈ writtenAddrs s.cfg.map i) →
        finishWire (wireExchange tx s) = .next t → Ended i s t ∧ (s.seq = 0 → t.seq = 0) := fun tx hw hx => by
      unfold Ended
      rw [(started_frame hc s).1, (started_frame hc s).2]
      rcases wireExchange_next hw hx with ⟨hok, hseq⟩ | ⟨e, he⟩
      · exact ⟨.inl hok, fun hz => hseq.trans hz⟩
      · exact ⟨.inr ⟨e, he⟩, fun _ => he.failed.2⟩
    cases i with
    | frameWr a v => exact frame _ (fun _ => by simp [addr_encWrite, writtenAddrs]) h
    | frameRd a => exact frame _ (fun hw => by rw [isWrite_encRead] at hw; cases hw) h
    | _ => cases hc

end Sys2Proof.Machine
end

section
/-! PROOFS. The invariant of the states between steps (R25, R41, R60), and the reset state (R44, R8). -/

namespace Sys2Proof.Machine

/-- An instruction keeps the invariant: an ok end gives up the scope, an error latches the fault. -/
theorem exec_keeps_inv {i : Instr} {s t : State} (h : s.Inv) (hn : exec i s = .next t) : t.Inv := by
  obtain ⟨hwf, hzero, hscope⟩ := h
  obtain ⟨hend, hseq⟩ := exec_next hn
  rcases hend with hok | ⟨e, hbroken⟩
  · refine ⟨hok.follows.wf (by rwa [ended_chip]), hseq hzero, fun hheld => ?_⟩
    rw [hok.fault, ended_fault]
    refine hscope ?_
    by_contra hfree
    rw [hok.scope (by rw [ended_scope]; exact Bool.eq_false_of_not_eq_true hfree)] at hheld
    cases hheld
  · exact ⟨hbroken.follows.wf hwf, hseq hzero, fun _ => by rw [hbroken.failed.1]; rfl⟩

/-- Settles O44: by what a step can be; an instruction by `exec_keeps_inv`, a move of the outside by what it does to the chip. -/
theorem everyStepKeepsTheInvariant : Obligations.EveryStepKeepsTheInvariant := by
  intro s t h hstep
  obtain ⟨hwf, hseq, hscope⟩ := h
  rcases step_cases hstep with ⟨f, i, -, -, hx⟩ | ⟨-, -, rfl⟩ | ⟨w, i, rest, -, -, -, hx⟩ | ⟨w, e, rest, -, -, -, rfl⟩ |
    ⟨rest, -, -, rfl⟩ | ⟨d, rest, -, -, rfl⟩ | ⟨rest, -, -, rfl⟩
  · exact exec_keeps_inv (s := { s with wire := none }) ⟨hwf, hseq, hscope⟩ hx
  · exact ⟨hwf, hseq, hscope⟩
  · exact exec_keeps_inv (s := presented w { s with inputs := rest }) ⟨hwf, hseq, hscope⟩ hx
  · exact ⟨hwf, rfl, hscope⟩
  · exact ⟨hwf, rfl, fun h => by cases h⟩
  · exact ⟨wf_drift _ _ _ hwf, hseq, hscope⟩
  · exact ⟨wf_powerCycle _, hseq, hscope⟩

/-- The parameters of the reset state meet the conditions of R8: its addresses and mode words are literals. -/
theorem launchParams_wf : Config.launchParams.wf := by
  refine ⟨?_, ?_, ?_⟩ <;> simp only [Config.launchParams] <;> decide

/-- Settles O45: the reset state records no register and holds neither scope nor fault. -/
theorem resetMeetsTheInvariant : Obligations.ResetMeetsTheInvariant :=
  ⟨⟨wf_reset, rfl, fun h => by cases h⟩, rfl, rfl, rfl, rfl, launchParams_wf⟩

end Sys2Proof.Machine
end

section
/-! PROOFS. What no step changes but those the spec names: the cache and the handle (R21 to R23), `ready` (R27) and the fault
latch (R28). -/

namespace Sys2Proof.Machine

/-! ### What an instruction does to the block's registers -/

theorem exec_cfg {i : Instr} {s t : State} (h : exec i s = .next t) : t.cfg = s.cfg := by
  rcases (exec_next h).1 with hok | ⟨e, hbroken⟩
  · rw [hok.follows.cfg, ended_cfg]; rfl
  · exact hbroken.follows.cfg

/-- The cache after an instruction is as the command wrote it before its first primitive, also after an error (R155, R193). -/
theorem exec_x {i : Instr} {s t : State} (h : exec i s = .next t) : t.x = cacheAfter i s := by
  rcases (exec_next h).1 with hok | ⟨e, hbroken⟩
  · rw [hok.follows.x, ended_x]; rfl
  · exact hbroken.follows.x

theorem exec_cs {i : Instr} {s t : State} (h : exec i s = .next t) : t.cs = handleAfter i s := by
  rcases (exec_next h).1 with hok | ⟨e, hbroken⟩
  · rw [hok.follows.cs, ended_cs]; rfl
  · exact hbroken.follows.cs

/-- After an instruction `ready` and the fault latch are as before, or the error is latched, or begin has ended ok
(R27, R28). -/
theorem exec_ready_fault {i : Instr} {s t : State} (h : exec i s = .next t) :
    (t.fault = s.fault ∧ t.ready = (isBegin i || s.ready)) ∨ (t.fault.isSome = true ∧ t.ready = s.ready) := by
  rcases (exec_next h).1 with hok | ⟨e, hbroken⟩
  · left
    rw [hok.fault, hok.follows.ready, ended_fault, ended_ready]
    exact ⟨rfl, rfl⟩
  · right
    rw [hbroken.failed.1, hbroken.follows.ready]
    exact ⟨rfl, rfl⟩

/-- An instruction keeps every register that it does not write and that is not Volatile (R72). -/
theorem exec_keeps_reg {i : Instr} {s t : State} (h : exec i s = .next t) {b : Addr} (hv : b ∉ s.cfg.volatile)
    (hw : b ∉ writtenAddrs s.cfg.map i) : t.chip.reg b = s.chip.reg b := by
  rcases (exec_next h).1 with hok | ⟨e, hbroken⟩
  · rw [hok.keeps.reg b (by rwa [ended_cfg]) hw, ended_chip]; rfl
  · exact hbroken.keeps.reg b hv hw

theorem cacheAfter_ne {i : Instr} {s : State} (h : cacheAfter i s ≠ s.x) :
    (∃ cs, i = .beginBlock cs) ∨ (∃ v, i = .setVelocity v) ∨ ∃ k v, i = .setProfileField k v := by
  cases i with
  | beginBlock cs => exact .inl ⟨cs, rfl⟩
  | setVelocity v => exact .inr (.inl ⟨v, rfl⟩)
  | setProfileField k v => exact .inr (.inr ⟨k, v, rfl⟩)
  | _ => exact absurd rfl h

theorem handleAfter_ne {i : Instr} {s : State} (h : handleAfter i s ≠ s.cs) : i = .beginBlock (handleAfter i s) := by
  cases i with
  | beginBlock cs => rfl
  | _ => exact absurd rfl h

/-! ### What a step does to the block's registers -/

/-- The parameters, the cache, the handle and `ready` are as they were, and the fault latch is not cleared. -/
structure BlockKept (s t : State) : Prop where
  cfg : t.cfg = s.cfg
  x : t.x = s.x
  cs : t.cs = s.cs
  ready : t.ready = s.ready
  fault : t.fault = s.fault ∨ t.fault.isSome = true

/-- A wire frame leaves the block as it was, but for an error latched. -/
theorem frame_blockKept {f : Frame} {i : Instr} {s t : State} (hd : decodeFrame f = .ok i) (h : exec i s = .next t) :
    BlockKept s t := by
  have hx := exec_x h
  have hcs := exec_cs h
  have hready := exec_ready_fault h
  rcases decodeFrame_ok hd with rfl | rfl <;>
    exact ⟨exec_cfg h, hx, hcs, hready.elim And.right And.right, hready.imp And.left And.left⟩

/-- What a step is to the block: nothing, a reset, or a command. -/
theorem step_block {s t : State} (h : step s = .next t) :
    BlockKept s t ∨ (∃ rest, s.inputs = .reset :: rest ∧ t = resetBlock { s with inputs := rest }) ∨
      ∃ w i rest, s.inputs = .cmd w :: rest ∧ decodeCmd w = .ok i ∧ exec i (presented w { s with inputs := rest }) = .next t := by
  rcases step_cases h with ⟨f, i, -, hdec, hx⟩ | ⟨-, -, rfl⟩ | ⟨w, i, rest, -, hin, hdec, hx⟩ | ⟨w, e, rest, -, -, -, rfl⟩ |
    ⟨rest, -, hin, rfl⟩ | ⟨d, rest, -, -, rfl⟩ | ⟨rest, -, -, rfl⟩
  · have hkept := frame_blockKept hdec hx
    exact .inl ⟨hkept.cfg, hkept.x, hkept.cs, hkept.ready, hkept.fault⟩
  · exact .inl ⟨rfl, rfl, rfl, rfl, .inl rfl⟩
  · exact .inr (.inr ⟨w, i, rest, hin, hdec, hx⟩)
  · exact .inl ⟨rfl, rfl, rfl, rfl, .inl rfl⟩
  · exact .inr (.inl ⟨rest, hin, rfl⟩)
  · exact .inl ⟨rfl, rfl, rfl, rfl, .inl rfl⟩
  · exact .inl ⟨rfl, rfl, rfl, rfl, .inl rfl⟩

/-- Settles O46: a command leaves `cacheAfter` and `handleAfter`, which are the old values but for the commands named. -/
theorem cacheIsWrittenByThreeCommandsOnly : Obligations.CacheIsWrittenByThreeCommandsOnly := by
  intro s t hstep
  rcases step_block hstep with hkept | ⟨rest, hin, rfl⟩ | ⟨w, i, rest, hin, hdec, hx⟩
  · exact ⟨hkept.cfg, fun hne => absurd hkept.x hne, fun hne => absurd hkept.cs hne⟩
  · exact ⟨rfl, fun _ => ⟨rest, .inl hin⟩, fun _ => ⟨rest, .inl hin⟩⟩
  · refine ⟨by rw [exec_cfg hx, presented_cfg], fun hne => ?_, fun hne => ?_⟩
    · rw [exec_x hx] at hne
      exact ⟨rest, .inr ⟨w, i, hin, hdec, cacheAfter_ne hne⟩⟩
    · have hi : i = .beginBlock t.cs := by
        rw [exec_cs hx] at hne ⊢
        exact handleAfter_ne hne
      exact ⟨rest, .inr ⟨w, t.cs, hin, hi ▸ hdec, rfl⟩⟩

/-! ### Refusals -/

/-- A legal command other than begin is the checks of R227 before anything else. -/
theorem exec_eq_whenReady {i : Instr} (hc : isCommand i = true) (hw : i.wf = true) (hb : isBegin i = false) (s : State) :
    ∃ run, exec i s = whenReady s run := by
  cases i with
  | beginBlock cs => cases hb
  | setProfileField k v =>
    obtain ⟨j, hj⟩ := profileIndex_of_ok (i := k) hw
    exact ⟨_, by simp only [exec, execSetProfileField, hj]; rfl⟩
  | getProfileField k =>
    obtain ⟨j, hj⟩ := profileIndex_of_ok (i := k) hw
    exact ⟨_, by simp only [exec, execGetProfileField, hj]; rfl⟩
  | frameWr a v => cases hc
  | frameRd a => cases hc
  | _ => exact ⟨_, rfl⟩

theorem exec_refused_notReady {i : Instr} {s : State} (hc : isCommand i = true) (hw : i.wf = true) (hb : isBegin i = false)
    (hr : s.ready = false) : exec i s = .refused .notReady := by
  obtain ⟨run, hrun⟩ := exec_eq_whenReady hc hw hb s
  rw [hrun, whenReady, hr]
  rfl

theorem exec_refused_faultLatched {i : Instr} {s : State} (hc : isCommand i = true) (hw : i.wf = true)
    (hr : s.ready = true ∨ isBegin i = true) (hf : s.fault.isSome = true) : exec i s = .refused .faultLatched := by
  cases hb : isBegin i with
  | true =>
    cases i with
    | beginBlock cs => exact if_pos hf
    | _ => cases hb
  | false =>
    obtain ⟨run, hrun⟩ := exec_eq_whenReady hc hw hb s
    rw [hrun, whenReady, if_pos (by simpa [hb] using hr), unlessFaulted, if_pos hf]

/-! ### ready and the fault latch -/

/-- A begin that answers a next state started without a fault latched (R28). -/
theorem begin_fault_none {cs : Byte} {s t : State} (h : exec (.beginBlock cs) s = .next t) : s.fault = none := by
  simp only [exec, execBegin] at h
  exact (unlessFaulted_next h).1

/-- Settles O47: an instruction leaves `ready` alone unless it is a begin that ends ok, and a step is one, a reset, or nothing
to the block. -/
theorem readyRisesOnlyByBegin : Obligations.ReadyRisesOnlyByBegin := by
  refine ⟨rfl, fun cs s t hx hfault => ?_, fun s t hstep => ⟨fun hlow hhigh => ?_, fun hhigh hlow => ?_, fun rest hw hin => ?_⟩,
    fun i s hc hw hb hr => exec_refused_notReady hc hw hb hr⟩
  · rcases exec_ready_fault hx with ⟨-, hready⟩ | ⟨hlatched, -⟩
    · exact hready
    · rw [hfault] at hlatched; cases hlatched
  · rcases step_block hstep with hkept | ⟨rest, -, rfl⟩ | ⟨w, i, rest, hin, hdec, hx⟩
    · rw [hkept.ready, hlow] at hhigh; cases hhigh
    · cases hhigh
    · rcases exec_ready_fault hx with ⟨hfault, hready⟩ | ⟨-, hready⟩
      · rw [hhigh, presented_ready, hlow, Bool.or_false] at hready
        cases i with
        | beginBlock cs => exact ⟨hfault.trans (begin_fault_none hx), w, rest, cs, hin, hdec⟩
        | _ => cases hready
      · rw [hhigh, presented_ready, hlow] at hready; cases hready
  · rcases step_block hstep with hkept | ⟨rest, hin, -⟩ | ⟨w, i, rest, -, -, hx⟩
    · rw [hkept.ready, hhigh] at hlow; cases hlow
    · exact ⟨rest, hin⟩
    · rcases exec_ready_fault hx with ⟨-, hready⟩ | ⟨-, hready⟩ <;>
        rw [hlow, presented_ready, hhigh] at hready <;> simp at hready
  · rw [step_input hw hin] at hstep
    cases hstep
    rfl

theorem isPrimitive_err (e : TErr) : isPrimitive (.err e) = false := rfl

/-- A command's error events all name the error that ended it (R222). -/
theorem command_events {i : Instr} {s t : State} (hc : isCommand i = true) (h : exec i s = .next t) :
    ∃ evs, t.trace = s.trace ++ evs ∧ ∀ e, Event.err e ∈ evs → t.fault = some e := by
  have no_error : ∀ {evs : List Event} {e : TErr}, (∀ ev ∈ evs, isPrimitive ev = true) → Event.err e ∉ evs :=
    fun hp hm => by simpa [isPrimitive_err] using hp _ hm
  rcases exec_next_accepts hc h with ha | ⟨-, rfl⟩
  · rcases exec_next_cases ha h with q | ⟨k, ans, er, landed, latch, release, hk, q, he, hv⟩
    · obtain ⟨r, u, evs, hu, hp⟩ := exec_completes ha q
      obtain rfl : t = respond r (ended i u) := by rw [h] at hu; cases hu; rfl
      have htrace : (ended i u).trace = s.trace ++ evs := by rw [ended_trace, hp.ran.trace]; rfl
      refine ⟨evs ++ [.resp (encodeResponse r)], by rw [respond_trace, htrace, List.append_assoc], fun e hm => ?_⟩
      exact absurd (by simpa using hm) (no_error hp.primitives)
    · obtain ⟨u, v, pre, ev, post, hu, hab, -, -⟩ := exec_fails ha hk q he hv
      obtain rfl : t = respond (.transportError er) u := by rw [h] at hu; cases hu; rfl
      refine ⟨_, by rw [respond_trace, hab.trace]; simp only [List.append_assoc]; rfl, fun e hm => ?_⟩
      have hpre : Event.err e ∉ pre := no_error hab.primitives
      rw [respond_fault, hab.fault]
      split at hm <;> simpa [hpre, eq_comm] using hm
  · exact ⟨_, takeIllegal_trace s, fun e hm => by simp at hm⟩

/-- A wire frame's error event names the error latched (R222). -/
theorem frame_events {tx : Frame} {s t : State} (h : finishWire (wireExchange tx s) = .next t) :
    ∃ evs, t.trace = s.trace ++ evs ∧ ∀ e, Event.err e ∈ evs → t.fault = some e := by
  rcases finishWire_next h with ⟨rx, hd⟩ | ⟨er, hf⟩
  · obtain ⟨-, rfl⟩ := sat_done (wireExchange_sat tx s) hd
    exact ⟨_, rfl, fun e hm => by simp at hm⟩
  · obtain ⟨landed, latch, release, rfl⟩ := sat_failed (wireExchange_sat tx s) hf
    refine ⟨_, takeTransportError_trace .., fun e hm => ?_⟩
    rw [takeTransportError_fault]
    split at hm <;> simpa [eq_comm] using hm

theorem exec_events {i : Instr} {s t : State} (h : exec i s = .next t) :
    ∃ evs, t.trace = s.trace ++ evs ∧ ∀ e, Event.err e ∈ evs → t.fault = some e := by
  cases hc : isCommand i with
  | true => exact command_events hc h
  | false =>
    cases i with
    | frameWr a v => exact frame_events h
    | frameRd a => exact frame_events h
    | _ => cases hc

/-- Settles O48: an instruction keeps the latch or sets it to the error of its trace, and only `resetBlock` clears it. -/
theorem onlyResetClearsTheFaultLatch : Obligations.OnlyResetClearsTheFaultLatch := by
  refine ⟨rfl, fun i s t evs e hx htrace hm => ?_, fun s t hstep hlatched hclear => ?_, fun i s hc hw hf => ?_⟩
  · obtain ⟨evs', htrace', herr⟩ := exec_events hx
    obtain rfl : evs = evs' := List.append_cancel_left (htrace.symm.trans htrace')
    exact herr e hm
  · have cleared : ¬ (t.fault = s.fault ∨ t.fault.isSome = true) := by
      rw [hclear]
      rintro (hsame | hsome)
      · rw [← hsame] at hlatched; cases hlatched
      · cases hsome
    rcases step_block hstep with hkept | ⟨rest, hin, -⟩ | ⟨w, i, rest, -, -, hx⟩
    · exact absurd hkept.fault cleared
    · exact ⟨rest, hin⟩
    · exact absurd ((exec_ready_fault hx).imp And.left And.left) cleared
  · cases hb : isBegin i with
    | true => exact .inr (exec_refused_faultLatched hc hw (.inr hb) hf)
    | false =>
      cases hr : s.ready with
      | true => exact .inr (exec_refused_faultLatched hc hw (.inl hr) hf)
      | false => exact .inl (exec_refused_notReady hc hw hb hr)

end Sys2Proof.Machine
end

section
/-! PROOFS. begin and the ready state (R46, R193), and the chip-side ramp mode (R42, R150). -/

namespace Sys2Proof.Machine

open Sys2Proof.Config

/-! ### What a list of writes leaves -/

theorem afterWrites_of_not_mem {ws : List (Addr × Word)} {b : Addr} (w : Word) (h : b ∉ ws.map Prod.fst) :
    afterWrites ws b w = w := by
  induction ws with
  | nil => rfl
  | cons p rest ih =>
    obtain ⟨hb, hrest⟩ : b ≠ p.1 ∧ b ∉ rest.map Prod.fst := by simpa using h
    rw [afterWrites, if_neg hb, ih hrest]

/-- Where the addresses are distinct, each register holds the word written to it. -/
theorem afterWrites_of_mem {ws : List (Addr × Word)} {a : Addr} {v : Word} (w : Word) (hd : (ws.map Prod.fst).Nodup)
    (h : (a, v) ∈ ws) : afterWrites ws a w = v := by
  induction ws generalizing w with
  | nil => cases h
  | cons p rest ih =>
    obtain ⟨hnew, hrest⟩ := List.nodup_cons.1 hd
    rcases List.mem_cons.1 h with rfl | hm
    · rw [afterWrites, if_pos rfl, afterWrites_of_not_mem _ hnew]
    · exact ih _ hrest hm

/-- The nine registers of begin are distinct (R29). -/
theorem beginWrites_nodup {p : Params} (h : p.wf) (x : Vector Word 7) : ((beginWrites p x).map Prod.fst).Nodup := by
  rw [beginWrites_addrs]
  exact List.Nodup.map (addr_injective h) (by decide)

theorem mem_beginWrites_profile (p : Params) (x : Vector Word 7) (k : Fin 7) :
    (p.map.addr profileRegs[k], x[k]) ∈ beginWrites p x := by
  refine List.mem_append_left _ ?_
  fin_cases k <;> simp [commitWrites, profileRegs, RegMap.addr]

/-- A begin whose 28 primitives complete: the setup, the nine writes, then `ready` (R193). -/
theorem begin_completes (cs : Byte) {s : State} (hfault : s.fault = none) (hquiet : s.Quiet 28) :
    ∃ rxs u, rxs.length = 9 ∧ exec (.beginBlock cs) s = .next (respond .ack { u with ready := true }) ∧
      Ran (started (.beginBlock cs) s) u 28 ([.setup cs] ++ writesEvents (beginWrites s.cfg s.cfg.profileDefault) rxs) ∧
      u.scope = false ∧ u.chip.pend = none ∧
      ∀ b, s.Still 28 b → u.chip.reg b = afterWrites (beginWrites s.cfg s.cfg.profileDefault) b (s.chip.reg b) := by
  let s0 := started (.beginBlock cs) s
  let s1 := completed (.setup cs) (takeAnswer s0)
  let ws := beginWrites s.cfg s.cfg.profileDefault
  have setup : platformSetup cs s0 = .done () s1 := platformSetup_completes cs (quiet_le hquiet (by omega))
  have ran1 : Ran s0 s1 1 [.setup cs] := takeAnswer_ran s0 (.setup cs) s0.scope
  obtain ⟨rxs, u, hlen, hwrites, ran2, hclosed, hreg⟩ := memWrites_completes ws (ran1.quiet (k := 27) hquiet)
  obtain ⟨hscope, hpend⟩ := hclosed (by simp [ws, beginWrites, commitWrites])
  refine ⟨rxs, u, hlen, ?_, ran1.trans ran2, hscope, hpend, fun b hb => ?_⟩
  · rw [exec_eq_body ⟨rfl, rfl, hfault, .inl rfl, fun _ _ _ e => by cases e⟩]
    show finish (((platformSetup cs s0).andThen _).andThen _) = _
    rw [setup]
    show finish (((memWrites ws s1).andThen _).andThen _) = _
    rw [hwrites]
    rfl
  · have hsetup : s1.chip.reg b = s.chip.reg b := still_head (s := s0) hb s.chip
    rw [hreg b (ran1.still (k := 27) hb), hsetup]

/-- Settles O34: begin completes, and its nine writes go to distinct registers. -/
theorem beginEstablishesTheReadyState : Obligations.BeginEstablishesTheReadyState := by
  intro cs s hwf hfault hquiet
  obtain ⟨rxs, u, hlen, hexec, ran, hscope, hpend, hreg⟩ := begin_completes cs hfault hquiet
  have written : ∀ a v, (a, v) ∈ beginWrites s.cfg s.cfg.profileDefault → s.Still 28 a → u.chip.reg a = v :=
    fun a v hm ha => (hreg a ha).trans (afterWrites_of_mem _ (beginWrites_nodup hwf _) hm)
  have hchopconf : s.cfg.map.chopconf ∉ s.cfg.volatile := by
    obtain ⟨-, -, -, -, -, hc, -⟩ := hwf
    exact hc
  refine ⟨_, rxs, hlen, hexec, ?_, ran.x, ran.cs, rfl, ran.fault.trans hfault, fun k hk => ?_, ?_, fun hk => ?_,
    fun b hb hk => ?_, hpend, ⟨ran.cfg, rfl, ran.cs, rfl, ran.fault, ran.wire, ran.inputs⟩, rfl, hscope, ran.env, ran.draws⟩
  · rw [respond_trace, ran.trace, ← List.append_assoc]
    rfl
  · exact written _ _ (mem_beginWrites_profile s.cfg _ k) hk
  · exact written _ _ (by simp [beginWrites]) (.inl hchopconf)
  · exact written _ _ (by simp [beginWrites]) hk
  · refine (hreg b hk).trans (afterWrites_of_not_mem _ fun hmem => ?_)
    rw [beginWrites_addrs] at hmem
    obtain ⟨r, hr, hrb⟩ := List.mem_map.1 hmem
    exact hb r hr hrb.symm

/-! ### The chip-side ramp mode -/

/-- The mode words being distinct, the word of a mode stands for that mode (R32, R42). -/
theorem rampMode_of_reg {p : Params} (h : p.wf) {c : Chip} {m : RampMode} (hr : c.reg p.map.rampmode = rampWord p m) :
    c.rampMode p = some m := by
  obtain ⟨-, hd, -⟩ := h
  simp only [List.nodup_cons, List.mem_cons, not_or, List.not_mem_nil] at hd
  cases m <;> simp_all [Chip.rampMode, rampWord, eq_comm]

theorem rampMode_congr {p : Params} {c d : Chip} (h : c.reg p.map.rampmode = d.reg p.map.rampmode) :
    c.rampMode p = d.rampMode p := by
  simp only [Chip.rampMode, h]

/-- Among the commands, setRampMode and a raw write to ADDR_RAMPMODE alone write RAMPMODE (R42). -/
theorem rampmode_not_written {p : Params} (h : p.wf) {i : Instr} (hc : isCommand i = true) (hm : ∀ m, i ≠ .setRampMode m)
    (hw : ∀ v, i ≠ .write p.map.rampmode v) : p.map.rampmode ∉ writtenAddrs p.map i := by
  have other : ∀ rs : List RegName, .rampmode ∉ rs → p.map.rampmode ∉ rs.map p.map.addr := fun rs hr hmem =>
    hr ((List.mem_map_of_injective (addr_injective h) (a := .rampmode)).1 hmem)
  cases i with
  | beginBlock _ => exact other (profileRegs ++ [.chopconf, .pwmconf]) (by decide)
  | write a v => exact fun ha => hw v (by rw [List.mem_singleton.1 ha])
  | setRampMode m => exact absurd rfl (hm m)
  | jog _ => exact other [.xtarget] (by decide)
  | moveTo _ => exact other [.xtarget] (by decide)
  | setVelocity _ => exact other [.vmax] (by decide)
  | enableStealthChop _ => exact other [.gconf] (by decide)
  | reverseDirection _ => exact other [.gconf] (by decide)
  | setPosition _ => exact other [.xactual] (by decide)
  | setCurrentLimits _ _ _ => exact other [.iholdIrun, .chopconf] (by decide)
  | updateMotionProfile => exact other profileRegs (by decide)
  | setEncoderPosition _ => exact other [.xenc] (by decide)
  | frameWr _ _ => cases hc
  | _ => exact List.not_mem_nil

/-- Settles O16: setRampMode writes the mode's word to RAMPMODE, and no other command named writes that register. -/
theorem rampModeIsSetBySetRampModeAlone : Obligations.RampModeIsSetBySetRampModeAlone := by
  refine ⟨fun m s hwf hruns hquiet hstill => ?_, fun i s t hwf hvol hc hm hw hx => ?_⟩
  · obtain ⟨rx, t, hwrite, ran, -, -, hreg⟩ := memWrite_completes s.cfg.map.rampmode (rampWord s.cfg m) hquiet
    refine ⟨respond .ack t, ?_, ?_⟩
    · rw [exec_eq_body ⟨rfl, rfl, hruns.2, .inr hruns.1, fun _ _ _ e => by cases e⟩, body, thenRespond, hwrite]
      rfl
    · rw [respond_cfg, ran.cfg]
      exact rampMode_of_reg hwf ((hreg _ hstill).trans (if_pos rfl))
  · rw [exec_cfg hx]
    exact rampMode_congr (exec_keeps_reg hx hvol (rampmode_not_written hwf hc hm hw))

end Sys2Proof.Machine
end

section
/-! PROOFS. The wire frames and the read latch (spec/20_memory.md R66 to R68), the reads and writes that follow one another
(R69, R70), and the moves of the chip (R72, R251). -/

namespace Sys2Proof.Machine

/-! ### The response of an exchange -/

theorem responseData_of_pend_none {p : Config.Params} {c : Chip} (h : c.pend = none) (draw : Word) :
    responseData p c draw = draw := by
  simp only [responseData, h]

theorem responseData_of_pend {p : Config.Params} {c : Chip} {a : Addr} (h : c.pend = some a) (draw : Word) :
    responseData p c draw = sample p c a draw := by
  simp only [responseData, h]

theorem takeAnswer_pend (s : State) : (takeAnswer s).chip.pend = s.chip.pend := drift_pend ..

/-- The response to the exchange that `s` is about to perform (R67). -/
def nextResponse (s : State) : Frame := response s.cfg (takeAnswer s).chip (nextAnswer s)

theorem nextResponse_b0 (s : State) : (nextResponse s).b0 = (nextAnswer s).status := rfl

/-- With nothing pending the data are the answer's draw (R68 (b)). -/
theorem nextResponse_data_of_pend_none {s : State} (h : s.chip.pend = none) :
    (nextResponse s).data = (nextAnswer s).data :=
  (response_data ..).trans (responseData_of_pend_none ((takeAnswer_pend s).trans h) _)

theorem nextResponse_data_of_pend {s : State} {p : Addr} (h : s.chip.pend = some p) :
    (nextResponse s).data = sample s.cfg (takeAnswer s).chip p (nextAnswer s).data :=
  (response_data ..).trans (responseData_of_pend ((takeAnswer_pend s).trans h) _)

/-- The peripheral keeps its contract for the latch as the frame finds it, Volatile content included (R66 to R68, R73). -/
theorem nextResponse_answered (s : State) : s.Answered (nextResponse s) := by
  refine ⟨fun p hpend hread hstill => ?_, fun ans rest henv => ?_⟩
  · rw [nextResponse_data_of_pend hpend, sample, if_pos hread]
    exact still_head hstill s.chip
  · have hans : nextAnswer s = ans := by simp only [nextAnswer, henv]
    refine ⟨congrArg Answer.status hans, fun hnone => ?_⟩
    rw [← hans]
    cases hpend : s.chip.pend with
    | none => exact nextResponse_data_of_pend_none hpend
    | some p => rw [nextResponse_data_of_pend hpend, sample, if_neg (hnone p hpend)]

/-! ### The wire frames -/

theorem exec_frameWr_completes (a : Addr) (v : Word) {s : State} (h : s.Quiet 1) :
    exec (.frameWr a v) s = .next (exchanged (encWrite (addrByte a) v) s) :=
  congrArg finishWire (wireExchange_completes _ h)

theorem exec_frameRd_completes (a : Addr) {s : State} (h : s.Quiet 1) :
    exec (.frameRd a) s = .next (exchanged (encRead (addrByte a)) s) :=
  congrArg finishWire (wireExchange_completes _ h)

theorem exchanged_trace (tx : Frame) (s : State) : (exchanged tx s).trace = s.trace ++ [.xchg tx (nextResponse s)] := rfl

theorem exchanged_chip (tx : Frame) (s : State) : (exchanged tx s).chip = (takeAnswer s).chip.take tx := rfl

theorem exchanged_env (tx : Frame) (s : State) : (exchanged tx s).env = s.env.drop 1 := List.drop_one.symm

theorem exchanged_sameBlock (tx : Frame) (s : State) : s.SameBlock (exchanged tx s) :=
  ⟨rfl, rfl, rfl, rfl, rfl, rfl, rfl⟩

/-- An exchange changes no still register but the one its frame writes (R67, R72). -/
theorem exchanged_reg (tx : Frame) {s : State} {b : Addr} (h : s.Still 1 b) :
    (exchanged tx s).chip.reg b = if tx.isWrite = true ∧ b = tx.addr then tx.data else s.chip.reg b := by
  rw [exchanged_chip, reg_take, takeAnswer_chip, still_head h]

/-- Settles O8: the frame's one exchange completes, and `take_encWrite` is what it does to the chip. -/
theorem writeFrameStoresAndClearsTheLatch : Obligations.WriteFrameStoresAndClearsTheLatch := by
  intro a v s hquiet
  refine ⟨_, nextResponse s, exec_frameWr_completes a v hquiet, exchanged_trace _ s, nextResponse_answered s, ?_, ?_,
    fun b hb hstill => ?_, exchanged_sameBlock _ s, rfl, rfl, exchanged_env _ s⟩
  · rw [exchanged_chip, take_encWrite, reg_pend, reg_setReg_same]
  · rw [exchanged_chip, take_encWrite]
  · rw [exchanged_reg _ hstill, addr_encWrite, if_neg fun h => hb h.2]

/-- Settles O9: the frame's one exchange completes, and `take_encRead` is what it does to the chip. -/
theorem readRequestFrameSetsTheLatch : Obligations.ReadRequestFrameSetsTheLatch := by
  intro a s hquiet
  refine ⟨_, nextResponse s, exec_frameRd_completes a hquiet, exchanged_trace _ s, nextResponse_answered s, ?_,
    fun b hstill => ?_, exchanged_sameBlock _ s, rfl, rfl, exchanged_env _ s⟩
  · rw [exchanged_chip, take_encRead]
  · rw [exchanged_reg _ hstill, isWrite_encRead, if_neg fun h => Bool.false_ne_true h.1]

/-- Settles O10: the first frame leaves `a` in the latch and its content alone, so the second is answered with it. -/
theorem responseDataBelongToThePreviousRequest : Obligations.ResponseDataBelongToThePreviousRequest := by
  intro a b s hquiet hread hstill
  obtain ⟨t, rx1, ht, htrace, -, hpend, hreg, hblock, -, -, henv⟩ :=
    readRequestFrameSetsTheLatch a s (quiet_le hquiet (by omega))
  have hcfg : t.cfg = s.cfg := hblock.1
  obtain ⟨u, rx2, hu, utrace, ⟨hdata, -⟩, hpend', -⟩ := readRequestFrameSetsTheLatch b t (quiet_drop (k := 1) hquiet henv)
  refine ⟨t, u, rx1, rx2, ht, hu, by rw [utrace, htrace, List.append_assoc]; rfl, ?_, hpend'⟩
  calc rx2.data = t.chip.reg a := hdata a hpend (by rwa [State.Readable, hcfg]) (still_drop (k := 1) hstill henv hcfg)
    _ = s.chip.reg a := hreg a (still_le hstill (by omega))

/-! ### Commands one after another -/

theorem responses_append (es fs : List Event) : responses (es ++ fs) = responses es ++ responses fs := by
  induction es with
  | nil => rfl
  | cons e es ih =>
    cases e with
    | resp r => exact congrArg (r :: ·) ih
    | _ => exact ih

/-- A run of primitives leaves a block that accepts commands accepting them. -/
theorem Ran.runs {s t : State} {k : Nat} {evs : List Event} (h : Ran s t k evs) (r : s.Runs) : t.Runs :=
  ⟨h.ready.trans r.1, h.fault.trans r.2⟩

/-- `read` answers with the status byte and the data of the second exchange (R131). -/
theorem exec_read_completes (a : Addr) {s : State} (hruns : s.Runs) (hquiet : s.Quiet 4) :
    ∃ rx1 rx2 t, exec (.read a) s = .next (respond (.statusValue rx2.b0 rx2.data) t) ∧ Ran s t 4 (readEvents a rx1 rx2) ∧
      t.chip.pend = some a ∧ (∀ b, s.Still 4 b → t.chip.reg b = s.chip.reg b) ∧
      (s.Readable a → s.Still 3 a → rx2.data = s.chip.reg a) := by
  obtain ⟨rx1, rx2, t, hread, hran, -, hpend, hreg, hdata, -⟩ := memRead_completes a hquiet
  refine ⟨rx1, rx2, t, ?_, hran, hpend, hreg, hdata⟩
  rw [exec_eq_body ⟨rfl, rfl, hruns.2, .inr hruns.1, fun _ _ _ e => by cases e⟩, body, thenRespond, hread]
  rfl

theorem exec_write_completes (a : Addr) (v : Word) {s : State} (hruns : s.Runs) (hquiet : s.Quiet 3) :
    ∃ rx t, exec (.write a v) s = .next (respond .ack t) ∧ Ran s t 3 (writeEvents a v rx) ∧
      ∀ b, s.Still 3 b → t.chip.reg b = if b = a then v else s.chip.reg b := by
  obtain ⟨rx, t, hwrite, hran, -, -, hreg⟩ := memWrite_completes a v hquiet
  refine ⟨rx, t, ?_, hran, hreg⟩
  rw [exec_eq_body ⟨rfl, rfl, hruns.2, .inr hruns.1, fun _ _ _ e => by cases e⟩, body, thenRespond, hwrite]
  rfl

/-- The events of a `read` hold no response but its own. -/
theorem responses_of_read {s t : State} {a : Addr} {rx1 rx2 : Frame} (h : Ran s t 4 (readEvents a rx1 rx2)) (r : Response) :
    responses (respond r t).trace = responses s.trace ++ [encodeResponse r] := by
  rw [respond_trace, h.trace, responses_append, responses_append]
  simp [readEvents, responses]

/-- Settles O13: a register that is not Volatile stays still, so the second read finds what the first did, and the second write
what it would store. -/
theorem readBackRegistersAreIdempotent : Obligations.ReadBackRegistersAreIdempotent := by
  intro a v s hruns hquiet hback hvol
  constructor
  · obtain ⟨_, rx, t, ht, tran, -, treg, tdata⟩ := exec_read_completes a hruns (quiet_le hquiet (by omega))
    obtain ⟨_, rx', u, hu, uran, -, -, udata⟩ := exec_read_completes a (s := respond (.statusValue rx.b0 rx.data) t)
      (tran.runs hruns) (tran.quiet (k := 4) hquiet)
    have hcfg : t.cfg = s.cfg := tran.cfg
    have hfirst : rx.data = s.chip.reg a := tdata (.inr hback) (.inl hvol)
    have hsecond : rx'.data = s.chip.reg a :=
      (udata (.inr (by rwa [respond_cfg, hcfg])) (.inl (by rwa [respond_cfg, hcfg]))).trans (treg a (.inl hvol))
    refine ⟨_, _, rx.b0, rx'.b0, ht, hu, ?_, ?_⟩
    · rw [responses_of_read tran, hfirst]
    · rw [responses_of_read uran, hsecond]
  · obtain ⟨_, t, ht, tran, treg⟩ := exec_write_completes a v hruns (quiet_le hquiet (by omega))
    obtain ⟨_, u, hu, -, ureg⟩ := exec_write_completes a v (s := respond .ack t) (tran.runs hruns)
      (quiet_le (tran.quiet (k := 5) hquiet) (by omega))
    have hstored : t.chip.reg a = v := (treg a (.inl hvol)).trans (if_pos rfl)
    refine ⟨_, _, ht, hu, hstored, fun b hb => ?_⟩
    rw [respond_chip, ureg b (.inl (by rwa [respond_cfg, tran.cfg]))]
    split
    · rename_i hba
      rw [hba, respond_chip, hstored]
    · rfl

/-- Settles O14: the read of `a` leaves `b` alone, and the read of `b` takes its data from its own request. -/
theorem consecutiveReadsDoNotMix : Obligations.ConsecutiveReadsDoNotMix := by
  intro a b s hruns hquiet hread hstill
  obtain ⟨_, rx, t, ht, tran, tpend, treg, -⟩ := exec_read_completes a hruns (quiet_le hquiet (by omega))
  obtain ⟨_, rx', u, hu, uran, -, -, udata⟩ := exec_read_completes b (s := respond (.statusValue rx.b0 rx.data) t)
    (tran.runs hruns) (tran.quiet (k := 4) hquiet)
  have hdata : rx'.data = s.chip.reg b :=
    (udata (by rwa [State.Readable, respond_cfg, tran.cfg]) (tran.still (k := 3) hstill)).trans
      (treg b (still_le hstill (by omega)))
  exact ⟨_, _, rx'.b0, ht, tpend, hu, by rw [responses_of_read uran, hdata]⟩

/-! ### The moves of the chip -/

theorem drift_append (vol : List Addr) (c : Chip) (d d' : List (Addr × Word)) :
    c.drift vol (d ++ d') = (c.drift vol d).drift vol d' := by
  induction d generalizing c with
  | nil => rfl
  | cons m rest ih => exact ih _

/-- The last value given to a Volatile register is what it holds (R72). -/
theorem reg_drift_last {vol : List Addr} (c : Chip) (d : List (Addr × Word)) {a : Addr} (v : Word) (h : a ∈ vol) :
    (c.drift vol (d ++ [(a, v)])).reg a = v := by
  rw [drift_append]
  simp only [Chip.drift, if_pos h, reg_setReg_same]

/-- Settles O42: the two moves are `chipActs` and `powerCycle`, which touch the chip alone. -/
theorem chipActsBehindTheBlock : Obligations.ChipActsBehindTheBlock := by
  refine fun s rest hwire => ⟨fun drift hinputs => ?_, fun hinputs => ?_⟩
  · refine ⟨_, step_input hwire hinputs, rfl, drift_pend .., fun b hb => reg_drift_nonvolatile _ _ hb, ?_⟩
    rintro a v d rfl ha
    exact reg_drift_last _ _ _ ha
  · exact ⟨_, step_input hwire hinputs, rfl, rfl⟩

/-- Settles O59: after the power-cycle nothing is pending, and the response does not depend on the frame it answers. -/
theorem firstExchangeAfterPowerUpReturnsADraw : Obligations.FirstExchangeAfterPowerUpReturnsADraw := by
  intro a v s rest ans answers hwire hinputs henv hcompletes
  let t := powerCycle { s with inputs := rest }
  have hquiet : t.Quiet 1 := fun ans' hmem => by
    obtain rfl : ans' = ans := by simpa [t, henv] using hmem
    exact hcompletes
  have hans : nextAnswer t = ans := nextAnswer_of_head (by simp [t, henv])
  refine ⟨t, _, _, nextResponse t, step_input hwire hinputs, exec_frameRd_completes a hquiet,
    exec_frameWr_completes a v hquiet, exchanged_trace _ t, exchanged_trace _ t, ?_, ?_⟩
  · rw [nextResponse_b0, hans]
  · rw [nextResponse_data_of_pend_none rfl, hans]

end Sys2Proof.Machine
end

section
/-! PROOFS. Where frames come from: none stands on the wire after a step (R82), and a register outside the Volatile set changes
only by a write frame for it, also in a run that ends in an error (R72, R222). -/

namespace Sys2Proof.Machine

/-! ### The wire slot -/

@[simp] theorem ended_wire (i : Instr) (t : State) : (ended i t).wire = t.wire := by unfold ended; split <;> rfl

theorem exec_wire {i : Instr} {s t : State} (h : exec i s = .next t) : t.wire = s.wire := by
  rcases (exec_next h).1 with hok | ⟨e, hbroken⟩
  · rw [hok.follows.wire, ended_wire]; rfl
  · exact hbroken.follows.wire

/-- Settles O54: a step either takes the frame off the wire or finds none, and nothing it runs puts one there. -/
theorem noOtherBusMaster : Obligations.NoOtherBusMaster := by
  intro s t hstep
  rcases step_cases hstep with ⟨f, i, -, -, hx⟩ | ⟨hwire, -, rfl⟩ | ⟨w, i, rest, hwire, -, -, hx⟩ |
    ⟨w, e, rest, hwire, -, -, rfl⟩ | ⟨rest, hwire, -, rfl⟩ | ⟨d, rest, hwire, -, rfl⟩ | ⟨rest, hwire, -, rfl⟩
  · exact exec_wire hx
  · exact hwire
  · exact (exec_wire hx).trans hwire
  · exact hwire
  · exact hwire
  · exact hwire
  · exact hwire

/-! ### Write frames -/

theorem byte_eq_addr_or_flag (b0 : Byte) (h : b0.getLsbD 7 = true) : b0 = addrByte (b0.extractLsb' 0 7) ||| 0x80 := by
  revert b0; decide

theorem frameOf_data (f : Frame) : frameOf f.b0 f.data = f := by
  obtain ⟨b0, b1, b2, b3, b4⟩ := f
  simp only [frameOf, Frame.data, Frame.mk.injEq, true_and]
  refine ⟨?_, ?_, ?_, ?_⟩
  · iterate 3 rw [BitVec.extractLsb'_append_eq_of_le (by decide)]
    exact BitVec.extractLsb'_eq_self
  · iterate 2 rw [BitVec.extractLsb'_append_eq_of_le (by decide)]
    exact BitVec.extractLsb'_append_eq_right
  · rw [BitVec.extractLsb'_append_eq_of_le (by decide)]
    exact BitVec.extractLsb'_append_eq_right
  · exact BitVec.extractLsb'_append_eq_right

/-- Every frame with the write flag is the EncWrite of its address and its data (R91). -/
theorem eq_encWrite_of_isWrite {tx : Frame} (h : tx.isWrite = true) : tx = encWrite (addrByte tx.addr) tx.data :=
  calc tx = frameOf tx.b0 tx.data := (frameOf_data tx).symm
    _ = encWrite (addrByte tx.addr) tx.data := congrArg (frameOf · tx.data) (byte_eq_addr_or_flag tx.b0 h)

/-- A content that is not the old one was put there by a write frame. -/
theorem contentAfter_ne {es : List Event} {b : Addr} {w : Word} (h : contentAfter es b w ≠ w) :
    ∃ v rx, Event.xchg (encWrite (addrByte b) v) rx ∈ es := by
  by_contra hnone
  refine h (contentAfter_unwritten w fun tx rx hmem hwrite hb => hnone ⟨tx.data, rx, ?_⟩)
  rwa [hb, ← eq_encWrite_of_isWrite hwrite]

/-! ### What an instruction's events do to the registers -/

/-- From `s` to `t` the events `evs` were added, and their exchanges account for every register that is not Volatile. -/
structure Accounted (s t : State) (evs : List Event) : Prop where
  trace : t.trace = s.trace ++ evs
  reg : ∀ b, b ∉ s.cfg.volatile → t.chip.reg b = contentAfter evs b (s.chip.reg b)

/-- The instruction ended in the error `e` of the primitive that was to leave the event `ev`, after the events `pre`; `landed`
is the draw of R222. What the primitive was to do shows in the run in which it completes. -/
structure Interrupted (i : Instr) (s t : State) (pre : List Event) (ev : Event) (e : TErr) (landed : Bool) : Prop where
  answer : ∃ ans latch release u post, s.env[pre.length]? = some ans ∧ ans.verdict = .fails e landed latch release ∧
    exec i (s.completing pre.length ans) = .next u ∧ u.trace = s.trace ++ pre ++ ev :: post
  fault : t.fault = some e
  trace : s.trace ++ pre ++ [.err e] <+: t.trace
  reg : ∀ b, b ∉ s.cfg.volatile →
    t.chip.reg b = contentAfter (if landed = true then pre ++ [ev] else pre) b (s.chip.reg b)

theorem command_accounted {i : Instr} {s t : State} (hc : isCommand i = true) (h : exec i s = .next t) :
    (∃ evs, Accounted s t evs) ∨ ∃ pre ev e landed, Interrupted i s t pre ev e landed := by
  rcases exec_next_accepts hc h with ha | ⟨-, rfl⟩
  · rcases exec_next_cases ha h with q | ⟨k, ans, e, landed, latch, release, hk, q, he, hv⟩
    · obtain ⟨r, u, evs, hu, hp⟩ := exec_completes ha q
      obtain rfl : t = respond r (ended i u) := by rw [h] at hu; cases hu; rfl
      refine .inl ⟨evs ++ [.resp (encodeResponse r)], ?_, fun b hb => ?_⟩
      · rw [respond_trace, ended_trace, hp.ran.trace, List.append_assoc]; rfl
      · rw [respond_chip, ended_chip, hp.reg b (.inl hb), contentAfter_append]; rfl
    · obtain ⟨u, c, pre, ev, post, hu, hab, hc, hpost⟩ := exec_fails ha hk q he hv
      obtain rfl : t = respond (.transportError e) u := by rw [h] at hu; cases hu; rfl
      obtain rfl : pre.length = k := hab.count
      refine .inr ⟨pre, ev, e, landed, ⟨ans, latch, release, c, post, he, hv, hc, hpost⟩, hab.fault, ?_,
        fun b hb => hab.reg b (.inl hb)⟩
      rw [respond_trace, hab.trace]
      exact (List.prefix_append ..).trans (List.prefix_append ..)
  · exact .inl ⟨_, takeIllegal_trace s, fun _ _ => rfl⟩

theorem frame_accounted {i : Instr} {tx : Frame} (hx : ∀ s, exec i s = finishWire (wireExchange tx s)) {s t : State}
    (h : exec i s = .next t) : (∃ evs, Accounted s t evs) ∨ ∃ pre ev e landed, Interrupted i s t pre ev e landed := by
  rcases quiet_or_first s 1 with q | ⟨k, ans, hk, q, he, hv⟩
  · rw [hx, wireExchange_completes tx q] at h
    cases h
    exact .inl ⟨_, exchanged_trace tx s, fun b hb => exchanged_reg tx (.inl hb)⟩
  · obtain rfl : k = 0 := by omega
    have hans := nextAnswer_of_head he
    rw [hx] at h
    cases hc : ans.verdict with
    | completes => exact absurd hc hv
    | hangs => simp [wireExchange, primitive, hans, hc, finishWire] at h
    | fails e landed latch release =>
      rw [wireExchange, primitive_fails (hans ▸ hc)] at h
      cases h
      refine .inr ⟨[], .xchg tx (nextResponse (s.completing 0 ans)), e, landed,
        ⟨ans, latch, release, exchanged tx (s.completing 0 ans), [], he, hc, ?_, ?_⟩, takeTransportError_fault .., ?_,
        fun b hb => ?_⟩
      · rw [hx, List.length_nil, wireExchange_completes tx (quiet_completing ans q 1)]; rfl
      · rw [List.append_nil]; rfl
      · rw [takeTransportError_trace, List.append_nil]
        split
        · exact ⟨[.rel], List.append_assoc ..⟩
        · exact List.prefix_rfl
      · rw [takeTransportError_chip, reg_takeFailed, takeAnswer_chip, reg_drift_nonvolatile _ _ hb]
        cases landed <;> simp [contentAfter]

/-- The events of an instruction that answers a next state account for the registers, up to the frame that failed. -/
theorem exec_accounted {i : Instr} {s t : State} (h : exec i s = .next t) :
    (∃ evs, Accounted s t evs) ∨ ∃ pre ev e landed, Interrupted i s t pre ev e landed := by
  cases hc : isCommand i with
  | true => exact command_accounted hc h
  | false =>
    cases i with
    | frameWr a v => exact frame_accounted (fun _ => rfl) h
    | frameRd a => exact frame_accounted (fun _ => rfl) h
    | _ => cases hc

/-- An interrupted run that changed a register, by none of its completed exchanges, did so by the failed frame, which landed. -/
theorem Interrupted.landed_write {i : Instr} {s t : State} {pre : List Event} {ev : Event} {e : TErr} {landed : Bool}
    {b : Addr} (h : Interrupted i s t pre ev e landed) (hv : b ∉ s.cfg.volatile) (hne : t.chip.reg b ≠ s.chip.reg b)
    (hpre : contentAfter pre b (s.chip.reg b) = s.chip.reg b) :
    landed = true ∧ ∃ v rx, ev = .xchg (encWrite (addrByte b) v) rx ∧ t.chip.reg b = v := by
  have hreg := h.reg b hv
  cases landed with
  | false => exact absurd (hreg.trans hpre) hne
  | true =>
    rw [if_pos rfl, contentAfter_append, hpre] at hreg
    obtain ⟨v, rx, hmem⟩ := contentAfter_ne (hreg ▸ hne)
    obtain rfl := (List.mem_singleton.1 hmem).symm
    refine ⟨rfl, v, rx, rfl, ?_⟩
    rw [hreg]
    simp [contentAfter, isWrite_encWrite, addr_encWrite, data_encWrite]

/-- Settles O49: the change shows in the events by `exec_accounted`, or it is the failed frame's, which landed. -/
theorem registersChangeOnlyByWriteFrames : Obligations.RegistersChangeOnlyByWriteFrames := by
  intro i s t b hx hv hne
  rcases exec_accounted hx with ⟨evs, hacc⟩ | ⟨pre, ev, e, landed, hint⟩
  · obtain ⟨v, rx, hmem⟩ := contentAfter_ne (hacc.reg b hv ▸ hne)
    exact .inl ⟨evs, v, rx, hacc.trace, hmem⟩
  · by_cases hpre : contentAfter pre b (s.chip.reg b) = s.chip.reg b
    · obtain ⟨rfl, v, rx, rfl, hreg⟩ := hint.landed_write hv hne hpre
      obtain ⟨ans, latch, release, u, post, henv, hverdict, hu, hpost⟩ := hint.answer
      exact .inr ⟨_, ans, e, latch, release, u, pre, post, v, rx, henv, hverdict, hint.fault, rfl, hint.trace, hu, hpost,
        hreg⟩
    · obtain ⟨v, rx, hmem⟩ := contentAfter_ne hpre
      obtain ⟨rest, htrace⟩ := hint.trace
      refine .inl ⟨pre ++ [.err e] ++ rest, v, rx, by rw [← htrace]; simp, ?_⟩
      exact List.mem_append_left _ (List.mem_append_left _ hmem)

end Sys2Proof.Machine
end

section
/-! PROOFS. The encodings (spec/30_encoding.md): the fields of a word, the decoder and the encoder as inverses of each other
(R91, R92, R98, R99), and the illegal words (R110). -/

namespace Sys2Proof

/-! ### Fields of a byte -/

/-- The high part of a byte is zero exactly when the low part is the whole byte. -/
theorem high_eq_zero_iff {k m : Nat} (hkm : k + m = 8) (a : Byte) : a.extractLsb' k m = 0 ↔ a.toNat < 2 ^ k := by
  have hlt : a.toNat / 2 ^ k < 2 ^ m := by
    rw [Nat.div_lt_iff_lt_mul (by positivity), ← Nat.pow_add, Nat.add_comm m k, hkm]
    exact a.isLt
  rw [← BitVec.toNat_inj, BitVec.extractLsb'_toNat, Nat.shiftRight_eq_div_pow, Nat.mod_eq_of_lt hlt]
  simp [Nat.div_eq_zero_iff]

/-- The write flag, or the reserved bit of an address (R90, R110 (c)), as a bound. -/
theorem bit7_eq_true_iff (a : Byte) : a.getLsbD 7 = true ↔ 2 ^ 7 ≤ a.toNat := by
  revert a; decide

/-- A byte whose high part is zero is its low part. -/
theorem setWidth_low {k m : Nat} (hkm : k + m = 8) {a : Byte} (h : a.extractLsb' k m = 0) :
    (a.extractLsb' 0 k).setWidth 8 = a := by
  apply BitVec.eq_of_toNat_eq
  simp [BitVec.extractLsb'_toNat, Nat.mod_eq_of_lt ((high_eq_zero_iff hkm a).1 h), a.isLt]

theorem addrByte_low {a : Byte} (h : a.getLsbD 7 = false) : addrByte (a.extractLsb' 0 7) = a := by
  revert a; decide

/-- An operand of at most 8 bits is read back from its byte. -/
theorem low_setWidth {k : Nat} (hk : k ≤ 8) (x : BitVec k) : (x.setWidth 8).extractLsb' 0 k = x := by
  apply BitVec.eq_of_toNat_eq
  have hx : x.toNat < 256 := x.isLt.trans_le (Nat.pow_le_pow_right (by decide) hk)
  simp [BitVec.extractLsb'_toNat, Nat.mod_eq_of_lt hx, Nat.mod_eq_of_lt x.isLt]

theorem setWidth_toNat_lt {k : Nat} (x : BitVec k) : (x.setWidth 8).toNat < 2 ^ k :=
  (BitVec.toNat_setWidth 8 x ▸ Nat.mod_le ..).trans_lt x.isLt

theorem high_setWidth {k m : Nat} (hkm : k + m = 8) (x : BitVec k) : (x.setWidth 8).extractLsb' k m = 0 :=
  (high_eq_zero_iff hkm _).2 (setWidth_toNat_lt x)

theorem low_addrByte (a : Addr) : (addrByte a).extractLsb' 0 7 = a := low_setWidth (by decide) a

theorem bit7_addrByte (a : Addr) : (addrByte a)[7] = false :=
  Bool.eq_false_iff.2 fun h => absurd ((bit7_eq_true_iff _).1 h) (setWidth_toNat_lt a).not_ge

theorem ofCode_code (m : RampMode) : RampMode.ofCode m.code = m := by cases m <;> rfl

theorem code_ofCode (c : BitVec 2) : (RampMode.ofCode c).code = c := by revert c; decide

theorem flagByte_bit0 {a : Byte} (h : a.extractLsb' 1 7 = 0) : flagByte (a.getLsbD 0) = a := by revert a; decide

theorem bit0_flagByte (b : Bool) : (flagByte b)[0] = b := by cases b <;> rfl

theorem high_flagByte (b : Bool) : (flagByte b).extractLsb' 1 7 = 0 := by cases b <;> rfl

/-! ### Fields of a word -/

@[simp] theorem opField_cmdWord (op a : Byte) (v : Word) : opField (cmdWord op a v) = op := by
  unfold opField cmdWord
  iterate 2 rw [BitVec.extractLsb'_append_eq_of_le (by decide)]
  exact BitVec.extractLsb'_eq_self

@[simp] theorem aField_cmdWord (op a : Byte) (v : Word) : aField (cmdWord op a v) = a := by
  unfold aField cmdWord
  rw [BitVec.extractLsb'_append_eq_of_le (by decide)]
  exact BitVec.extractLsb'_append_eq_right

@[simp] theorem vField_cmdWord (op a : Byte) (v : Word) : vField (cmdWord op a v) = v :=
  BitVec.extractLsb'_append_eq_right

/-- A word is its three fields (R98). -/
theorem cmdWord_fields (w : PortWord) : cmdWord (opField w) (aField w) (vField w) = w := by
  unfold cmdWord opField aField vField
  rw [BitVec.extractLsb'_append_extractLsb'_eq_extractLsb' (by decide),
    BitVec.extractLsb'_append_extractLsb'_eq_extractLsb' (by decide)]
  exact BitVec.extractLsb'_eq_self

/-- A word is the command word of fields that are its own. -/
theorem cmdWord_eq_of_fields {w : PortWord} {op a : Byte} {v : Word} (hop : (opField w).toNat = op.toNat)
    (ha : a = aField w) (hv : v = vField w) : cmdWord op a v = w := by
  rw [← BitVec.eq_of_toNat_eq hop, ha, hv, cmdWord_fields]

/-- The two currents of setCurrentLimits are the halves of `v` (R99, R100). -/
theorem low_append (h r : BitVec 16) : (h ++ r : BitVec (16 + 16)).extractLsb' 0 16 = r := BitVec.extractLsb'_append_eq_right

theorem high_append (h r : BitVec 16) : (h ++ r : BitVec (16 + 16)).extractLsb' 16 16 = h := by
  rw [BitVec.extractLsb'_append_eq_of_le (by decide)]
  exact BitVec.extractLsb'_eq_self

theorem append_halves (v : Word) : (v.extractLsb' 16 16 ++ v.extractLsb' 0 16 : BitVec (16 + 16)) = v := by
  rw [BitVec.extractLsb'_append_extractLsb'_eq_extractLsb' (by decide)]
  exact BitVec.extractLsb'_eq_self

/-! ### Wire frames in the joint numbering -/

theorem ofBits_toBits (f : Frame) : Frame.ofBits f.toBits = f := by
  have hb0 : f.toBits.extractLsb' 32 8 = f.b0 := by
    unfold Frame.toBits
    rw [BitVec.extractLsb'_append_eq_of_le (by decide)]
    exact BitVec.extractLsb'_eq_self
  have hdata : f.toBits.extractLsb' 0 32 = f.data := BitVec.extractLsb'_append_eq_right
  rw [Frame.ofBits, hb0, hdata]
  exact Machine.frameOf_data f

theorem toBits_ofBits (w : BitVec 40) : (Frame.ofBits w).toBits = w := by
  rw [Frame.toBits, Frame.ofBits, data_frameOf, b0_frameOf, BitVec.extractLsb'_append_extractLsb'_eq_extractLsb' (by decide)]
  exact BitVec.extractLsb'_eq_self

theorem opField_wireWord (f : Frame) : opField (wireWord f) = 0 := by
  unfold opField wireWord
  rw [BitVec.extractLsb'_append_eq_of_le (by decide)]
  exact BitVec.extractLsb'_eq_self

theorem wireWord_bits (f : Frame) : (wireWord f).extractLsb' 0 40 = f.toBits := BitVec.extractLsb'_append_eq_right

/-- A word with top byte zero is the wire word of the frame it is read as. -/
theorem wireWord_ofBits {w : PortWord} (h : opField w = 0) : wireWord (Frame.ofBits (w.extractLsb' 0 40)) = w := by
  rw [wireWord, toBits_ofBits, show 0#8 = w.extractLsb' 40 8 from h.symm,
    BitVec.extractLsb'_append_extractLsb'_eq_extractLsb' (by decide)]
  exact BitVec.extractLsb'_eq_self

/-- A frame that decodes is the one its instruction sends: every bit of it counts (R91, R92). -/
theorem decodeFrame_ok_encode {f : Frame} {i : Instr} (h : decodeFrame f = .ok i) :
    i.wf = true ∧ encode i = wireWord f := by
  unfold decodeFrame at h
  split at h
  · rename_i hwrite
    cases h
    exact ⟨rfl, congrArg wireWord (Machine.eq_encWrite_of_isWrite hwrite).symm⟩
  · split at h
    · rename_i hread hzero
      cases h
      have hb0 : addrByte f.addr = f.b0 := addrByte_low (Bool.eq_false_of_not_eq_true hread)
      have hframe : encRead (addrByte f.addr) = f := by rw [encRead, hb0, ← hzero, Machine.frameOf_data]
      exact ⟨rfl, congrArg wireWord hframe⟩
    · cases h

theorem decodeFrame_encWrite (a : Addr) (v : Word) : decodeFrame (encWrite (addrByte a) v) = .ok (.frameWr a v) := by
  rw [decodeFrame, if_pos (isWrite_encWrite ..), addr_encWrite, data_encWrite]

theorem decodeFrame_encRead (a : Addr) : decodeFrame (encRead (addrByte a)) = .ok (.frameRd a) := by
  rw [decodeFrame, isWrite_encRead, if_neg Bool.false_ne_true, if_pos (data_encRead _), addr_encRead]

theorem decodeWord_wireWord (f : Frame) : decodeWord (wireWord f) = decodeFrame f := by
  rw [decodeWord, if_pos (opField_wireWord f), wireWord_bits, ofBits_toBits]

theorem decodeWord_of_op_ne_zero {w : PortWord} (h : opField w ≠ 0) : decodeWord w = decodeCmd w := if_neg h

/-! ### What the checks of the command decoder let through -/

section
variable {p : Prop} [Decidable p] {e : Reject} {i j : Instr} {x : Except Reject Instr}

theorem accept_ok : (if p then .ok i else .error e) = (.ok j : Except Reject Instr) ↔ p ∧ i = j := by
  split <;> simp [*]

theorem refuse_ok : (if p then .error e else x) = .ok j ↔ ¬ p ∧ x = .ok j := by
  split <;> simp [*]

theorem accept_error : (∃ r, (if p then .ok i else .error e) = (.error r : Except Reject Instr)) ↔ ¬ p := by
  split <;> simp [*]

theorem refuse_error : (∃ r, (if p then .error e else x) = .error r) ↔ p ∨ ∃ r, x = .error r := by
  split <;> simp [*]

end

/-! The three shapes of R99's rows are made of those checks. -/

theorem noOperands_ok {a : Byte} {v : Word} {i j : Instr} : noOperands a v i = .ok j ↔ (a = 0 ∧ v = 0) ∧ i = j :=
  accept_ok

theorem vOnly_ok {a : Byte} {i j : Instr} : vOnly a i = .ok j ↔ a = 0 ∧ i = j := accept_ok

theorem aLow_ok {high : Bool} {v : Word} {i j : Instr} : aLow high v i = .ok j ↔ high = false ∧ v = 0 ∧ i = j :=
  refuse_ok.trans (and_congr (by simp) accept_ok)

theorem noOperands_error {a : Byte} {v : Word} {i : Instr} : (∃ r, noOperands a v i = .error r) ↔ ¬ (a = 0 ∧ v = 0) :=
  accept_error

theorem vOnly_error {a : Byte} {i : Instr} : (∃ r, vOnly a i = .error r) ↔ ¬ a = 0 := accept_error

theorem aLow_error {high : Bool} {v : Word} {i : Instr} : (∃ r, aLow high v i = .error r) ↔ high = true ∨ ¬ v = 0 :=
  refuse_error.trans (or_congr_right accept_error)

/-! ### Decoder and encoder -/

/-- The word of a well-formed command is read back by the command decoder: each field of the word is the operand's. -/
theorem decodeCmd_encode {i : Instr} (hc : Machine.isCommand i = true) (hw : i.wf = true) : decodeCmd (encode i) = .ok i := by
  cases i with
  | getPosition | updateMotionProfile | getEncoderPosition | isStopped => rfl
  | beginBlock cs => simp [encode, decodeCmd]
  | jog v | moveTo v | setVelocity v | setPosition v | setEncoderPosition v => simp [encode, decodeCmd, vOnly]
  | write a v | read a => simp [encode, decodeCmd, aLow, bit7_addrByte, low_addrByte]
  | setRampMode m => simp [encode, decodeCmd, aLow, high_setWidth, low_setWidth, ofCode_code]
  | enableStealthChop en | reverseDirection en => simp [encode, decodeCmd, aLow, high_flagByte, bit0_flagByte]
  | setCurrentLimits d h r => simp [encode, decodeCmd, high_setWidth, low_setWidth, high_append, low_append]
  | setProfileField k v | getProfileField k =>
    have hk : profileIndexOk k = true := hw
    simp [encode, decodeCmd, high_setWidth, low_setWidth, hk]
  | frameWr a v | frameRd a => cases hc

theorem opField_encode_ne_zero {i : Instr} (hc : Machine.isCommand i = true) : opField (encode i) ≠ 0 := by
  cases i with
  | frameWr a v | frameRd a => cases hc
  | _ => rw [encode, opField_cmdWord]; decide

/-- Settles O2: a command by `decodeCmd_encode`, a wire frame by the frame its word holds. -/
theorem decodeOfEncodeIsTheInstruction : Obligations.DecodeOfEncodeIsTheInstruction := by
  intro i hwf
  cases hc : Machine.isCommand i with
  | true => rw [decodeWord_of_op_ne_zero (opField_encode_ne_zero hc), decodeCmd_encode hc hwf]
  | false =>
    cases i with
    | frameWr a v => exact (decodeWord_wireWord _).trans (decodeFrame_encWrite a v)
    | frameRd a => exact (decodeWord_wireWord _).trans (decodeFrame_encRead a)
    | _ => cases hc

/-- A command word that decodes is the encoding of what it decodes to: the fields the decoder requires to be zero are those
that the encoder leaves zero. -/
theorem encode_of_decodeCmd {w : PortWord} {i : Instr} (h : decodeCmd w = .ok i) : encode i = w := by
  simp only [decodeCmd] at h
  -- case h_k is the row of op k, and h_19 that of the undefined ones.
  split at h <;> rename_i hop
  case h_1 =>
    obtain ⟨hv, rfl⟩ := accept_ok.1 h
    exact cmdWord_eq_of_fields hop rfl hv.symm
  case h_2 =>
    obtain ⟨ha, ⟨⟩⟩ := refuse_ok.1 h
    exact cmdWord_eq_of_fields hop (addrByte_low (Bool.eq_false_of_not_eq_true ha)) rfl
  case h_3 =>
    obtain ⟨ha, hv, rfl⟩ := aLow_ok.1 h
    exact cmdWord_eq_of_fields hop (addrByte_low ha) hv.symm
  case h_4 =>
    obtain ⟨ha, hv, rfl⟩ := aLow_ok.1 h
    refine cmdWord_eq_of_fields hop ?_ hv.symm
    rw [code_ofCode, setWidth_low (by decide) (of_not_not (of_decide_eq_false ha))]
  case h_8 | h_9 =>
    obtain ⟨ha, hv, rfl⟩ := aLow_ok.1 h
    exact cmdWord_eq_of_fields hop (flagByte_bit0 (of_not_not (of_decide_eq_false ha))) hv.symm
  case h_12 =>
    obtain ⟨ha, ⟨⟩⟩ := refuse_ok.1 h
    exact cmdWord_eq_of_fields hop (setWidth_low (by decide) (of_not_not ha)) (append_halves _)
  case h_17 =>
    obtain ⟨ha, hx⟩ := refuse_ok.1 h
    obtain ⟨-, rfl⟩ := accept_ok.1 hx
    exact cmdWord_eq_of_fields hop (setWidth_low (by decide) (of_not_not ha)) rfl
  case h_18 =>
    obtain ⟨ha, hx⟩ := refuse_ok.1 h
    obtain ⟨hv, hx⟩ := refuse_ok.1 hx
    obtain ⟨-, rfl⟩ := accept_ok.1 hx
    exact cmdWord_eq_of_fields hop (setWidth_low (by decide) (of_not_not ha)) (of_not_not hv).symm
  case h_5 | h_6 | h_7 | h_10 | h_15 =>
    obtain ⟨ha, rfl⟩ := vOnly_ok.1 h
    exact cmdWord_eq_of_fields hop ha.symm rfl
  case h_11 | h_13 | h_14 | h_16 =>
    obtain ⟨⟨ha, hv⟩, rfl⟩ := noOperands_ok.1 h
    exact cmdWord_eq_of_fields hop ha.symm hv.symm
  case h_19 => cases h

/-- Settles O3: at the command port by `encode_of_decodeCmd`; a word with top byte zero by the frame it holds. -/
theorem encodeOfDecodeIsTheWord : Obligations.EncodeOfDecodeIsTheWord := by
  refine ⟨fun w i h => ?_, fun w i h => ⟨(Machine.decodeCmd_ok h).1, (Machine.decodeCmd_ok h).2, encode_of_decodeCmd h⟩⟩
  by_cases hop : opField w = 0
  · obtain ⟨hwf, hword⟩ := decodeFrame_ok_encode ((if_pos hop).symm.trans h)
    exact ⟨hwf, hword.trans (wireWord_ofBits hop)⟩
  · have hcmd := (decodeWord_of_op_ne_zero hop).symm.trans h
    exact ⟨(Machine.decodeCmd_ok hcmd).2, encode_of_decodeCmd hcmd⟩

/-! ### Illegal words -/

/-- R110 on the fields `op`, `a` and `v` of a command word: (a) an undefined op, (b) an unused field not zero, (c) a reserved
high part of `a` not zero, (d) the profile index 7. -/
def IllegalFields (op a v : Nat) : Prop :=
  (op = 0x00 ∨ 0x13 ≤ op) ∨
  (op ∈ [0x01, 0x03, 0x04, 0x08, 0x09, 0x0B, 0x0D, 0x0E, 0x10, 0x12] ∧ v ≠ 0) ∨
  (op ∈ [0x05, 0x06, 0x07, 0x0A, 0x0B, 0x0D, 0x0E, 0x0F, 0x10] ∧ a ≠ 0) ∨
  (op ∈ [0x02, 0x03] ∧ 2 ^ 7 ≤ a) ∨ (op = 0x04 ∧ 2 ^ 2 ≤ a) ∨ (op ∈ [0x08, 0x09] ∧ 2 ≤ a) ∨
  (op = 0x0C ∧ 2 ^ 4 ≤ a) ∨ (op ∈ [0x11, 0x12] ∧ (2 ^ 3 ≤ a ∨ a = 7))

theorem high_ne_zero_iff {k m : Nat} (hkm : k + m = 8) (a : Byte) : a.extractLsb' k m ≠ 0 ↔ 2 ^ k ≤ a.toNat :=
  (high_eq_zero_iff hkm a).not.trans not_lt

theorem profileIndex_illegal_iff (a : Byte) : (a.extractLsb' 3 5 ≠ 0 ∨ ¬ profileIndexOk (a.extractLsb' 0 3) = true) ↔
    2 ^ 3 ≤ a.toNat ∨ a.toNat = 7 := by
  revert a; decide

/-- The command decoder refuses exactly the words of R110. -/
theorem decodeCmd_error_iff (w : PortWord) :
    (∃ r, decodeCmd w = .error r) ↔ IllegalFields (opField w).toNat (aField w).toNat (vField w).toNat := by
  have ha0 : aField w = 0 ↔ (aField w).toNat = 0 := BitVec.toNat_inj.symm
  have hv0 : vField w = 0 ↔ (vField w).toNat = 0 := BitVec.toNat_inj.symm
  simp only [decodeCmd]
  split <;> rename_i hop
  case h_1 => rw [accept_error, hv0]; simp [IllegalFields, hop]
  case h_2 => rw [refuse_error, bit7_eq_true_iff]; simp [IllegalFields, hop]
  case h_3 => rw [aLow_error, bit7_eq_true_iff, hv0]; simp [IllegalFields, hop, or_comm]
  case h_4 | h_8 | h_9 => rw [aLow_error, decide_eq_true_iff, high_ne_zero_iff rfl, hv0]; simp [IllegalFields, hop, or_comm]
  case h_12 => rw [refuse_error, high_ne_zero_iff rfl]; simp [IllegalFields, hop]
  case h_17 => rw [refuse_error, accept_error, profileIndex_illegal_iff]; simp [IllegalFields, hop]
  case h_18 =>
    rw [refuse_error, refuse_error, accept_error, or_left_comm, profileIndex_illegal_iff, ne_eq, hv0]
    simp [IllegalFields, hop]
  case h_5 | h_6 | h_7 | h_10 | h_15 => rw [vOnly_error, ha0]; simp [IllegalFields, hop]
  case h_11 | h_13 | h_14 | h_16 => rw [noOperands_error, ha0, hv0, not_and_or]; simp [IllegalFields, hop, or_comm]
  case h_19 =>
    simp only [imp_false] at *
    have hundef : (opField w).toNat = 0 ∨ 0x13 ≤ (opField w).toNat := by omega
    exact iff_of_true ⟨_, rfl⟩ (.inl hundef)

/-- An illegal word takes nothing but the presented word and the response ILLEGAL (R223). -/
theorem step_illegal {s : Machine.State} {w : PortWord} {rest : List Machine.Input} {r : Reject} (hwire : s.wire = none)
    (hinputs : s.inputs = .cmd w :: rest) (hdecode : decodeCmd w = .error r) :
    Machine.step s = .next (Machine.takeIllegal (Machine.presented w { s with inputs := rest })) := by
  rw [Machine.step_input hwire hinputs]
  simp only [Machine.acceptInput, Machine.acceptCommand, hdecode]

theorem encodeResponse_illegal : encodeResponse .illegal = 0xEF0000000000 := by decide

/-- Settles O4: the words by `decodeCmd_error_iff`, the end of one by `step_illegal`. -/
theorem illegalWordsAreThoseOfR110 : Obligations.IllegalWordsAreThoseOfR110 := by
  refine ⟨decodeCmd_error_iff, fun s w rest r hwire hinputs hdecode => ?_⟩
  rw [step_illegal hwire hinputs hdecode, ← encodeResponse_illegal]
  simp [Machine.takeIllegal, Machine.respond, Machine.presented]

/-! ### Words written out -/

/-- Settles O1: the decoders run on the nine words. -/
theorem wordsOfTheSpecDecodeAsWritten : Obligations.WordsOfTheSpecDecodeAsWritten := by
  unfold Obligations.WordsOfTheSpecDecodeAsWritten
  decide

/-- Settles O6: every response word is written as a command word, whose fields are those it is made of. -/
theorem responseWordsOfTheSixKinds : Obligations.ResponseWordsOfTheSixKinds := by
  refine ⟨fun _ => rfl, fun _ _ => rfl, by decide, by decide, fun _ => rfl, encodeResponse_illegal, by decide, fun r => ?_⟩
  cases r <;> simp [encodeResponse]

end Sys2Proof
end

section
/-! PROOFS. The wire codec (spec/30_encoding.md R94, R95) and the edit of one bit (R97). -/

namespace Sys2Proof

theorem addr_of_encWrite (a : Byte) (v : Word) : (encWrite a v).addr = a.extractLsb' 0 7 := by
  show (a ||| 0x80).extractLsb' 0 7 = a.extractLsb' 0 7
  revert a; decide

theorem isWrite_encRead_of_le {a : Byte} (h : a.toNat ≤ 0x7F) : (encRead a).isWrite = false :=
  Bool.eq_false_iff.2 fun hw => absurd ((bit7_eq_true_iff a).1 hw) (Nat.lt_succ_of_le h).not_ge

/-- Settles O5: each half of the codec gives back what the other was made of. -/
theorem framesOfTheCodec : Obligations.FramesOfTheCodec := by
  refine ⟨fun a v => ⟨rfl, rfl, rfl, rfl, rfl, data_encWrite a v⟩, fun a => rfl, fun s v => ?_,
    fun a v ha => ⟨isWrite_encRead_of_le ha, isWrite_encWrite a v⟩, fun a a' v v' h => ⟨?_, ?_⟩,
    fun a a' h => congrArg Frame.b0 h⟩
  · rw [decResp, b0_frameOf, data_frameOf]
  · rw [← addr_of_encWrite a v, h, addr_of_encWrite]
  · rw [← data_encWrite a v, h, data_encWrite]

namespace Machine

/-- The mask of EditBit has the one bit `k`. -/
theorem getLsbD_mask {k j : Nat} (hj : j < 32) : (1#32 <<< k).getLsbD j = decide (j = k) := by
  rw [show 1#32 <<< k = BitVec.twoPow 32 k from rfl, BitVec.getLsbD_twoPow, ← Bool.decide_and, decide_eq_decide]
  omega

theorem getLsbD_editBit (g : Word) {k j : Nat} (hj : j < 32) (en : Bool) :
    (editBit g k en).getLsbD j = if j = k then en else g.getLsbD j := by
  have hmask : ((1 : Word) <<< k).getLsbD j = decide (j = k) := getLsbD_mask hj
  cases en with
  | true => rw [editBit, if_pos rfl, BitVec.getLsbD_or, hmask]; split <;> simp [*]
  | false =>
    rw [editBit, if_neg Bool.false_ne_true, BitVec.getLsbD_and, BitVec.getLsbD_not, hmask]; split <;> simp [*]

/-- Settles O7: bit by bit, with the mask's one bit. -/
theorem editBitChangesOneBit : Obligations.EditBitChangesOneBit :=
  ⟨fun _ _ => ⟨rfl, rfl⟩, fun g _ _ en _ hj => getLsbD_editBit g hj en, rfl, rfl, rfl⟩

end Machine

end Sys2Proof
end

section
/-! PROOFS. Two spellings of one command: the single-write commands and the raw write (spec/30_encoding.md R105), and the
omitted hold delay (R104). -/

namespace Sys2Proof.Machine

/-- A single-write command is the raw write of its register. -/
theorem writeRegister_eq_write (r : Config.RegName) (v : Word) (s : State) :
    writeRegister r v s = exec (.write (s.cfg.map.addr r) v) s := by
  simp only [writeRegister, exec, execWrite, whenReady, unlessFaulted]

/-- Settles O17: each of the four is `writeRegister` of its register. -/
theorem registerCommandsEqualRawWrites : Obligations.RegisterCommandsEqualRawWrites := fun s p m =>
  ⟨writeRegister_eq_write .xtarget p s, writeRegister_eq_write .xactual p s, writeRegister_eq_write .xenc p s,
    writeRegister_eq_write .rampmode (rampWord s.cfg m) s⟩

theorem currentOperand_amps {m : Nat} (h : m < 65536) : currentOperand (.amps m) = some (BitVec.ofNat 16 m) := if_pos h

/-- Settles O55: both lines read the two currents alike, and the operand 7 is HOLD_DELAY_DEFAULT. -/
theorem omittedHoldDelayAssemblesAsSeven : Obligations.OmittedHoldDelayAssemblesAsSeven := by
  intro p hold run hhold hrun
  have h7 : natOperand 4 (.int 7) = some holdDelayDefault := by decide
  simp only [assemble, currentOperand_amps hhold, currentOperand_amps hrun, h7]
  exact ⟨rfl, rfl⟩

end Sys2Proof.Machine
end

section
/-! PROOFS. The frames an instruction sends are write frames and read-request frames with a zero payload (spec/30_encoding.md
R91, R92, R109). -/

namespace Sys2Proof.Machine

/-- A frame of the block (R91, R92): EncWrite or EncRead of a 7-bit address. -/
def BlockFrame (tx : Frame) : Prop :=
  (∃ (a : Addr) (v : Word), tx = encWrite (addrByte a) v) ∨ ∃ a : Addr, tx = encRead (addrByte a)

theorem blockFrame_encWrite (a : Addr) (v : Word) : BlockFrame (encWrite (addrByte a) v) := .inl ⟨a, v, rfl⟩

theorem blockFrame_encRead (a : Addr) : BlockFrame (encRead (addrByte a)) := .inr ⟨a, rfl⟩

/-- From `s` to `t` events were added whose exchanges sent frames of the block alone. -/
def SentFrames (s t : State) : Prop :=
  ∃ evs, t.trace = s.trace ++ evs ∧ ∀ tx rx, Event.xchg tx rx ∈ evs → BlockFrame tx

theorem SentFrames.of_trace_eq {s t : State} (h : t.trace = s.trace) : SentFrames s t := ⟨[], by simp [h], by simp⟩

theorem SentFrames.of_event {s t : State} {ev : Event} (h : t.trace = s.trace ++ [ev])
    (hev : ∀ tx rx, ev = .xchg tx rx → BlockFrame tx) : SentFrames s t :=
  ⟨[ev], h, fun tx rx hm => hev tx rx (List.mem_singleton.1 hm).symm⟩

theorem SentFrames.trans {s t u : State} (h : SentFrames s t) (k : SentFrames t u) : SentFrames s u := by
  obtain ⟨es, hes, hframes⟩ := h
  obtain ⟨fs, hfs, kframes⟩ := k
  exact ⟨es ++ fs, by rw [hfs, hes, List.append_assoc], fun tx rx hm =>
    (List.mem_append.1 hm).elim (hframes tx rx) (kframes tx rx)⟩

/-- Taking a transport error sends nothing (R222). -/
theorem takeTransportError_sentFrames {s t : State} (e : TErr) (r : Bool) (h : t.trace = s.trace) :
    SentFrames s (takeTransportError e r t) := by
  refine ⟨_, by rw [takeTransportError_trace, h], fun tx rx hm => ?_⟩
  split at hm <;> simp at hm

/-- A sequence sends frames of the block alone, whether it completes or fails. -/
abbrev Attempt.SendsFrames {α : Type} (s : State) (t : Attempt α) : Prop :=
  t.Sat (fun _ u => SentFrames s u) (fun _ u => SentFrames s u)

theorem sendsFrames_andThen {α β : Type} {s : State} {t : Attempt α} {k : α → State → Attempt β} (h : t.SendsFrames s)
    (hk : ∀ r u, (k r u).SendsFrames u) : (t.andThen k).SendsFrames s :=
  sat_andThen h fun r u hu => sat_mono (hk r u) (fun _ _ hv => hu.trans hv) fun _ _ hv => hu.trans hv

theorem busAcquire_sendsFrames (s : State) : (busAcquire s).SendsFrames s :=
  primitive_sat (.of_event rfl fun _ _ h => by cases h) fun e _ _ r _ => takeTransportError_sentFrames e r rfl

theorem busRelease_sendsFrames (s : State) : (busRelease s).SendsFrames s :=
  primitive_sat (.of_event rfl fun _ _ h => by cases h) fun e _ _ r _ => takeTransportError_sentFrames e r rfl

theorem platformSetup_sendsFrames (cs : Byte) (s : State) : (platformSetup cs s).SendsFrames s :=
  primitive_sat (.of_event rfl fun _ _ h => by cases h) fun e _ _ r _ => takeTransportError_sentFrames e r rfl

theorem wireExchange_sendsFrames {tx : Frame} (h : BlockFrame tx) (s : State) : (wireExchange tx s).SendsFrames s :=
  primitive_sat (.of_event rfl fun _ _ he => by cases he; exact h) fun e _ _ r _ => takeTransportError_sentFrames e r rfl

theorem busExchange_sendsFrames {tx : Frame} (h : BlockFrame tx) (s : State) : (busExchange tx s).SendsFrames s :=
  sendsFrames_andThen (wireExchange_sendsFrames h s) fun _ _ => .of_trace_eq rfl

theorem memWrite_sendsFrames (a : Addr) (v : Word) (s : State) : (memWrite a v s).SendsFrames s :=
  sendsFrames_andThen (busAcquire_sendsFrames s) fun _ s1 =>
  sendsFrames_andThen (busExchange_sendsFrames (blockFrame_encWrite a v) s1) fun _ s2 => busRelease_sendsFrames s2

theorem memRead_sendsFrames (a : Addr) (s : State) : (memRead a s).SendsFrames s :=
  sendsFrames_andThen (busAcquire_sendsFrames s) fun _ s1 =>
  sendsFrames_andThen (busExchange_sendsFrames (blockFrame_encRead a) s1) fun _ s2 =>
  sendsFrames_andThen (busExchange_sendsFrames (blockFrame_encRead a) s2) fun _ s3 =>
  sendsFrames_andThen (busRelease_sendsFrames s3) fun _ _ => .of_trace_eq rfl

theorem memWrites_sendsFrames (ws : List (Addr × Word)) (s : State) : (memWrites ws s).SendsFrames s := by
  induction ws generalizing s with
  | nil => exact .of_trace_eq rfl
  | cons w rest ih => exact sendsFrames_andThen (memWrite_sendsFrames w.1 w.2 s) fun _ s1 => ih s1

theorem editRegister_sendsFrames (a : Addr) (bit : Nat) (en : Bool) (s : State) : (editRegister a bit en s).SendsFrames s :=
  sendsFrames_andThen (memRead_sendsFrames a s) fun r s1 => memWrite_sendsFrames a (editBit r.2 bit en) s1

theorem thenRespond_sendsFrames {α : Type} {f : State → Attempt α} {s : State} (r : α → Response)
    (h : (f s).SendsFrames s) : (thenRespond f r s).SendsFrames s :=
  sendsFrames_andThen h fun _ _ => .of_trace_eq rfl

/-- The sequence of every command sends frames of the block alone. -/
theorem body_sendsFrames (i : Instr) (s : State) : (body i s).SendsFrames s := by
  cases i with
  | beginBlock cs =>
    let s1 := started (.beginBlock cs) s
    exact thenRespond_sendsFrames (f := fun s0 => (platformSetup cs s0).andThen _) (s := s1) _
      (sendsFrames_andThen (platformSetup_sendsFrames cs s1) fun _ s2 =>
        sendsFrames_andThen (memWrites_sendsFrames (beginWrites s2.cfg s2.x) s2) fun _ _ => SentFrames.of_trace_eq rfl)
  | write _ _ | setRampMode _ | moveTo _ | setPosition _ | setEncoderPosition _ =>
    exact thenRespond_sendsFrames _ (memWrite_sendsFrames _ _ s)
  | setVelocity v => exact thenRespond_sendsFrames _ (memWrite_sendsFrames _ v (started (.setVelocity v) s))
  | read _ | getPosition | getEncoderPosition | isStopped => exact thenRespond_sendsFrames _ (memRead_sendsFrames _ s)
  | jog d =>
    exact thenRespond_sendsFrames (f := fun s0 => (memRead _ s0).andThen _) _
      (sendsFrames_andThen (memRead_sendsFrames _ s) fun p u => memWrite_sendsFrames _ (p.2 + d) u)
  | enableStealthChop en | reverseDirection en => exact thenRespond_sendsFrames _ (editRegister_sendsFrames _ _ en s)
  | setCurrentLimits d h r =>
    exact thenRespond_sendsFrames (f := fun s0 => (memWrite _ _ s0).andThen _) _
      (sendsFrames_andThen (memWrite_sendsFrames _ (currentWord d h r) s) fun _ u => editRegister_sendsFrames _ _ _ u)
  | updateMotionProfile => exact thenRespond_sendsFrames _ (memWrites_sendsFrames (commitWrites s.cfg s.x) s)
  | setProfileField k _ | getProfileField k => cases hk : profileIndex k <;> simp only [body, hk] <;> exact .of_trace_eq rfl
  | frameWr _ _ | frameRd _ => exact .of_trace_eq rfl

theorem respond_sentFrames (r : Response) (s : State) : SentFrames s (respond r s) :=
  .of_event (respond_trace r s) fun _ _ h => by cases h

theorem finish_sentFrames {t : Attempt Response} {s u : State} (h : t.SendsFrames s) (hn : finish t = .next u) :
    SentFrames s u := by
  rcases finish_next hn with ⟨r, v, hd, rfl⟩ | ⟨e, v, hf, rfl⟩
  · exact (sat_done h hd).trans (respond_sentFrames r v)
  · exact (sat_failed h hf).trans (respond_sentFrames _ v)

theorem finishWire_sentFrames {t : Attempt Frame} {s u : State} (h : t.SendsFrames s) (hn : finishWire t = .next u) :
    SentFrames s u := by
  rcases finishWire_next hn with ⟨rx, hd⟩ | ⟨e, hf⟩
  · exact sat_done h hd
  · exact sat_failed h hf

/-- Settles O53: a command is its sequence, finished, and a wire frame is one exchange of a frame of the block. -/
theorem framesSentAreWritesOrZeroReads : Obligations.FramesSentAreWritesOrZeroReads := by
  intro i s t h
  cases hc : isCommand i with
  | true => exact finish_sentFrames (body_sendsFrames i s) (exec_next_eq_body hc h)
  | false =>
    cases i with
    | frameWr a v => exact finishWire_sentFrames (wireExchange_sendsFrames (blockFrame_encWrite a v) s) h
    | frameRd a => exact finishWire_sentFrames (wireExchange_sendsFrames (blockFrame_encRead a) s) h
    | _ => cases hc

end Sys2Proof.Machine
end

section
/-! PROOFS. The register codec: `write` and `read` (spec/40_codec.md R130, R131), and what a command whose sequence completed
leaves to the host. -/

namespace Sys2Proof.Machine

/-! ### A command whose sequence completes -/

/-- A block that is ready accepts every legal command but those setCurrentLimits refuses (R224, R227). -/
theorem accepts_of_runs {i : Instr} {s : State} (h : s.Runs) (hc : isCommand i = true) (hw : i.wf = true)
    (hp : ∀ d hold run, i ≠ .setCurrentLimits d hold run) : s.Accepts i :=
  ⟨hc, hw, h.2, .inr h.1, fun d hold run e => absurd e (hp d hold run)⟩

/-- An accepted command whose sequence completes ends ok with its response (R13). -/
theorem exec_of_body_done {i : Instr} {s t : State} {r : Response} (h : s.Accepts i) (hb : body i s = .done r t) :
    exec i s = .next (respond r t) := by
  rw [exec_eq_body h, hb, finish_done]

theorem thenRespond_done {α : Type} {f : State → Attempt α} {s t : State} {a : α} (r : α → Response)
    (h : f s = .done a t) : thenRespond f r s = .done (r a) t := by
  rw [thenRespond, h, andThen_done]

/-! ### What the response leaves -/

theorem Ran.respond_trace {s t : State} {k : Nat} {evs : List Event} (h : Ran s t k evs) (r : Response) :
    (respond r t).trace = s.trace ++ (evs ++ [.resp (encodeResponse r)]) := by
  rw [Machine.respond_trace, h.trace, List.append_assoc]

theorem Ran.respond_sameBlock {s t : State} {k : Nat} {evs : List Event} (h : Ran s t k evs) (r : Response) :
    s.SameBlock (respond r t) :=
  ⟨h.cfg, h.x, h.cs, h.ready, h.fault, h.wire, h.inputs⟩

theorem Ran.respond_settled {s t : State} {k : Nat} {evs : List Event} (h : Ran s t k evs) (hscope : t.scope = false)
    (r : Response) : s.Settled (respond r t) k :=
  ⟨rfl, hscope, h.env, h.draws⟩

/-! ### write and read -/

theorem encodeResponse_ack : encodeResponse .ack = 0x000000000000 := by decide

/-- Settles O11: `write` is `memWrite` answered with ACK, and `memWrite_completes` is what it does. -/
theorem writeStoresItsWord : Obligations.WriteStoresItsWord := by
  intro a v s hruns hquiet
  obtain ⟨rx, t, hwrite, hran, hscope, hpend, hreg⟩ := memWrite_completes a v hquiet
  have haccepts : s.Accepts (.write a v) := accepts_of_runs hruns rfl rfl fun _ _ _ e => by cases e
  have hexec : exec (.write a v) s = .next (respond .ack t) := exec_of_body_done haccepts (thenRespond_done _ hwrite)
  refine ⟨_, rx, hexec, ?_, hpend, hreg, hran.respond_sameBlock .ack, hran.respond_settled hscope .ack⟩
  rw [hran.respond_trace, encodeResponse_ack]
  rfl

/-- Settles O12: `read` is `memRead` answered with the status byte and the data of its second exchange, and
`memRead_completes` is what it does. -/
theorem readAnswersFromTheSecondExchange : Obligations.ReadAnswersFromTheSecondExchange := by
  intro a s hruns hquiet
  obtain ⟨rx1, rx2, t, hread, hran, hscope, hpend, hreg, hdata, hdraws⟩ := memRead_completes a hquiet
  have haccepts : s.Accepts (.read a) := accepts_of_runs hruns rfl rfl fun _ _ _ e => by cases e
  have hexec : exec (.read a) s = .next (respond (.statusValue rx2.b0 rx2.data) t) :=
    exec_of_body_done haccepts (thenRespond_done (fun p : Byte × Word => .statusValue p.1 p.2) hread)
  exact ⟨_, rx1, rx2, hexec, hran.respond_trace _, hdata, hdraws, hpend, hreg, hran.respond_sameBlock _,
    hran.respond_settled hscope _⟩

end Sys2Proof.Machine
end

section
/-! PROOFS. The motion commands (spec/41_motion.md): the register commands (R150, R151, R157, R159), setVelocity (R155), the
value-returning commands (R156, R158, R160), and jog (R152 to R154). -/

namespace Sys2Proof.Machine

open Sys2Proof.Config

/-! ### The register commands -/

/-- Settles O15: each command is the raw write of its register (O17), which does what O11 says. -/
theorem registerCommandsWriteTheirRegister : Obligations.RegisterCommandsWriteTheirRegister := by
  intro s i a v hcommand hruns hquiet
  have hmode : ∀ m, exec (.setRampMode m) s = exec (.write s.cfg.map.rampmode (rampWord s.cfg m)) s := fun m =>
    writeRegister_eq_write .rampmode (rampWord s.cfg m) s
  have hraw : exec i s = exec (.write a v) s := by
    rcases hcommand with ⟨rfl, rfl, rfl⟩ | ⟨rfl, rfl, rfl⟩ | ⟨rfl, rfl, rfl⟩ | ⟨rfl, rfl, rfl⟩ | ⟨rfl, rfl⟩ | ⟨rfl, rfl⟩ |
      ⟨rfl, rfl⟩
    exacts [hmode _, hmode _, hmode _, hmode _, writeRegister_eq_write .xtarget v s, writeRegister_eq_write .xactual v s,
      writeRegister_eq_write .xenc v s]
  rw [hraw]
  exact writeStoresItsWord a v s hruns hquiet

/-! ### setVelocity -/

theorem setVelocity_accepts (v : Word) {s : State} (h : s.Runs) : s.Accepts (.setVelocity v) :=
  accepts_of_runs h rfl rfl fun _ _ _ e => by cases e

/-- Settles O18: the cache is written first, then `memWrite_completes` is what the write of VMAX does. -/
theorem setVelocityWritesCacheAndChip : Obligations.SetVelocityWritesCacheAndChip := by
  intro v s hruns hquiet
  obtain ⟨rx, t, hwrite, hran, hscope, hpend, hreg⟩ :=
    memWrite_completes s.cfg.map.vmax v (s := started (.setVelocity v) s) hquiet
  have hexec : exec (.setVelocity v) s = .next (respond .ack t) :=
    exec_of_body_done (setVelocity_accepts v hruns) (thenRespond_done _ hwrite)
  have hx : t.x = s.x.set 3 v := hran.x
  refine ⟨_, rx, hexec, ?_, ?_, fun k hk => ?_, hpend, hreg,
    ⟨hran.cfg, rfl, hran.cs, hran.ready, hran.fault, hran.wire, hran.inputs⟩, hran.respond_settled hscope .ack⟩
  · rw [hran.respond_trace, encodeResponse_ack]
    rfl
  · simp [hx]
  · have hne : 3 ≠ k.val := fun h => hk (Fin.ext h.symm)
    simp [hx, Vector.getElem_set_ne, hne]

/-- Settles O19: the error leaves the cache as the first primitive found it, with `v` already in it. -/
theorem setVelocityFailureKeepsTheNewCache : Obligations.SetVelocityFailureKeepsTheNewCache := by
  intro v s k ans e landed latch release hruns hk hquiet hans hfails
  obtain ⟨_, _, _, _, _, hexec, haborted, -⟩ := exec_fails (setVelocity_accepts v hruns) hk hquiet hans hfails
  exact ⟨_, hexec, haborted.fault, haborted.x⟩

/-! ### The value-returning commands -/

/-- The three registers the chip moves on its own (R72) are readable. -/
theorem readable_of_wf {s : State} (h : s.cfg.wf) :
    s.Readable s.cfg.map.xactual ∧ s.Readable s.cfg.map.vactual ∧ s.Readable s.cfg.map.xenc := by
  obtain ⟨-, -, -, -, -, -, hxactual, hvactual, hxenc⟩ := h
  exact ⟨.inl hxactual, .inl hvactual, .inl hxenc⟩

/-- A value-returning command is one `memRead`, answered from the data of its second exchange alone (R105, D17). -/
theorem readRegister_completes (r : RegName) (respOf : Word → Response) {s : State} (hruns : s.Runs)
    (hread : s.Readable (s.cfg.map.addr r)) (hquiet : s.Quiet 4) :
    ∃ t rx1 rx2, readRegister r respOf s = .next t ∧
      t.trace = s.trace ++ (readEvents (s.cfg.map.addr r) rx1 rx2 ++ [.resp (encodeResponse (respOf rx2.data))]) ∧
      (s.Still 3 (s.cfg.map.addr r) → rx2.data = s.chip.reg (s.cfg.map.addr r)) ∧
      t.chip.pend = some (s.cfg.map.addr r) ∧ (∀ b, s.Still 4 b → t.chip.reg b = s.chip.reg b) ∧
      s.SameBlock t ∧ s.Settled t 4 := by
  obtain ⟨rx1, rx2, t, hmem, hran, hscope, hpend, hreg, hdata, -⟩ := memRead_completes (s.cfg.map.addr r) hquiet
  refine ⟨respond (respOf rx2.data) t, rx1, rx2, ?_, hran.respond_trace _, hdata hread, hpend, hreg,
    hran.respond_sameBlock _, hran.respond_settled hscope _⟩
  rw [readRegister, whenReady_runs hruns, hmem, andThen_done, finish_done]

/-- Settles O20: both are `readRegister`, answered with the data as VALUE. -/
theorem positionReadsAnswerTheValue : Obligations.PositionReadsAnswerTheValue := by
  intro s i a hcommand hwf hruns hquiet
  obtain ⟨hxactual, -, hxenc⟩ := readable_of_wf hwf
  rcases hcommand with ⟨rfl, rfl⟩ | ⟨rfl, rfl⟩
  · exact readRegister_completes .xactual .value hruns hxactual hquiet
  · exact readRegister_completes .xenc .value hruns hxenc hquiet

theorem encodeResponse_isZero (w : Word) :
    encodeResponse (.bool (isZero w)) = if w = 0 then 0x030000000001 else 0x030000000000 := by
  obtain ⟨-, -, htrue, hfalse, -⟩ := responseWordsOfTheSixKinds
  by_cases h : w = 0
  · rw [isZero, decide_eq_true h, htrue, if_pos h]
  · rw [isZero, decide_eq_false h, hfalse, if_neg h]

/-- Settles O21: isStopped is `readRegister` of VACTUAL, answered with whether the data are zero. -/
theorem isStoppedIffVelocityReadsZero : Obligations.IsStoppedIffVelocityReadsZero := by
  intro s hwf hruns hquiet
  obtain ⟨-, hvactual, -⟩ := readable_of_wf hwf
  obtain ⟨t, rx1, rx2, hexec, htrace, hrest⟩ :=
    readRegister_completes .vactual (fun w => .bool (isZero w)) hruns hvactual hquiet
  rw [encodeResponse_isZero] at htrace
  exact ⟨t, rx1, rx2, hexec, htrace, hrest⟩

/-! ### jog -/

/-- Where the signed sum is in range, the sum modulo 2^32 is its pattern (R153). -/
theorem toInt_add_of_inRange (a d : Word) (hlow : -2 ^ 31 ≤ a.toInt + d.toInt) (hhigh : a.toInt + d.toInt < 2 ^ 31) :
    (a + d).toInt = a.toInt + d.toInt := by
  rw [BitVec.toInt_add]
  exact Int.bmod_eq_of_le (by simpa using hlow) (by simpa using hhigh)

/-- Settles O22: the read of XACTUAL, then the write of its data plus the delta, in a scope of its own. -/
theorem jogWritesPositionPlusDelta : Obligations.JogWritesPositionPlusDelta := by
  intro d s hwf hruns hquiet
  obtain ⟨hxactual, -, -⟩ := readable_of_wf hwf
  obtain ⟨rx1, rx2, t, hread, hran, -, -, hkept, hdata, -⟩ :=
    memRead_completes s.cfg.map.xactual (quiet_le hquiet (by omega) : s.Quiet 4)
  obtain ⟨rx3, u, hwrite, hran', hscope, hpend, hreg⟩ :=
    memWrite_completes s.cfg.map.xtarget (rx2.data + d) (hran.quiet (k := 3) hquiet)
  have hall : Ran s u 7 (readEvents s.cfg.map.xactual rx1 rx2 ++ writeEvents s.cfg.map.xtarget (rx2.data + d) rx3) :=
    hran.trans hran'
  have haccepts : s.Accepts (.jog d) := accepts_of_runs hruns rfl rfl fun _ _ _ e => by cases e
  have hbody : body (.jog d) s = .done .ack u := by rw [body, thenRespond, hread, andThen_done, hwrite, andThen_done]
  have hexec : exec (.jog d) s = .next (respond .ack u) := exec_of_body_done haccepts hbody
  refine ⟨_, rx1, rx2, rx3, hexec, ?_, BitVec.toNat_add .., toInt_add_of_inRange _ _, hdata hxactual, fun b hb => ?_, hpend,
    hall.respond_sameBlock .ack, hall.respond_settled hscope .ack⟩
  · rw [hall.respond_trace, encodeResponse_ack]
    rfl
  · rw [respond_chip, hreg b (hran.still hb), hkept b (still_le hb (by omega))]

end Sys2Proof.Machine
end

section
/-! PROOFS. The two GCONF commands (spec/42_config.md R180 to R183): the read-modify-write of one bit, and two of them one after
the other; and setCurrentLimits (R187, R189). -/

namespace Sys2Proof.Machine

open Sys2Proof.Config

/-! ### The registers that are read back -/

/-- A read of GCONF or CHOPCONF returns its content, and the chip leaves both alone (R72, R73, R77). -/
theorem configRegisters_of_wf {s : State} (h : s.cfg.wf) :
    (s.Readable s.cfg.map.gconf ∧ ∀ k, s.Still k s.cfg.map.gconf) ∧
    (s.Readable s.cfg.map.chopconf ∧ ∀ k, s.Still k s.cfg.map.chopconf) := by
  obtain ⟨-, -, hgread, hcread, hgstill, hcstill, -⟩ := h
  exact ⟨⟨.inr hgread, fun _ => .inl hgstill⟩, .inr hcread, fun _ => .inl hcstill⟩

/-! ### One bit of GCONF -/

/-- The command `i` sets bit `bit` of GCONF to `en` (R180, R182). -/
def EditsGconf (i : Instr) (bit : Nat) (en : Bool) : Prop :=
  (i = .enableStealthChop en ∧ bit = 2) ∨ (i = .reverseDirection en ∧ bit = 4)

/-- Both commands are the read-modify-write of GCONF, answered with ACK. -/
theorem EditsGconf.exec_eq {i : Instr} {bit : Nat} {en : Bool} (h : EditsGconf i bit en) {s : State} (hruns : s.Runs) :
    exec i s = finishAck (editRegister s.cfg.map.gconf bit en s) := by
  rcases h with ⟨rfl, rfl⟩ | ⟨rfl, rfl⟩ <;> exact whenReady_runs hruns _

/-- Settles O23: the word read is GCONF's content, and the word written is it with the one bit edited. -/
theorem gconfCommandsEditOneBit : Obligations.GconfCommandsEditOneBit := by
  intro s i k en hcommand hwf hruns hquiet
  obtain ⟨⟨hread, hstill⟩, -⟩ := configRegisters_of_wf hwf
  obtain ⟨rx1, rx2, rx3, t, hedit, hran, hscope, hpend, hreg, hdata⟩ := editRegister_completes s.cfg.map.gconf k en hquiet
  refine ⟨respond .ack t, rx1, rx2, rx3, editBit rx2.data k en, ?_, hdata hread (hstill 3),
    fun j hj => getLsbD_editBit _ hj en, ?_, hreg, hpend, hran.respond_sameBlock .ack, hran.respond_settled hscope .ack⟩
  · rw [EditsGconf.exec_eq hcommand hruns, hedit, finishAck_done]
  · rw [hran.respond_trace, encodeResponse_ack]
    rfl

/-! ### Two commands, one after the other -/

/-- What a GCONF command leaves for the next one: the bit edited, and a block that runs on as before. -/
theorem EditsGconf.completes {i : Instr} {bit : Nat} {en : Bool} (h : EditsGconf i bit en) {s : State} (hwf : s.cfg.wf)
    (hruns : s.Runs) {n : Nat} (hquiet : s.Quiet (7 + n)) :
    ∃ t, exec i s = .next t ∧ t.chip.reg s.cfg.map.gconf = editBit (s.chip.reg s.cfg.map.gconf) bit en ∧ t.cfg = s.cfg ∧
      t.Runs ∧ t.Quiet n := by
  obtain ⟨⟨hread, hstill⟩, -⟩ := configRegisters_of_wf hwf
  obtain ⟨_, rx, _, t, hedit, hran, -, -, hreg, hdata⟩ :=
    editRegister_completes s.cfg.map.gconf bit en (quiet_le hquiet (by omega) : s.Quiet 7)
  refine ⟨respond .ack t, ?_, ?_, hran.cfg, hran.runs hruns, hran.quiet hquiet⟩
  · rw [h.exec_eq hruns, hedit, finishAck_done]
  · rw [respond_chip, hreg _ (hstill 7), if_pos rfl, hdata hread (hstill 3)]

/-- A GCONF command edits what the one before it wrote (R183). -/
theorem EditsGconf.compose {i j : Instr} {bit bit' : Nat} {en en' : Bool} (hi : EditsGconf i bit en)
    (hj : EditsGconf j bit' en') {s : State} (hwf : s.cfg.wf) (hruns : s.Runs) (hquiet : s.Quiet 14) :
    ∃ t u, exec i s = .next t ∧ exec j t = .next u ∧
      t.chip.reg s.cfg.map.gconf = editBit (s.chip.reg s.cfg.map.gconf) bit en ∧
      u.chip.reg s.cfg.map.gconf = editBit (editBit (s.chip.reg s.cfg.map.gconf) bit en) bit' en' := by
  obtain ⟨t, ht, htreg, htcfg, htruns, htquiet⟩ := hi.completes hwf hruns (n := 7) hquiet
  obtain ⟨u, hu, hureg, -⟩ := hj.completes (htcfg ▸ hwf) htruns (n := 0) htquiet
  rw [htcfg, htreg] at hureg
  exact ⟨t, u, ht, hu, htreg, hureg⟩

/-- Edits of different bits commute. -/
theorem editBit_comm (g : Word) {k j : Nat} (h : k ≠ j) (a b : Bool) :
    editBit (editBit g k a) j b = editBit (editBit g j b) k a := by
  refine BitVec.eq_of_getLsbD_eq fun n hn => ?_
  simp only [getLsbD_editBit _ hn]
  split
  · next hj => rw [if_neg (by omega)]
  · rfl

/-- Settles O24: two edits of bit 2, seen bit by bit. -/
theorem stealthOnThenOffKeepsTheOtherBits : Obligations.StealthOnThenOffKeepsTheOtherBits := by
  intro s hwf hruns hquiet
  obtain ⟨t, u, ht, hu, htreg, hureg⟩ :=
    EditsGconf.compose (en := true) (en' := false) (.inl ⟨rfl, rfl⟩) (.inl ⟨rfl, rfl⟩) hwf hruns hquiet
  refine ⟨t, u, ht, hu, ?_, ?_, fun j hj hne => ⟨?_, ?_⟩⟩
  · rw [htreg, getLsbD_editBit _ (by decide), if_pos rfl]
  · rw [hureg, getLsbD_editBit _ (by decide), if_pos rfl]
  · rw [htreg, getLsbD_editBit _ hj, if_neg hne]
  · rw [hureg, getLsbD_editBit _ hj, if_neg hne, getLsbD_editBit _ hj, if_neg hne]

/-- Settles O25: each order is two edits, of different bits. -/
theorem stealthAndReverseCompose : Obligations.StealthAndReverseCompose := by
  intro s en rev hwf hruns hquiet
  have hstealth : EditsGconf (.enableStealthChop en) 2 en := .inl ⟨rfl, rfl⟩
  have hreverse : EditsGconf (.reverseDirection rev) 4 rev := .inr ⟨rfl, rfl⟩
  obtain ⟨t, u, ht, hu, -, hureg⟩ := hstealth.compose hreverse hwf hruns hquiet
  obtain ⟨t', u', ht', hu', -, hureg'⟩ := hreverse.compose hstealth hwf hruns hquiet
  refine ⟨t, u, t', u', ht, hu, ht', hu', hureg, ?_⟩
  rw [hureg', hureg, editBit_comm _ (by decide)]

/-! ### setCurrentLimits -/

/-- Settles O30: the write of IHOLD_IRUN, then the edit of CHOPCONF, which is another register. -/
theorem setCurrentLimitsWritesScalesThenSelector : Obligations.SetCurrentLimitsWritesScalesThenSelector := by
  intro d hold run s hwf hruns hquiet haccepted
  obtain ⟨-, hread, hstill⟩ := configRegisters_of_wf hwf
  have hother : s.cfg.map.chopconf ≠ s.cfg.map.iholdIrun :=
    (addr_injective hwf).ne (a₁ := .chopconf) (a₂ := .iholdIrun) (by decide)
  obtain ⟨rx1, t, hwrite, hran, -, -, hwritten⟩ :=
    memWrite_completes s.cfg.map.iholdIrun (currentWord d hold run) (quiet_le hquiet (by omega) : s.Quiet 3)
  obtain ⟨rx2, rx3, rx4, u, hedit, hran', hscope, hpend, hedited, hdata⟩ :=
    editRegister_completes s.cfg.map.chopconf vsenseBit (vsense hold run) (hran.quiet (k := 7) hquiet)
  have hall := hran.trans hran'
  refine ⟨respond .ack u, rx1, rx2, rx3, rx4, editBit rx3.data vsenseBit (vsense hold run), ?_, ?_,
    fun j hj => getLsbD_editBit _ hj _, ?_, fun b hb => ?_, hpend, hall.respond_sameBlock .ack,
    hall.respond_settled hscope .ack⟩
  · rw [exec, execSetCurrentLimits, whenReady_runs hruns, if_pos haccepted, hwrite, andThen_done, hedit, finishAck_done]
  · rw [hdata ?_ (hran.still (hstill 6)), hwritten _ (hstill 3), if_neg hother]
    show t.Readable _
    rwa [State.Readable, hran.cfg]
  · rw [hall.respond_trace, encodeResponse_ack]
    rfl
  · rw [respond_chip, hedited b (hran.still hb), hwritten b (still_le hb (by omega))]

/-- A sequence of primitives answers no refusal: refusals come before any primitive (R224). -/
theorem finishAck_ne_refused (t : Attempt Unit) (r : Refusal) : finishAck t ≠ .refused r := by
  cases t <;> exact nofun

theorem scaleInRange_eq_false_iff (raw : Int) : scaleInRange raw = false ↔ raw < 0 ∨ 31 < raw := by
  simp only [scaleInRange, Bool.and_eq_false_iff, decide_eq_false_iff_not]
  omega

/-- Settles O31: under refuse the check on the two raw scales is what tells a refusal from a run. -/
theorem currentPolicyRefusesOutOfRange : Obligations.CurrentPolicyRefusesOutOfRange := by
  refine fun d hold run s hruns => ⟨fun hp => hp ▸ currentsAccepted_clamp hold run, fun hp => ?_⟩
  have hrefused : exec (.setCurrentLimits d hold run) s = .refused .currentOutOfRange ↔
      currentsAccepted .refuse hold run = false := by
    rw [exec, execSetCurrentLimits, whenReady_runs hruns, hp]
    split
    · next haccepted => simp [finishAck_ne_refused, haccepted]
    · next hrejected => simpa using hrejected
  rw [hrefused, currentsAccepted, Bool.and_eq_false_iff, scaleInRange_eq_false_iff, scaleInRange_eq_false_iff]
  simp

end Sys2Proof.Machine
end

section
/-! PROOFS. The current scales (spec/42_config.md R184 to R188): the full-scale selector, the raw scale as the rounded real
formula and its thresholds, the clamp, and the current word. -/

namespace Sys2Proof.Machine

/-! ### The full-scale selector -/

theorem highRange_iff (hold run : BitVec 16) : highRange hold run = true ↔ 750 < hold.toNat ∨ 750 < run.toNat := by
  simp [highRange]

/-- Settles O26: the selector is the range's complement. -/
theorem fullScaleSelection : Obligations.FullScaleSelection := by
  refine fun hold run => ⟨highRange_iff hold run, ?_⟩
  rw [vsense, Bool.not_eq_true', Bool.eq_false_iff, Ne, highRange_iff]
  omega

/-! ### The rounded square root -/

/-- In its range the model's square root is the library's. -/
theorem isqrt_eq_sqrt {n : Nat} (h : n < 2 ^ 48) : isqrt n = n.sqrt := Nat.eq_sqrt.2 (isqrt_spec h)

/-- Twice a square is no square but 0: the square root of 2 is irrational. -/
theorem sq_ne_two_mul_sq {a : Nat} (ha : a ≠ 0) (b : Nat) : a ^ 2 ≠ 2 * b ^ 2 := by
  intro h
  have hb : (b : ℝ) ≠ 0 := by
    intro hb
    obtain rfl : b = 0 := by exact_mod_cast hb
    exact ha (by simpa using h)
  refine irrational_sqrt_two ⟨(a : ℚ) / b, ?_⟩
  rw [Rat.cast_div, Rat.cast_natCast, Rat.cast_natCast, eq_comm,
    Real.sqrt_eq_iff_mul_self_eq (by norm_num) (by positivity)]
  have hr : (a : ℝ) ^ 2 = 2 * (b : ℝ) ^ 2 := by exact_mod_cast h
  field_simp
  linarith

/-- The numerators of all milliamp operands stay in the square root's range. -/
theorem scaleNum_range (high : Bool) {m : Nat} (h : m ≤ 65535) : 8 * scaleNum high m * scaleNum high m < 2 ^ 48 := by
  have hnum : scaleNum high m ≤ 34 * 65535 := by
    cases high <;> simp only [scaleNum, if_true, Bool.false_eq_true, if_false] <;> omega
  calc 8 * scaleNum high m * scaleNum high m ≤ 8 * (34 * 65535) * (34 * 65535) := by gcongr
    _ < 2 ^ 48 := by norm_num

theorem scaleDen_pos (high : Bool) : 0 < scaleDen high := by cases high <;> decide

/-- Where the rounded value reaches `n` (R186): at `2 * n - 1` halves of the denominator. -/
theorem le_roundSqrt2_iff {num den n : Nat} (hrange : 8 * num * num < 2 ^ 48) (hden : 0 < den) (hn : 1 ≤ n) :
    n ≤ roundSqrt2 num den ↔ (2 * n - 1) ^ 2 * den ^ 2 ≤ 8 * num ^ 2 := by
  obtain ⟨k, rfl⟩ : ∃ k, n = k + 1 := ⟨n - 1, by omega⟩
  have hodd : (k + 1) * (2 * den) = (2 * k + 1) * den + den := by ring
  calc k + 1 ≤ roundSqrt2 num den ↔ (2 * k + 1) * den + den ≤ (8 * num * num).sqrt + den := by
        rw [roundSqrt2, isqrt_eq_sqrt hrange, Nat.le_div_iff_mul_le (by omega), hodd]
    _ ↔ (2 * k + 1) * den ≤ (8 * num * num).sqrt := Nat.add_le_add_iff_right
    _ ↔ ((2 * k + 1) * den) ^ 2 ≤ 8 * num * num := Nat.le_sqrt'
    _ ↔ (2 * (k + 1) - 1) ^ 2 * den ^ 2 ≤ 8 * num ^ 2 := by
        rw [mul_pow, mul_assoc, ← pow_two, show 2 * (k + 1) - 1 = 2 * k + 1 by omega]

/-- No rounding tie: an odd multiple of the denominator is no root of `8 * num ^ 2` (R186). -/
theorem odd_sq_ne {n den : Nat} (hden : 0 < den) (num : Nat) : (2 * n + 1) ^ 2 * den ^ 2 ≠ 8 * num ^ 2 := by
  have hne : (2 * n + 1) * den ≠ 0 := by positivity
  have h := sq_ne_two_mul_sq hne (2 * num)
  rwa [mul_pow, mul_pow 2 num, ← mul_assoc] at h

/-- The rounded value is the one natural number of R186's integer form. -/
theorem roundSqrt2_eq_iff {num den : Nat} (hrange : 8 * num * num < 2 ^ 48) (hden : 0 < den) (n : Nat) :
    roundSqrt2 num den = n ↔ (n = 0 ∧ 8 * num ^ 2 < den ^ 2) ∨
      (1 ≤ n ∧ (2 * n - 1) ^ 2 * den ^ 2 < 8 * num ^ 2 ∧ 8 * num ^ 2 < (2 * n + 1) ^ 2 * den ^ 2) := by
  have hsplit : roundSqrt2 num den = n ↔ n ≤ roundSqrt2 num den ∧ ¬ n + 1 ≤ roundSqrt2 num den := by omega
  rw [hsplit, le_roundSqrt2_iff hrange hden (Nat.le_add_left 1 n), not_le, show 2 * (n + 1) - 1 = 2 * n + 1 by omega]
  cases n with
  | zero => simp
  | succ k =>
    rw [le_roundSqrt2_iff hrange hden (Nat.le_add_left 1 k), show 2 * (k + 1) - 1 = 2 * k + 1 by omega]
    have htie := (odd_sq_ne (n := k) hden num).le_iff_lt
    simp [htie]

/-- It is the real number `sqrt 2 * num / den`, rounded (R186). -/
theorem roundSqrt2_eq_round {num den : Nat} (hrange : 8 * num * num < 2 ^ 48) (hden : 0 < den) :
    (roundSqrt2 num den : Int) = round (Real.sqrt 2 * num / den) := by
  have hroot : Real.sqrt ((8 * num * num : Nat) : ℝ) = 2 * (Real.sqrt 2 * num) := by
    rw [Real.sqrt_eq_iff_mul_self_eq (by positivity) (by positivity)]
    push_cast
    nlinarith [Real.mul_self_sqrt (show (0 : ℝ) ≤ 2 by norm_num)]
  have hden' : (den : ℝ) ≠ 0 := by positivity
  symm
  calc round (Real.sqrt 2 * num / den) = ⌊Real.sqrt 2 * num / den + 1 / 2⌋ := round_eq _
    _ = ⌊(Real.sqrt ((8 * num * num : Nat) : ℝ) + den) / ((2 * den : Nat) : ℝ)⌋ := by
        rw [hroot]
        congr 1
        push_cast
        field_simp
    _ = ((⌊(Real.sqrt ((8 * num * num : Nat) : ℝ) + den) / ((2 * den : Nat) : ℝ)⌋₊ : Nat) : Int) :=
        (Int.natCast_floor_eq_floor (by positivity)).symm
    _ = (((8 * num * num).sqrt + den) / (2 * den) : Nat) := by
        rw [Nat.floor_div_natCast, Nat.floor_add_natCast (by positivity), Real.nat_floor_real_sqrt_eq_nat_sqrt]
    _ = roundSqrt2 num den := by rw [roundSqrt2, isqrt_eq_sqrt hrange]

/-- r of R186, from the milliamp operand: `32 * I * (Rsense + 0.02) / Vfs`. -/
theorem scale_ratio (high : Bool) (m : Nat) :
    Real.sqrt 2 * scaleNum high m / scaleDen high =
      32 * Real.sqrt 2 * ((m : ℝ) / 1000) * (0.15 + 0.02) / (if high then 0.32 else 0.18) := by
  cases high <;> simp [scaleNum, scaleDen] <;> ring

/-- Settles O27: the rounded square root, at the numerator and the denominator of R186. -/
theorem rawScaleIsTheRoundedFormula : Obligations.RawScaleIsTheRoundedFormula := by
  intro high m hm
  have hrange := scaleNum_range high hm
  have hden := scaleDen_pos high
  refine ⟨?_, ?_, fun n => ?_⟩
  · rw [rawScale, roundSqrt2_eq_round hrange hden, scale_ratio]
  · rw [rawScale]
    omega
  · have hraw : rawScale high m = (n : Int) - 1 ↔ roundSqrt2 (scaleNum high m) (scaleDen high) = n := by
      rw [rawScale]
      omega
    exact hraw.trans (roundSqrt2_eq_iff hrange hden n)

/-! ### Where the raw scale leaves the range -/

theorem rawScale_mono (high : Bool) {m m' : Nat} (h : m ≤ m') (hm : m' ≤ 65535) : rawScale high m ≤ rawScale high m' := by
  have hnum : scaleNum high m ≤ scaleNum high m' := by
    cases high
    · exact Nat.mul_le_mul_left 34 h
    · exact Nat.mul_le_mul_left 17 h
  have hsqrt : (8 * scaleNum high m * scaleNum high m).sqrt ≤ (8 * scaleNum high m' * scaleNum high m').sqrt :=
    Nat.sqrt_le_sqrt (by gcongr)
  simp only [rawScale, roundSqrt2, isqrt_eq_sqrt (scaleNum_range high (h.trans hm)), isqrt_eq_sqrt (scaleNum_range high hm)]
  gcongr

/-- The raw scale reaches `z` after `m₀` mA, if it does so between `m₀` and `m₀ + 1`. -/
theorem le_rawScale_iff {high : Bool} {m₀ : Nat} {z : Int} (below : rawScale high m₀ < z)
    (reached : z ≤ rawScale high (m₀ + 1)) (hm₀ : m₀ ≤ 65535) {m : Nat} (hm : m ≤ 65535) : z ≤ rawScale high m ↔ m₀ < m := by
  constructor
  · intro hz
    by_contra hle
    have := rawScale_mono high (not_lt.1 hle) hm₀
    omega
  · exact fun hlt => reached.trans (rawScale_mono high hlt hm)

theorem toNat_clampScale (raw : Int) : ((clampScale raw).toNat : Int) = min 31 (max 0 raw) := by
  rw [clampScale, BitVec.toNat_ofInt]
  omega

/-- Settles O28: the raw scale rises with the current, so one pair of neighbours fixes each bound. -/
theorem scaleRangeOfTheTwoReferences : Obligations.ScaleRangeOfTheTwoReferences := by
  refine ⟨toNat_clampScale, fun m hm => ?_, fun m hm => ?_⟩
  · have hm' : m ≤ 65535 := by omega
    obtain ⟨-, hlow, -⟩ := rawScaleIsTheRoundedFormula false m hm'
    have h0 : 0 ≤ rawScale false m ↔ 11 < m := le_rawScale_iff (by decide) (by decide) (by decide) hm'
    have h31 : 31 ≤ rawScale false m ↔ 737 < m := le_rawScale_iff (by decide) (by decide) (by decide) hm'
    have h750 : rawScale false m ≤ 31 := (rawScale_mono false hm (by decide)).trans (by decide)
    omega
  · obtain ⟨-, hlow, -⟩ := rawScaleIsTheRoundedFormula true m hm
    have h0 : 0 ≤ rawScale true m ↔ 20 < m := le_rawScale_iff (by decide) (by decide) (by decide) hm
    have h31 : 31 ≤ rawScale true m ↔ 1310 < m := le_rawScale_iff (by decide) (by decide) (by decide) hm
    have h32 : 32 ≤ rawScale true m ↔ 1351 < m := le_rawScale_iff (by decide) (by decide) (by decide) hm
    omega

/-! ### The current word -/

/-- PackCurrent (R102) puts the three fields and zeros side by side. -/
theorem packCurrent_eq_append (d : BitVec 4) (run hold : BitVec 5) :
    packCurrent d run hold = (0#12 ++ d ++ 0#3 ++ run ++ 0#3 ++ hold : BitVec (12 + 4 + 3 + 5 + 3 + 5)) := by
  refine BitVec.eq_of_getLsbD_eq fun i hi => ?_
  simp only [packCurrent, BitVec.getLsbD_or, BitVec.getLsbD_shiftLeft, BitVec.getLsbD_setWidth, BitVec.getLsbD_append]
  grind

/-- Settles O29: the current word is the run and the hold scale, packed. -/
theorem currentWordFields : Obligations.CurrentWordFields := by
  intro d hold run
  rw [currentWord, packCurrent_eq_append]
  generalize clampScale (rawScale (highRange hold run) run.toNat) = r
  generalize clampScale (rawScale (highRange hold run) hold.toNat) = h
  refine ⟨?_, ?_, ?_, ?_, ?_, ?_⟩
  all_goals
    refine BitVec.eq_of_getLsbD_eq fun i hi => ?_
    simp only [BitVec.getLsbD_extractLsb', BitVec.getLsbD_append]
    grind

end Sys2Proof.Machine
end

section
/-! PROOFS. The commit and begin (spec/42_config.md R191 to R196): the writes that a sequence which fails at primitive `n` has
delivered before it (R222), and the direct access to the cache. -/

namespace Sys2Proof.Machine

open Sys2Proof.Config

/-! ### The first writes of a list -/

theorem length_writesEvents {ws : List (Addr × Word)} {rxs : List Frame} (h : rxs.length = ws.length) :
    (writesEvents ws rxs).length = 3 * ws.length := by
  induction ws generalizing rxs with
  | nil => cases rxs <;> rfl
  | cons w ws ih =>
    cases rxs with
    | nil => cases h
    | cons rx rxs =>
      rw [writesEvents, List.length_append, ih (by simpa using h), List.length_cons, Nat.mul_succ, Nat.add_comm]
      rfl

/-- Of the events of a list of writes the first `n` hold the exchanges of the first `(n + 1) / 3` writes: that of write `j` is
event `3j + 1`. -/
theorem contentAfter_take_writesEvents {ws : List (Addr × Word)} {rxs : List Frame} (h : rxs.length = ws.length) (n : Nat)
    (b : Addr) (w : Word) :
    contentAfter ((writesEvents ws rxs).take n) b w = afterWrites (ws.take ((n + 1) / 3)) b w := by
  induction ws generalizing rxs n w with
  | nil => cases rxs <;> simp [writesEvents, contentAfter, afterWrites]
  | cons p ws ih =>
    obtain ⟨a, v⟩ := p
    cases rxs with
    | nil => cases h
    | cons rx rxs =>
      match n with
      | 0 | 1 => rfl
      | 2 => simp [writesEvents, writeEvents, contentAfter, afterWrites, isWrite_encWrite, addr_encWrite, data_encWrite]
      | n + 3 =>
        have hcount : (n + 3 + 1) / 3 = (n + 1) / 3 + 1 := by omega
        rw [hcount, List.take_succ_cons, afterWrites, ← ih (by simpa using h) n]
        simp [writesEvents, writeEvents, contentAfter, isWrite_encWrite, addr_encWrite, data_encWrite]

/-- The same behind the event of begin's setup, where the exchange of write `j` is event `3j + 2`. -/
theorem contentAfter_take_setup_writesEvents (cs : Byte) {ws : List (Addr × Word)} {rxs : List Frame}
    (h : rxs.length = ws.length) (n : Nat) (b : Addr) (w : Word) :
    contentAfter ((.setup cs :: writesEvents ws rxs).take n) b w = afterWrites (ws.take (n / 3)) b w := by
  cases n with
  | zero => rfl
  | succ n => exact contentAfter_take_writesEvents h n b w

/-- Where the addresses are distinct, the first `m` writes leave register `j` new if `j < m` and old otherwise. -/
theorem afterWrites_take {ws : List (Addr × Word)} (hd : (ws.map Prod.fst).Nodup) {j : Nat} {a : Addr} {v : Word}
    (hj : ws[j]? = some (a, v)) (m : Nat) (w : Word) : afterWrites (ws.take m) a w = if j < m then v else w := by
  split
  · next hlt =>
    refine afterWrites_of_mem w (hd.sublist ((List.take_sublist m ws).map _)) (List.mem_of_getElem? (i := j) ?_)
    rw [List.getElem?_take, if_pos hlt, hj]
  · next hge =>
    refine afterWrites_of_not_mem w fun hmem => hge ?_
    obtain ⟨i, hi⟩ := List.mem_iff_getElem?.1 hmem
    rw [List.map_take, List.getElem?_take] at hi
    split at hi
    · next him =>
      have hja : (ws.map Prod.fst)[j]? = some a := by rw [List.getElem?_map, hj]; rfl
      obtain rfl : i = j := (List.getElem?_inj (List.getElem?_eq_some_iff.1 hi).1 hd).1 (hi.trans hja.symm)
      exact him
    · cases hi

theorem afterWrites_take_of_not_mem {ws : List (Addr × Word)} {b : Addr} (h : b ∉ ws.map Prod.fst) (m : Nat) (w : Word) :
    afterWrites (ws.take m) b w = w :=
  afterWrites_of_not_mem w fun hmem => h (((List.take_sublist m ws).map _).subset hmem)

/-! ### A command that fails at primitive `k` -/

/-- An accepted command whose primitive `k` reports `e` leaves on the chip what the first events of the run in which that
primitive completes leave: the `k` before it, and its own if the failed frame landed (R222). -/
theorem exec_fails_reg {i : Instr} {s : State} {k : Nat} {ans : Answer} {e : TErr} {landed : Bool} {latch : Option Addr}
    {release : Bool} (h : s.Accepts i) (hk : k < primitiveCount i) (hquiet : s.Quiet k) (hans : s.env[k]? = some ans)
    (hfails : ans.verdict = .fails e landed latch release) {c : State} {evs : List Event}
    {r : Event} (hc : exec i (s.completing k ans) = .next c) (htrace : c.trace = s.trace ++ (evs ++ [r]))
    (hlen : k < evs.length) :
    ∃ t, exec i s = .next t ∧ t.fault = some e ∧ t.seq = 0 ∧ t.x = cacheAfter i s ∧ t.cs = handleAfter i s ∧
      t.ready = s.ready ∧ ∀ b, s.Still (k + 1) b →
        t.chip.reg b = contentAfter (evs.take (if landed = true then k + 1 else k)) b (s.chip.reg b) := by
  obtain ⟨t, u, pre, ev, post, hexec, hab, hu, hpost⟩ := exec_fails h hk hquiet hans hfails
  obtain rfl : c = u := by rw [hc] at hu; cases hu; rfl
  obtain rfl : pre.length = k := hab.count
  have hevents : evs ++ [r] = pre ++ [ev] ++ post := by
    rw [htrace, List.append_assoc, List.append_cancel_left_eq] at hpost
    simpa using hpost
  have hbefore : evs.take pre.length = pre := by
    rw [← List.take_append_of_le_length (l₂ := [r]) hlen.le, hevents, List.append_assoc, List.take_left]
  have hthrough : evs.take (pre.length + 1) = pre ++ [ev] := by
    rw [← List.take_append_of_le_length (l₂ := [r]) hlen, hevents, List.take_left' (by simp)]
  refine ⟨_, hexec, hab.fault, rfl, hab.x, hab.cs, hab.ready, fun b hb => ?_⟩
  rw [respond_chip, hab.reg b hb]
  cases landed
  · rw [if_neg Bool.false_ne_true, if_neg Bool.false_ne_true, hbefore]
    rfl
  · rw [if_pos rfl, if_pos rfl, hthrough]
    rfl

/-! ### The commit -/

theorem commit_accepts {s : State} (h : s.Runs) : s.Accepts .updateMotionProfile :=
  accepts_of_runs h rfl rfl fun _ _ _ e => by cases e

/-- A commit whose 21 primitives complete: the seven writes (R191). -/
theorem commit_completes {s : State} (hruns : s.Runs) (hquiet : s.Quiet 21) :
    ∃ rxs t, rxs.length = 7 ∧ exec .updateMotionProfile s = .next (respond .ack t) ∧
      Ran s t 21 (writesEvents (commitWrites s.cfg s.x) rxs) ∧ t.scope = false ∧ t.chip.pend = none ∧
      ∀ b, s.Still 21 b → t.chip.reg b = afterWrites (commitWrites s.cfg s.x) b (s.chip.reg b) := by
  obtain ⟨rxs, t, hlen, hwrites, hran, hclosed, hreg⟩ := memWrites_completes (commitWrites s.cfg s.x) hquiet
  obtain ⟨hscope, hpend⟩ := hclosed (by simp [commitWrites])
  exact ⟨rxs, t, hlen, exec_of_body_done (commit_accepts hruns) (thenRespond_done _ hwrites), hran, hscope, hpend, hreg⟩

/-- The seven registers of the commit are distinct (R29). -/
theorem commitWrites_nodup {p : Params} (h : p.wf) (x : Vector Word 7) : ((commitWrites p x).map Prod.fst).Nodup := by
  rw [commitWrites_addrs]
  exact List.Nodup.map (addr_injective h) (by decide)

theorem commitWrites_getElem? (p : Params) (x : Vector Word 7) (j : Fin 7) :
    (commitWrites p x)[j.val]? = some (p.map.addr profileRegs[j], x[j]) := by
  fin_cases j <;> rfl

/-- A register that no name of the list stands for is none of their addresses. -/
theorem not_mem_addrs {m : RegMap} {rs : List RegName} {b : Addr} (h : ∀ r ∈ rs, b ≠ m.addr r) : b ∉ rs.map m.addr :=
  fun hmem => by
    obtain ⟨r, hr, hrb⟩ := List.mem_map.1 hmem
    exact h r hr hrb.symm

/-- Settles O32: the commit completes, and its seven writes go to distinct registers. -/
theorem commitWritesTheSevenInOrder : Obligations.CommitWritesTheSevenInOrder := by
  intro s hwf hruns hquiet
  obtain ⟨rxs, t, hlen, hexec, hran, hscope, hpend, hreg⟩ := commit_completes hruns hquiet
  refine ⟨_, rxs, hlen, hexec, ?_, fun k hk => ?_, fun b hb hk => ?_, hpend, hran.respond_sameBlock .ack,
    hran.respond_settled hscope .ack⟩
  · rw [hran.respond_trace, encodeResponse_ack, ← List.append_assoc]
    rfl
  · exact (hreg _ hk).trans
      (afterWrites_of_mem _ (commitWrites_nodup hwf s.x) (List.mem_of_getElem? (commitWrites_getElem? s.cfg s.x k)))
  · exact (hreg b hk).trans (afterWrites_of_not_mem _ (not_mem_addrs hb))

/-- Settles O33: the registers are as the first `n` events of the seven writes leave them, or the first `n + 1` if the failed
frame landed. -/
theorem commitErrorLeavesAPrefix : Obligations.CommitErrorLeavesAPrefix := by
  intro s n ans e landed latch release hwf hruns hn hquiet hans hfails
  obtain ⟨rxs, c, hlen, hexec, hran, -⟩ := commit_completes (s := s.completing n ans) hruns (quiet_completing ans hquiet 21)
  have hevents : (writesEvents (commitWrites s.cfg s.x) rxs).length = 21 := length_writesEvents hlen
  obtain ⟨t, ht, hfault, -, hx, -, -, hreg⟩ := exec_fails_reg (commit_accepts hruns) hn hquiet hans hfails hexec
    (hran.respond_trace .ack) (hevents ▸ hn)
  have hfirst : ∀ b, s.Still (n + 1) b → t.chip.reg b =
      afterWrites ((commitWrites s.cfg s.x).take (((if landed = true then n + 1 else n) + 1) / 3)) b (s.chip.reg b) :=
    fun b hb => (hreg b hb).trans (contentAfter_take_writesEvents hlen ..)
  refine ⟨t, ht, hfault, hx, fun j hj => ?_, fun b hb hstill => ?_⟩
  · rw [hfirst _ hj, afterWrites_take (commitWrites_nodup hwf s.x) (commitWrites_getElem? s.cfg s.x j)]
    refine if_congr ?_ rfl rfl
    cases landed <;> simp <;> omega
  · rw [hfirst b hstill, afterWrites_take_of_not_mem (not_mem_addrs hb)]

/-! ### begin -/

theorem begin_accepts (cs : Byte) {s : State} (h : s.fault = none) : s.Accepts (.beginBlock cs) :=
  ⟨rfl, rfl, h, .inl rfl, fun _ _ _ e => by cases e⟩

/-- Settles O56: behind the event of the setup, the registers are as the first `k - 1` events of the nine writes leave them, or
the first `k` if the failed frame landed. -/
theorem beginErrorLeavesAPrefix : Obligations.BeginErrorLeavesAPrefix := by
  intro cs s k ans e landed latch release hwf hfault hk hquiet hans hfails
  let ws := beginWrites s.cfg s.cfg.profileDefault
  obtain ⟨rxs, c, hlen, hexec, hran, -⟩ :=
    begin_completes cs (s := s.completing k ans) hfault (quiet_completing ans hquiet 28)
  have hevents : (writesEvents ws rxs).length = 27 := length_writesEvents hlen
  have htrace : c.trace = s.trace ++ (.setup cs :: writesEvents ws rxs) := hran.trace
  obtain ⟨t, ht, hlatched, hseq, hx, hcs, hready, hreg⟩ := exec_fails_reg (begin_accepts cs hfault) hk hquiet hans hfails
    hexec (by rw [respond_trace, ← List.append_assoc, ← htrace]) (by rw [List.length_cons, hevents]; exact hk)
  have hfirst : ∀ b, s.Still (k + 1) b → t.chip.reg b =
      afterWrites (ws.take ((if landed = true then k + 1 else k) / 3)) b (s.chip.reg b) :=
    fun b hb => (hreg b hb).trans (contentAfter_take_setup_writesEvents cs hlen ..)
  refine ⟨t, ht, hlatched, hseq, hx, hcs, hready, fun j a v hj ha => ?_, fun b hb hstill => ?_⟩
  · rw [hfirst a ha, afterWrites_take (beginWrites_nodup hwf _) hj]
    refine if_congr ?_ rfl rfl
    cases landed <;> simp <;> omega
  · rw [hfirst b hstill, afterWrites_take_of_not_mem (not_mem_addrs hb)]

/-- A setup that reports `e` ends begin there: the setup is its first primitive. -/
theorem begin_setup_fails (cs : Byte) {s : State} {e : TErr} {landed : Bool} {latch : Option Addr} {release : Bool}
    (hfault : s.fault = none) (hfails : (nextAnswer (started (.beginBlock cs) s)).verdict = .fails e landed latch release) :
    exec (.beginBlock cs) s = .next (respond (.transportError e) (takeTransportError e release
      { takeAnswer (started (.beginBlock cs) s) with
        chip := (takeAnswer (started (.beginBlock cs) s)).chip.loseLatch latch })) := by
  rw [exec_eq_body (begin_accepts cs hfault)]
  show finish (((platformSetup cs (started (.beginBlock cs) s)).andThen _).andThen _) = _
  rw [platformSetup, primitive_fails hfails]
  rfl

/-- Settles O35: the error of the setup is taken in the state that begin has written, before any frame. -/
theorem beginSetupFailureSendsNothing : Obligations.BeginSetupFailureSendsNothing := by
  intro cs s ans rest e landed latch release hfault hscope henv hfails
  have hans : nextAnswer (started (.beginBlock cs) s) = ans :=
    nextAnswer_of_head (by rw [show (started (.beginBlock cs) s).env = ans :: rest from henv]; rfl)
  refine ⟨_, begin_setup_fails cs hfault (hans ▸ hfails), ?_, by simp [started, cacheAfter], by simp [started, handleAfter],
    by simp [started], by simp, rfl, fun b hb => ?_, by simp⟩
  · simp [started, hscope, encodeResponse]
  · rw [respond_chip, takeTransportError_chip, loseLatch_reg]
    exact still_head (s := started (.beginBlock cs) s) hb s.chip

/-! ### The cache -/

/-- Settles O36: an index below 7 names its cache register, and neither command has a primitive. -/
theorem profileFieldCommands : Obligations.ProfileFieldCommands := by
  refine fun i v s => ⟨fun k hk hruns => ?_, fun hi => ?_⟩
  · have hindex := profileIndex_of_lt hk
    constructor
    · simp only [exec, execSetProfileField, hindex, whenReady_runs hruns]
      rfl
    · simp only [exec, execGetProfileField, hindex, whenReady_runs hruns]
      rfl
  · subst hi
    exact ⟨rfl, rfl⟩

end Sys2Proof.Machine
end

section
/-! PROOFS. The abnormal ends (spec/60_exceptions.md R220 to R228): the refusals of R224, a transport error or a hang at
primitive `k` of a command (R221, R222), the same at a wire frame, and the idle step (R234). -/

namespace Sys2Proof.Machine

/-! ### The idle step and the refusals -/

theorem step_idle {s : State} (hwire : s.wire = none) (hinputs : s.inputs = []) : step s = .next s := by
  simp only [step, advance, hwire, hinputs]

/-- Settles O43: `step_idle`. -/
theorem idleStepChangesNothing : Obligations.IdleStepChangesNothing := fun _ => step_idle

/-- Settles O39: the checks of R227 come before anything else, `ready` first. -/
theorem refusedUntilReadyAndAfterAFault : Obligations.RefusedUntilReadyAndAfterAFault := fun _ _ hcommand hwf =>
  ⟨fun hready hbegin => exec_refused_notReady hcommand hwf hbegin hready,
    fun hfault hready => exec_refused_faultLatched hcommand hwf hready hfault⟩

/-! ### Primitive `k` of a command -/

/-- The events of the bus primitives are those of R7 and R9. -/
theorem isPrimitive_iff (ev : Event) :
    isPrimitive ev = true ↔ ev = .acq ∨ ev = .rel ∨ (∃ cs, ev = .setup cs) ∨ ∃ tx rx, ev = .xchg tx rx := by
  cases ev <;> simp [isPrimitive]

theorem encodeResponse_transportError (e : TErr) : encodeResponse (.transportError e) = cmdWord 0xE0 0 e := rfl

/-- Settles O38: `exec_hangs`. -/
theorem hangingPrimitiveStopsTheRun : Obligations.HangingPrimitiveStopsTheRun :=
  fun _ _ _ _ => exec_hangs

/-- Settles O37: the error is taken after the `k` completed primitives (`Aborted`), and the response follows it. -/
theorem transportErrorEndsTheCommandAtPrimitiveK : Obligations.TransportErrorEndsTheCommandAtPrimitiveK := by
  intro i s k ans e landed latch release haccepts hscope hk hquiet hans hfails
  obtain ⟨t, u, pre, ev, post, hexec, hab, -, -⟩ := exec_fails haccepts hk hquiet hans hfails
  have hheld : held (started i s).scope pre = scopeHeld pre := by
    rw [show (started i s).scope = false from hscope, held_false]
  refine ⟨_, pre, hexec, hab.count, ?_, ?_, fun ev hev => (isPrimitive_iff ev).1 (hab.primitives ev hev), hab.fault, rfl,
    hab.ready, hab.env⟩
  · rw [respond_trace, hab.trace, hheld, encodeResponse_transportError]
    rfl
  · rw [respond_scope, hab.scope, hheld]

/-- The events of the completed primitives and the error stand at the head of what a failed command adds (R222). -/
theorem Aborted.trace_prefix {s t : State} {k : Nat} {pre : List Event} {ev : Event} {e : TErr} {landed : Bool}
    {latch : Option Addr} {release : Bool} (h : Aborted s t k pre ev e landed latch release) :
    s.trace ++ pre ++ [.err e] <+: t.trace :=
  h.trace ▸ List.prefix_append ..

/-- Settles O57: `Aborted` from the state in which the first primitive starts; the response changes neither chip nor cache. -/
theorem transportErrorLeavesAPrefixOnTheChip : Obligations.TransportErrorLeavesAPrefixOnTheChip := by
  intro i s k ans e landed latch release haccepts hk hquiet hans hfails
  obtain ⟨t, u, pre, ev, post, hexec, hab, hcompleting, hpost⟩ := exec_fails haccepts hk hquiet hans hfails
  have hprefix : s.trace ++ pre ++ [.err e] <+: (respond (.transportError e) t).trace :=
    hab.trace_prefix.trans (respond_trace .. ▸ List.prefix_append ..)
  exact ⟨_, u, pre, ev, post, hexec, hcompleting, hab.count, hpost, hprefix, hab.x, hab.cs, hab.pend, hab.reg⟩

/-! ### The exchange of a wire frame -/

/-- The state after the exchange of `tx` has reported `e` (R222). -/
def exchangeFailed (tx : Frame) (e : TErr) (landed : Bool) (latch : Option Addr) (release : Bool) (s : State) : State :=
  takeTransportError e release { takeAnswer s with chip := (takeAnswer s).chip.takeFailed tx landed latch }

theorem wireExchange_fails (tx : Frame) {s : State} {e : TErr} {landed : Bool} {latch : Option Addr} {release : Bool}
    (h : (nextAnswer s).verdict = .fails e landed latch release) :
    wireExchange tx s = .failed e (exchangeFailed tx e landed latch release s) :=
  primitive_fails h

theorem wireExchange_hangs (tx : Frame) {s : State} (h : (nextAnswer s).verdict = .hangs) : wireExchange tx s = .hung := by
  simp only [wireExchange, primitive, h]

theorem exchangeFailed_frameFailed (tx : Frame) (e : TErr) (landed : Bool) (latch : Option Addr) (release : Bool)
    (s : State) : s.FrameFailed (exchangeFailed tx e landed latch release s) e latch release := by
  unfold exchangeFailed
  have hblock : State.SameBlock { s with fault := some e } (exchangeFailed tx e landed latch release s) := by
    simp [State.SameBlock, exchangeFailed]
  refine ⟨?_, by simp, by simp, by simp, by simp, hblock, by simp, by simp⟩
  rw [takeTransportError_trace]
  cases hrel : s.scope && release <;> simp [hrel]

theorem exchangeFailed_reg (tx : Frame) (e : TErr) (landed : Bool) (latch : Option Addr) (release : Bool) (s : State)
    (b : Addr) : (exchangeFailed tx e landed latch release s).chip.reg b =
      if landed = true ∧ tx.isWrite = true ∧ b = tx.addr then tx.data else (takeAnswer s).chip.reg b := by
  rw [exchangeFailed, takeTransportError_chip, reg_takeFailed]

/-- Settles O58: the frame is one exchange, whose answer is the first of the script. -/
theorem wireFrameErrors : Obligations.WireFrameErrors := by
  intro a v s ans hans
  have hnext : nextAnswer s = ans := nextAnswer_of_head hans
  refine ⟨fun e landed latch release hfails => ?_, fun hhangs => ?_⟩
  · rw [← hnext] at hfails
    refine ⟨exchangeFailed (encWrite (addrByte a) v) e landed latch release s,
      exchangeFailed (encRead (addrByte a)) e landed latch release s, congrArg finishWire (wireExchange_fails _ hfails),
      congrArg finishWire (wireExchange_fails _ hfails), exchangeFailed_frameFailed .., exchangeFailed_frameFailed ..,
      fun hlanded => ?_, fun b hstill => ?_⟩
    · rw [exchangeFailed_reg, if_pos ⟨hlanded, isWrite_encWrite .., (addr_encWrite ..).symm⟩, data_encWrite]
    · have hkept : (takeAnswer s).chip.reg b = s.chip.reg b := still_head hstill s.chip
      rw [exchangeFailed_reg, exchangeFailed_reg, isWrite_encWrite, isWrite_encRead, addr_encWrite, data_encWrite, hkept]
      exact ⟨if_congr (by simp [and_comm]) rfl rfl, if_neg fun h => Bool.false_ne_true h.2.1⟩
  · rw [← hnext] at hhangs
    exact ⟨congrArg finishWire (wireExchange_hangs _ hhangs), congrArg finishWire (wireExchange_hangs _ hhangs)⟩

end Sys2Proof.Machine
end

section
/-! PROOFS. The status byte is never interpreted (spec/60_exceptions.md R225): two runs whose answers differ in status
bytes alone, side by side. -/

namespace Sys2Proof.Machine

/-! ### Two states side by side -/

/-- Two answers that differ in the status byte alone. -/
def AnswerAlike (a b : Answer) : Prop := a.drift = b.drift ∧ a.data = b.data ∧ a.verdict = b.verdict

/-- Two traces with the same frames sent, each with the responses `rs`. -/
structure TraceAlike (rs : List PortWord) (es fs : List Event) : Prop where
  frames : (exchanges fs).map Prod.fst = (exchanges es).map Prod.fst
  left : responses es = rs
  right : responses fs = rs

/-- Two states that differ in the answers to come, by status bytes alone, and in the traces behind them, which sent the same
frames and hold the responses `rs`. -/
inductive Alike (rs : List PortWord) (s : State) : State → Prop
  | mk (env : List Answer) (trace : List Event) (henv : List.Forall₂ AnswerAlike s.env env)
      (htrace : TraceAlike rs s.trace trace) : Alike rs s { s with env := env, trace := trace }

/-- The state that `u` shares with `t` whatever the responses: the block, the peripheral, the answers taken and the frames
sent. -/
structure SameEnd (t u : State) : Prop where
  x : u.x = t.x
  cs : u.cs = t.cs
  ready : u.ready = t.ready
  fault : u.fault = t.fault
  seq : u.seq = t.seq
  scope : u.scope = t.scope
  chip : u.chip = t.chip
  draws : u.draws = t.draws
  frames : (exchanges u.trace).map Prod.fst = (exchanges t.trace).map Prod.fst

theorem exchanges_append (es fs : List Event) : exchanges (es ++ fs) = exchanges es ++ exchanges fs := by
  induction es with
  | nil => rfl
  | cons e es ih =>
    cases e with
    | xchg tx rx => exact congrArg ((tx, rx) :: ·) ih
    | _ => exact ih

theorem TraceAlike.append {rs : List PortWord} {es fs es' fs' : List Event} (h : TraceAlike rs es fs)
    (k : TraceAlike [] es' fs') : TraceAlike rs (es ++ es') (fs ++ fs') where
  frames := by rw [exchanges_append, exchanges_append, List.map_append, List.map_append, h.frames, k.frames]
  left := by rw [responses_append, h.left, k.left, List.append_nil]
  right := by rw [responses_append, h.right, k.right, List.append_nil]

section
variable {rs : List PortWord} {s u : State}

theorem Alike.sameEnd (h : Alike rs s u) : SameEnd s u := by
  obtain ⟨env, trace, -, htrace⟩ := h
  exact ⟨rfl, rfl, rfl, rfl, rfl, rfl, rfl, rfl, htrace.frames⟩

theorem Alike.responses (h : Alike rs s u) : responses s.trace = rs ∧ responses u.trace = rs := by
  obtain ⟨env, trace, -, htrace⟩ := h
  exact ⟨htrace.left, htrace.right⟩

theorem Alike.cfg (h : Alike rs s u) : u.cfg = s.cfg := by
  obtain ⟨env, trace, -, -⟩ := h
  rfl

/-- An update that looks at neither the answers nor the trace. -/
theorem Alike.update (h : Alike rs s u) (f : State → State)
    (hf : ∀ z env trace, f { z with env := env, trace := trace } = { f z with env := env, trace := trace }) :
    Alike rs (f s) (f u) := by
  obtain ⟨env, trace, henv, htrace⟩ := h
  have hs : f s = { f s with env := s.env, trace := s.trace } := hf s s.env s.trace
  have hfenv : (f s).env = s.env := by rw [hs]
  have hftrace : (f s).trace = s.trace := by rw [hs]
  rw [hf s env trace]
  exact .mk env trace (hfenv ▸ henv) (hftrace ▸ htrace)

theorem Alike.emit (h : Alike rs s u) {ev ev' : Event} (k : TraceAlike [] [ev] [ev']) :
    Alike rs (emit ev s) (emit ev' u) := by
  obtain ⟨env, trace, henv, htrace⟩ := h
  exact .mk env _ henv (htrace.append k)

theorem Alike.completed (h : Alike rs s u) {ev : Event} (k : TraceAlike [] [ev] [ev]) :
    Alike rs (completed ev s) (completed ev u) :=
  (h.emit k).update (fun z => { z with seq := z.seq + 1 }) fun _ _ _ => rfl

theorem Alike.takeTransportError (h : Alike rs s u) (e : TErr) (release : Bool) :
    Alike rs (takeTransportError e release s) (takeTransportError e release u) := by
  have herr : Alike rs (Machine.emit (.err e) s) (Machine.emit (.err e) u) := h.emit ⟨rfl, rfl, rfl⟩
  have hrel : Alike rs (releaseOnError release (Machine.emit (.err e) s))
      (releaseOnError release (Machine.emit (.err e) u)) := by
    rw [releaseOnError, releaseOnError, herr.sameEnd.scope]
    split
    · have hfree := herr.update (fun z => { z with scope := false }) fun _ _ _ => rfl
      exact hfree.emit (ev := .rel) (ev' := .rel) ⟨rfl, rfl, rfl⟩
    · exact herr
  exact hrel.update (fun z => { z with fault := some e, seq := 0 }) fun _ _ _ => rfl

theorem Alike.nextAnswer (h : Alike rs s u) : AnswerAlike (nextAnswer s) (nextAnswer u) := by
  obtain ⟨env, trace, henv, -⟩ := h
  unfold Machine.nextAnswer
  cases hs : s.env with
  | nil =>
    rw [hs] at henv
    obtain rfl := List.forall₂_nil_left_iff.1 henv
    exact ⟨rfl, rfl, rfl⟩
  | cons ans rest =>
    rw [hs] at henv
    obtain ⟨ans', rest', hans, -, rfl⟩ := List.forall₂_cons_left_iff.1 henv
    exact hans

theorem Alike.takeAnswer (h : Alike rs s u) : Alike rs (takeAnswer s) (takeAnswer u) := by
  obtain ⟨hdrift, -, -⟩ := h.nextAnswer
  obtain ⟨env, trace, henv, htrace⟩ := h
  have htail : List.Forall₂ AnswerAlike s.env.tail env.tail := by simpa using List.forall₂_drop 1 henv
  rw [Machine.takeAnswer, Machine.takeAnswer, ← hdrift]
  exact .mk env.tail trace htail htrace

theorem SameEnd.respond (h : SameEnd s u) (r r' : Response) : SameEnd (respond r s) (respond r' u) where
  x := h.x
  cs := h.cs
  ready := h.ready
  fault := h.fault
  seq := rfl
  scope := h.scope
  chip := h.chip
  draws := h.draws
  frames := by
    rw [respond_trace, respond_trace, exchanges_append, exchanges_append, List.map_append, List.map_append, h.frames]
    rfl

theorem Alike.respond_responses (h : Alike rs s u) (r r' : Response) :
    Machine.responses (respond r s).trace = rs ++ [encodeResponse r] ∧
      Machine.responses (respond r' u).trace = rs ++ [encodeResponse r'] := by
  rw [respond_trace, respond_trace, responses_append, responses_append, h.responses.1, h.responses.2]
  exact ⟨rfl, rfl⟩

end

/-! ### Two sequences side by side -/

/-- Two sequences that end the same way in states alike, with results that `R` relates. -/
inductive Attempt.Alike {α : Type} (rs : List PortWord) (R : α → α → Prop) : Attempt α → Attempt α → Prop
  | done {r r' : α} {s u : State} (hr : R r r') (h : Machine.Alike rs s u) : Alike rs R (.done r s) (.done r' u)
  | failed {s u : State} (e : TErr) (h : Machine.Alike rs s u) : Alike rs R (.failed e s) (.failed e u)
  | hung : Alike rs R .hung .hung

section
variable {rs : List PortWord} {s u : State} {α β : Type} {R : α → α → Prop} {Q : β → β → Prop}

theorem alike_andThen {t t' : Attempt α} {k k' : α → State → Attempt β} (h : t.Alike rs R t')
    (hk : ∀ r r' s u, R r r' → Alike rs s u → (k r s).Alike rs Q (k' r' u)) :
    (t.andThen k).Alike rs Q (t'.andThen k') := by
  cases h with
  | done hr h => exact hk _ _ _ _ hr h
  | failed e h => exact .failed e h
  | hung => exact .hung

theorem alike_done {t' : Attempt α} {r : α} (h : (Attempt.done r s).Alike rs R t') :
    ∃ r' u, t' = .done r' u ∧ R r r' ∧ Alike rs s u := by
  cases h with
  | done hr h => exact ⟨_, _, rfl, hr, h⟩

theorem alike_failed {t' : Attempt α} {e : TErr} (h : (Attempt.failed e s).Alike rs R t') :
    ∃ u, t' = .failed e u ∧ Alike rs s u := by
  cases h with
  | failed e h => exact ⟨_, rfl, h⟩

/-- What holds of the result of each sequence holds of the two results. -/
theorem alike_of_sat {t t' : Attempt α} {P P' : α → Prop} (h : t.Alike rs R t')
    (hp : t.Sat (fun r _ => P r) fun _ _ => True) (hp' : t'.Sat (fun r _ => P' r) fun _ _ => True) :
    t.Alike rs (fun r r' => R r r' ∧ P r ∧ P' r') t' := by
  cases h with
  | done hr h => exact .done ⟨hr, hp, hp'⟩ h
  | failed e h => exact .failed e h
  | hung => exact .hung

/-- A primitive looks at the verdict and the drift of its answer; alike if what it does with the rest is (R221, R222). -/
theorem primitive_alike {c : Answer → State → Attempt α} {spoil : Bool → Option Addr → State → State} (h : Alike rs s u)
    (hc : ∀ a b s u, AnswerAlike a b → Alike rs s u → (c a s).Alike rs R (c b u))
    (hspoil : ∀ landed latch s u, Alike rs s u → Alike rs (spoil landed latch s) (spoil landed latch u)) :
    (primitive c spoil s).Alike rs R (primitive c spoil u) := by
  have hans := h.nextAnswer
  have hverdict : (nextAnswer s).verdict = (nextAnswer u).verdict := hans.2.2
  unfold primitive
  rw [← hverdict]
  cases (nextAnswer s).verdict with
  | completes => exact hc _ _ _ _ hans h.takeAnswer
  | fails e landed latch release =>
    exact .failed e ((hspoil landed latch _ _ h.takeAnswer).takeTransportError e release)
  | hangs => exact .hung

theorem busAcquire_alike (h : Alike rs s u) : (busAcquire s).Alike rs Eq (busAcquire u) :=
  primitive_alike h
    (fun _ _ _ _ _ k =>
      .done rfl ((k.update (fun z => { z with scope := true }) fun _ _ _ => rfl).completed ⟨rfl, rfl, rfl⟩))
    fun _ _ _ _ k => k

theorem Alike.loseLatch (h : Alike rs s u) (latch : Option Addr) :
    Alike rs { s with chip := s.chip.loseLatch latch } { u with chip := u.chip.loseLatch latch } :=
  h.update (fun z => { z with chip := z.chip.loseLatch latch }) fun _ _ _ => rfl

theorem busRelease_alike (h : Alike rs s u) : (busRelease s).Alike rs Eq (busRelease u) :=
  primitive_alike h
    (fun _ _ _ _ _ k =>
      .done rfl ((k.update (fun z => { z with scope := false }) fun _ _ _ => rfl).completed ⟨rfl, rfl, rfl⟩))
    fun _ latch _ _ k => k.loseLatch latch

theorem platformSetup_alike (cs : Byte) (h : Alike rs s u) : (platformSetup cs s).Alike rs Eq (platformSetup cs u) :=
  primitive_alike h (fun _ _ _ _ _ k => .done rfl (k.completed ⟨rfl, rfl, rfl⟩)) fun _ latch _ _ k => k.loseLatch latch

/-- The data of a response depend on the chip and on the data of the answer, not on its status byte (R67). -/
theorem wireExchange_alike (tx : Frame) (h : Alike rs s u) :
    (wireExchange tx s).Alike rs (fun rx rx' => rx'.data = rx.data) (wireExchange tx u) := by
  refine primitive_alike h (fun a b s u ⟨_, hdata, _⟩ k => .done ?_ ?_)
    fun landed latch s u k => k.update (fun z => { z with chip := z.chip.takeFailed tx landed latch }) fun _ _ _ => rfl
  · show (response u.cfg u.chip b).data = (response s.cfg s.chip a).data
    rw [response_data, response_data, k.cfg, k.sameEnd.chip, hdata]
  · exact (k.update (fun z => { z with chip := z.chip.take tx }) fun _ _ _ => rfl).emit ⟨rfl, rfl, rfl⟩

theorem busExchange_alike (tx : Frame) (h : Alike rs s u) :
    (busExchange tx s).Alike rs (fun rx rx' => rx'.data = rx.data) (busExchange tx u) :=
  alike_andThen (wireExchange_alike tx h) fun _ _ _ _ hdata k =>
    .done hdata (k.update (fun z => { z with seq := z.seq + 1 }) fun _ _ _ => rfl)

/-! ### Transactions -/

theorem memWrite_alike (a : Addr) (v : Word) (h : Alike rs s u) : (memWrite a v s).Alike rs Eq (memWrite a v u) :=
  alike_andThen (busAcquire_alike h) fun _ _ _ _ _ h1 =>
  alike_andThen (busExchange_alike _ h1) fun _ _ _ _ _ h2 => busRelease_alike h2

theorem memRead_alike (a : Addr) (h : Alike rs s u) :
    (memRead a s).Alike rs (fun p p' => p'.2 = p.2) (memRead a u) :=
  alike_andThen (busAcquire_alike h) fun _ _ _ _ _ h1 =>
  alike_andThen (busExchange_alike _ h1) fun _ _ _ _ _ h2 =>
  alike_andThen (busExchange_alike _ h2) fun _ _ _ _ hdata h3 =>
  alike_andThen (busRelease_alike h3) fun _ _ _ _ _ h4 => .done hdata h4

theorem memWrites_alike (ws : List (Addr × Word)) (h : Alike rs s u) : (memWrites ws s).Alike rs Eq (memWrites ws u) := by
  induction ws generalizing s u with
  | nil => exact .done rfl h
  | cons w rest ih => exact alike_andThen (memWrite_alike w.1 w.2 h) fun _ _ _ _ _ h1 => ih h1

theorem editRegister_alike (a : Addr) (bit : Nat) (en : Bool) (h : Alike rs s u) :
    (editRegister a bit en s).Alike rs Eq (editRegister a bit en u) :=
  alike_andThen (memRead_alike a h) fun p p' _ _ hdata h1 => by
    rw [hdata]
    exact memWrite_alike a (editBit p.2 bit en) h1

/-- The two sequences of `thenRespond`, each followed by its response. -/
theorem thenRespond_alike {t t' : Attempt α} {respOf : α → Response} {S : Response → Response → Prop}
    (h : t.Alike rs R t') (hr : ∀ a a', R a a' → S (respOf a) (respOf a')) :
    (t.andThen fun a z => .done (respOf a) z).Alike rs S (t'.andThen fun a z => .done (respOf a) z) :=
  alike_andThen h fun a a' _ _ haa k => .done (hr a a' haa) k

end

/-! ### The status byte that `read` returns -/

/-- The answer to the primitive after the next `k`. -/
def answerAt (s : State) (k : Nat) : Answer := (s.env[k]?).getD (freeAnswer s.cfg (s.draws + k))

theorem answerAt_of_some {s : State} {k : Nat} {ans : Answer} (h : s.env[k]? = some ans) : answerAt s k = ans := by
  rw [answerAt, h, Option.getD_some]

/-- Once `k` answers are taken the next one is answer `k`. -/
theorem nextAnswer_eq_answerAt {s t : State} {k : Nat} (hcfg : t.cfg = s.cfg) (henv : t.env = s.env.drop k)
    (hdraws : t.draws = s.draws + k) : nextAnswer t = answerAt s k := by
  rw [nextAnswer, answerAt, ← List.head?_drop, ← henv, hcfg, hdraws]
  cases t.env <;> rfl

/-- The status byte that `memRead` returns is that of its second exchange, the third primitive (R131). -/
theorem memRead_status (a : Addr) (s : State) :
    (memRead a s).Sat (fun p _ => p.1 = (answerAt s 2).status) fun _ _ => True := by
  refine sat_andThen (sat_mono (busAcquire_sat s) (fun _ _ h => h) fun _ _ _ => trivial) fun _ s1 h1 => ?_
  refine sat_andThen (sat_mono (busExchange_sat _ s1) (fun _ _ h => h.2) fun _ _ _ => trivial) fun _ s2 h2 => ?_
  have hnext : nextAnswer s2 = answerAt s 2 := by
    subst h1 h2
    exact nextAnswer_eq_answerAt rfl (by simp [exchanged, completed, ← List.drop_one]) rfl
  refine sat_andThen (sat_mono (busExchange_sat _ s2) (fun _ _ h => h.1) fun _ _ _ => trivial) fun rx s3 h3 => ?_
  refine sat_andThen (sat_mono (busRelease_sat s3) (fun _ _ _ => trivial) fun _ _ _ => trivial) fun _ _ (_ : True) => ?_
  show rx.b0 = _
  rw [h3, response_b0, hnext]

/-! ### Commands -/

/-- The responses of an instruction that ends ok in `s` and in `u`: the same, but for `read`, whose responses carry the same
value, and each the status byte of its own fetch exchange (R131). -/
def RespondsAlike (i : Instr) (s u : State) (r r' : Response) : Prop :=
  match i with
  | .read _ => ∃ v, r = .statusValue (answerAt s 2).status v ∧ r' = .statusValue (answerAt u 2).status v
  | _ => r' = r

/-- The sequence of every command runs alike from states alike. -/
theorem body_alike (i : Instr) {rs : List PortWord} {s u : State} (h : Alike rs s u) :
    (body i s).Alike rs (RespondsAlike i s u) (body i u) := by
  obtain ⟨env, trace, henv, htrace⟩ := h
  have h := Alike.mk env trace henv htrace
  cases i with
  | beginBlock cs =>
    have hstart := h.update (started (.beginBlock cs)) fun _ _ _ => rfl
    refine thenRespond_alike (R := Eq) (alike_andThen (platformSetup_alike cs hstart) fun _ _ s2 u2 _ h2 => ?_)
      fun _ _ _ => rfl
    rw [h2.cfg, h2.sameEnd.x]
    exact alike_andThen (memWrites_alike (beginWrites s2.cfg s2.x) h2) fun _ _ _ _ _ h3 =>
      .done rfl (h3.update (fun z => { z with ready := true }) fun _ _ _ => rfl)
  | read a =>
    refine thenRespond_alike (alike_of_sat (memRead_alike a h) (memRead_status a s) (memRead_status a _)) ?_
    rintro ⟨st, v⟩ ⟨st', v'⟩ ⟨rfl, rfl, rfl⟩
    exact ⟨_, rfl, rfl⟩
  | getPosition | getEncoderPosition =>
    exact thenRespond_alike (memRead_alike _ h) fun _ _ hdata => congrArg Response.value hdata
  | isStopped =>
    exact thenRespond_alike (memRead_alike _ h) fun _ _ hdata => congrArg (fun w => Response.bool (isZero w)) hdata
  | write _ _ | setRampMode _ | moveTo _ | setPosition _ | setEncoderPosition _ =>
    exact thenRespond_alike (memWrite_alike _ _ h) fun _ _ _ => rfl
  | setVelocity v =>
    exact thenRespond_alike (memWrite_alike _ v (h.update (started (.setVelocity v)) fun _ _ _ => rfl)) fun _ _ _ => rfl
  | jog d =>
    refine thenRespond_alike (R := Eq) (alike_andThen (memRead_alike _ h) fun p p' _ _ hdata h1 => ?_) fun _ _ _ => rfl
    rw [hdata]
    exact memWrite_alike _ (p.2 + d) h1
  | enableStealthChop en | reverseDirection en =>
    exact thenRespond_alike (editRegister_alike _ _ en h) fun _ _ _ => rfl
  | setCurrentLimits d hold run =>
    exact thenRespond_alike (R := Eq) (alike_andThen (memWrite_alike _ (currentWord d hold run) h) fun _ _ _ _ _ h1 =>
      editRegister_alike _ _ _ h1) fun _ _ _ => rfl
  | updateMotionProfile => exact thenRespond_alike (memWrites_alike (commitWrites s.cfg s.x) h) fun _ _ _ => rfl
  | setProfileField k v =>
    cases hk : profileIndex k with
    | none => simp only [body, hk]; exact .done rfl h
    | some j => simp only [body, hk]; exact .done rfl (h.update (fun z => { z with x := z.x.set j v }) fun _ _ _ => rfl)
  | getProfileField k => cases hk : profileIndex k <;> simp only [body, hk] <;> exact .done rfl h
  | frameWr _ _ | frameRd _ => exact .done rfl h

/-! ### Instructions -/

theorem Alike.accepts {i : Instr} {rs : List PortWord} {s u : State} (h : Alike rs s u) (ha : s.Accepts i) :
    u.Accepts i := by
  obtain ⟨env, trace, -, -⟩ := h
  exact ha

/-- The illegal index 7, whatever the state (R110 (d), R223). -/
theorem exec_of_not_wf {i : Instr} (h : i.wf = false) (s : State) : exec i s = .next (takeIllegal s) := by
  cases i with
  | setProfileField k _ | getProfileField k =>
    obtain rfl : k = 7 := by simpa [Instr.wf, profileIndexOk] using h
    rfl
  | _ => cases h

/-- What the runs of `i` from `s` to `t` and from `u` to `v` respond behind the responses `rs`: the same, or `i` is a `read`
that ends ok and both respond with one value. -/
def EndsAlike (i : Instr) (rs : List PortWord) (s u t v : State) : Prop :=
  (responses v.trace = responses t.trace ∧ ∀ a, i = .read a → t.fault ≠ none) ∨
    ((∃ a, i = .read a) ∧ t.fault = none ∧ ∃ w, responses t.trace = rs ++ [cmdWord 0x02 (answerAt s 2).status w] ∧
      responses v.trace = rs ++ [cmdWord 0x02 (answerAt u 2).status w])

/-- A command that ends ok in both runs. -/
theorem endsAlike_respond {i : Instr} {rs : List PortWord} {s u t v : State} {r r' : Response} (h : Alike rs t v)
    (hfault : t.fault = none) (hr : RespondsAlike i s u r r') : EndsAlike i rs s u (respond r t) (respond r' v) := by
  obtain ⟨ht, hv⟩ := h.respond_responses r r'
  cases i with
  | read a =>
    obtain ⟨w, rfl, rfl⟩ := hr
    exact .inr ⟨⟨a, rfl⟩, hfault, w, ht, hv⟩
  | _ => exact .inl ⟨by rw [ht, hv, show r' = r from hr], fun _ e => by cases e⟩

theorem endsAlike_of_same_response {i : Instr} {rs : List PortWord} {s u t v : State} (r : Response) (h : Alike rs t v)
    (hfault : ∀ a, i = .read a → t.fault ≠ none) : EndsAlike i rs s u (respond r t) (respond r v) := by
  obtain ⟨ht, hv⟩ := h.respond_responses r r
  exact .inl ⟨hv.trans ht.symm, hfault⟩

theorem command_alike {i : Instr} {rs : List PortWord} {s u t : State} (hc : isCommand i = true) (h : Alike rs s u)
    (hx : exec i s = .next t) : ∃ v, exec i u = .next v ∧ SameEnd t v ∧ EndsAlike i rs s u t v := by
  rcases exec_next_accepts hc hx with ha | ⟨hwf, rfl⟩
  · rw [exec_eq_body ha] at hx
    rw [exec_eq_body (h.accepts ha)]
    rcases finish_next hx with ⟨r, t, hs, rfl⟩ | ⟨e, t, hs, rfl⟩
    · obtain ⟨r', v, hu, hr, htv⟩ := alike_done (hs ▸ body_alike i h)
      obtain ⟨-, -, hnone, -⟩ := ha
      have hfault : t.fault = none := (sat_done (body_within i s) hs).fault.trans ((ended_fault ..).trans hnone)
      exact ⟨_, by rw [hu, finish_done], htv.sameEnd.respond r r', endsAlike_respond htv hfault hr⟩
    · obtain ⟨v, hu, htv⟩ := alike_failed (hs ▸ body_alike i h)
      have hfault : t.fault = some e := (sat_failed (body_within i s) hs).failed.1
      exact ⟨_, by rw [hu, finish_failed], htv.sameEnd.respond _ _,
        endsAlike_of_same_response _ htv fun _ _ => by simp [hfault]⟩
  · exact ⟨_, exec_of_not_wf hwf u, h.sameEnd.respond _ _,
      endsAlike_of_same_response .illegal h fun a hi => by subst hi; cases hwf⟩

theorem wireExchange_next_alike (tx : Frame) {rs : List PortWord} {s u t : State} (h : Alike rs s u)
    (hx : finishWire (wireExchange tx s) = .next t) : ∃ v, finishWire (wireExchange tx u) = .next v ∧ Alike rs t v := by
  rcases finishWire_next hx with ⟨rx, hs⟩ | ⟨e, hs⟩
  · obtain ⟨rx', v, hu, -, htv⟩ := alike_done (hs ▸ wireExchange_alike tx h)
    exact ⟨v, by rw [hu, finishWire], htv⟩
  · obtain ⟨v, hu, htv⟩ := alike_failed (hs ▸ wireExchange_alike tx h)
    exact ⟨v, by rw [hu, finishWire], htv⟩

/-- An instruction that runs from states alike ends alike. -/
theorem exec_alike {i : Instr} {rs : List PortWord} {s u t : State} (h : Alike rs s u) (hx : exec i s = .next t) :
    ∃ v, exec i u = .next v ∧ SameEnd t v ∧ EndsAlike i rs s u t v := by
  cases hc : isCommand i with
  | true => exact command_alike hc h hx
  | false =>
    have frame : (∃ v, exec i u = .next v ∧ Alike rs t v) →
        ∃ v, exec i u = .next v ∧ SameEnd t v ∧ EndsAlike i rs s u t v := fun ⟨v, hv, htv⟩ => by
      obtain ⟨ht, hv'⟩ := htv.responses
      exact ⟨v, hv, htv.sameEnd, .inl ⟨hv'.trans ht.symm, fun a hi => by subst hi; cases hc⟩⟩
    cases i with
    | frameWr a v => exact frame (wireExchange_next_alike _ h hx)
    | frameRd a => exact frame (wireExchange_next_alike _ h hx)
    | _ => cases hc

/-- Settles O50: the two runs are alike from their start (`exec_alike`), and `read` returns the status of answer 2. -/
theorem statusBytesAreNeverInterpreted : Obligations.StatusBytesAreNeverInterpreted := by
  intro i s t env henv hx
  have halike : Alike (responses s.trace) s { s with env := env } := .mk env s.trace henv ⟨rfl, rfl, rfl⟩
  obtain ⟨u, hu, hend, hresp⟩ := exec_alike halike hx
  refine ⟨u, hu, hend.x, hend.cs, hend.ready, hend.fault, hend.seq, hend.scope, hend.chip, hend.draws, hend.frames,
    fun hcase => ?_, fun a ans ans' hi hok hans hans' => ?_⟩
  · rcases hresp with ⟨hsame, -⟩ | ⟨⟨a, hread⟩, hok, w, ht, hv⟩
    · exact hsame
    · rcases hcase with hother | hfault | hnone
      · exact absurd hread (hother a)
      · exact absurd hok hfault
      · have hnone' : env[2]? = none := by
          rwa [List.getElem?_eq_none_iff, ← henv.length_eq, ← List.getElem?_eq_none_iff]
        rw [hv, ht, answerAt, answerAt, hnone, hnone']
  · rcases hresp with ⟨-, hfault⟩ | ⟨-, -, w, ht, hv⟩
    · exact absurd hok (hfault a hi)
    · rw [answerAt_of_some hans] at ht
      rw [answerAt_of_some hans'] at hv
      exact ⟨w, ht, hv⟩

end Sys2Proof.Machine
end

section
/-! PROOFS. Reset and the shape of a command (spec/70_reset_and_hazards.md R250, R251, R274, R275): the logical transactions a
command that ends ok is made of, and the answers that an instruction takes. -/

namespace Sys2Proof.Machine

/-! ### Reset -/

theorem step_reset {s : State} {rest : List Input} (hwire : s.wire = none) (hinputs : s.inputs = .reset :: rest) :
    step s = .next (resetBlock { s with inputs := rest }) :=
  step_input hwire hinputs

/-- Settles O41: the step is `resetBlock`, which writes the block's own registers alone. -/
theorem resetClearsTheBlockOnly : Obligations.ResetClearsTheBlockOnly := fun _ _ hwire hinputs =>
  ⟨_, step_reset hwire hinputs, rfl, rfl, rfl, rfl, rfl, rfl, rfl, rfl, rfl, hwire⟩

/-! ### The events of a transaction that completes -/

theorem busAcquire_trace (s : State) : (busAcquire s).Sat (fun _ t => t.trace = s.trace ++ [.acq]) fun _ _ => True :=
  sat_mono (busAcquire_sat s) (fun _ _ h => h ▸ rfl) fun _ _ _ => trivial

theorem busRelease_trace (s : State) : (busRelease s).Sat (fun _ t => t.trace = s.trace ++ [.rel]) fun _ _ => True :=
  sat_mono (busRelease_sat s) (fun _ _ h => h ▸ rfl) fun _ _ _ => trivial

theorem platformSetup_trace (cs : Byte) (s : State) :
    (platformSetup cs s).Sat (fun _ t => t.trace = s.trace ++ [.setup cs]) fun _ _ => True :=
  sat_mono (platformSetup_sat cs s) (fun _ _ h => h ▸ rfl) fun _ _ _ => trivial

theorem busExchange_trace (tx : Frame) (s : State) :
    (busExchange tx s).Sat (fun rx t => t.trace = s.trace ++ [.xchg tx rx]) fun _ _ => True :=
  sat_mono (busExchange_sat tx s) (fun _ _ ⟨hrx, ht⟩ => hrx ▸ ht ▸ rfl) fun _ _ _ => trivial

theorem memWrite_trace (a : Addr) (v : Word) (s : State) :
    (memWrite a v s).Sat (fun _ t => ∃ rx, t.trace = s.trace ++ writeEvents a v rx) fun _ _ => True :=
  sat_andThen (busAcquire_trace s) fun _ s1 h1 =>
  sat_andThen (busExchange_trace _ s1) fun rx s2 h2 =>
  sat_mono (busRelease_trace s2) (fun _ _ h3 => ⟨rx, by simp [h3, h2, h1, writeEvents]⟩) fun _ _ _ => trivial

theorem memRead_trace (a : Addr) (s : State) :
    (memRead a s).Sat (fun _ t => ∃ rx1 rx2, t.trace = s.trace ++ readEvents a rx1 rx2) fun _ _ => True :=
  sat_andThen (busAcquire_trace s) fun _ s1 h1 =>
  sat_andThen (busExchange_trace _ s1) fun rx1 s2 h2 =>
  sat_andThen (busExchange_trace _ s2) fun rx2 s3 h3 =>
  sat_andThen (busRelease_trace s3) fun _ _ h4 => ⟨rx1, rx2, by simp [h4, h3, h2, h1, readEvents]⟩

/-! ### Sequences of whole transactions -/

theorem transactions_append {es fs : List Event} (hes : transactions es = true) (hfs : transactions fs = true) :
    transactions (es ++ fs) = true := by
  induction es using transactions.induct with
  | case1 => exact hfs
  | case2 tx rx es ih =>
    obtain ⟨hwrite, hrest⟩ : tx.isWrite = true ∧ transactions es = true := by simpa [transactions] using hes
    simp [transactions, hwrite, ih hrest]
  | case3 tx rx tx' rx' es ih =>
    obtain ⟨⟨hrequest, rfl⟩, hrest⟩ : (tx.isWrite = false ∧ tx = tx') ∧ transactions es = true := by
      simpa [transactions] using hes
    simp [transactions, hrequest, ih hrest]
  | case4 es => simp [transactions] at hes

/-- Between the traces `before` and `after` stand whole logical transactions with `m` scopes and `n` exchanges (R75, R274). -/
def Transacted (before after : List Event) (m n : Nat) : Prop :=
  ∃ evs, after = before ++ evs ∧ transactions evs = true ∧ acquires evs = m ∧ (exchanges evs).length = n

theorem Transacted.refl (es : List Event) : Transacted es es 0 0 := ⟨[], by simp, rfl, rfl, rfl⟩

theorem Transacted.trans {es fs gs : List Event} {m n m' n' : Nat} (h : Transacted es fs m n)
    (k : Transacted fs gs m' n') : Transacted es gs (m + m') (n + n') := by
  obtain ⟨evs, rfl, hwhole, rfl, rfl⟩ := h
  obtain ⟨evs', rfl, kwhole, rfl, rfl⟩ := k
  exact ⟨evs ++ evs', List.append_assoc .., transactions_append hwhole kwhole, List.count_append ..,
    by rw [exchanges_append, List.length_append]⟩

theorem writeEvents_transacted (es : List Event) (a : Addr) (v : Word) (rx : Frame) :
    Transacted es (es ++ writeEvents a v rx) 1 1 :=
  ⟨_, rfl, by simp [writeEvents, transactions, isWrite_encWrite], rfl, rfl⟩

theorem readEvents_transacted (es : List Event) (a : Addr) (rx1 rx2 : Frame) :
    Transacted es (es ++ readEvents a rx1 rx2) 1 2 :=
  ⟨_, rfl, by simp [readEvents, transactions, isWrite_encRead], rfl, rfl⟩

/-- A sequence of primitives that completes has added whole transactions with `m` scopes and `n` exchanges to the trace of
`s`. -/
abbrev Attempt.Transacts {α : Type} (s : State) (t : Attempt α) (m n : Nat) : Prop :=
  t.Sat (fun _ u => Transacted s.trace u.trace m n) fun _ _ => True

theorem transacts_andThen {α β : Type} {s : State} {t : Attempt α} {k : α → State → Attempt β} {m n m' n' : Nat}
    (h : t.Transacts s m n) (hk : ∀ r u, (k r u).Transacts u m' n') : (t.andThen k).Transacts s (m + m') (n + n') :=
  sat_andThen h fun r u hu => sat_mono (hk r u) (fun _ _ hv => hu.trans hv) fun _ _ _ => trivial

theorem memWrite_transacts (a : Addr) (v : Word) (s : State) : (memWrite a v s).Transacts s 1 1 :=
  sat_mono (memWrite_trace a v s) (fun _ _ ⟨rx, h⟩ => h ▸ writeEvents_transacted _ a v rx) fun _ _ _ => trivial

theorem memRead_transacts (a : Addr) (s : State) : (memRead a s).Transacts s 1 2 :=
  sat_mono (memRead_trace a s) (fun _ _ ⟨rx1, rx2, h⟩ => h ▸ readEvents_transacted _ a rx1 rx2) fun _ _ _ => trivial

theorem memWrites_transacts (ws : List (Addr × Word)) (s : State) :
    (memWrites ws s).Transacts s ws.length ws.length := by
  induction ws generalizing s with
  | nil => exact Transacted.refl _
  | cons w rest ih =>
    rw [List.length_cons, Nat.add_comm]
    exact transacts_andThen (memWrite_transacts w.1 w.2 s) fun _ u => ih u

theorem editRegister_transacts (a : Addr) (bit : Nat) (en : Bool) (s : State) :
    (editRegister a bit en s).Transacts s 2 3 :=
  transacts_andThen (memRead_transacts a s) fun r u => memWrite_transacts a (editBit r.2 bit en) u

theorem thenRespond_transacts {α : Type} {f : State → Attempt α} {s : State} {m n : Nat} (r : α → Response)
    (h : (f s).Transacts s m n) : (thenRespond f r s).Transacts s m n :=
  transacts_andThen (m' := 0) (n' := 0) h fun _ u => Transacted.refl u.trace

/-! ### The transactions of a command -/

/-- The event that stands before the transactions of a command: begin's platform setup (R193). -/
def opening : Instr → List Event
  | .beginBlock cs => [.setup cs]
  | _ => []

theorem opening_cases (i : Instr) :
    (isBegin i = false ∧ opening i = []) ∨ ∃ cs, i = .beginBlock cs ∧ opening i = [.setup cs] := by
  cases i with
  | beginBlock cs => exact .inr ⟨cs, rfl, rfl⟩
  | _ => exact .inl ⟨rfl, rfl⟩

/-- The sequence of every command that completes is the opening and whole transactions, as many as R274's table says. -/
theorem body_transacts {i : Instr} (hc : isCommand i = true) (s : State) :
    (body i s).Sat (fun _ u => Transacted (s.trace ++ opening i) u.trace (scopeCount i) (exchangeCount i))
      fun _ _ => True := by
  have unopened : opening i = [] → (body i s).Transacts s (scopeCount i) (exchangeCount i) →
      (body i s).Sat (fun _ u => Transacted (s.trace ++ opening i) u.trace (scopeCount i) (exchangeCount i))
        fun _ _ => True := fun ho h => by rwa [ho, List.append_nil]
  cases i with
  | beginBlock cs =>
    refine sat_andThen (sat_andThen (platformSetup_trace cs (started (.beginBlock cs) s)) fun _ s2 h2 => ?_)
      fun _ _ h => h
    refine sat_andThen (memWrites_transacts (beginWrites s2.cfg s2.x) s2) fun _ s3 h3 => ?_
    rw [h2] at h3
    exact h3
  | write _ _ | setRampMode _ | moveTo _ | setPosition _ | setEncoderPosition _ =>
    exact unopened rfl (thenRespond_transacts _ (memWrite_transacts _ _ s))
  | setVelocity v =>
    exact unopened rfl (thenRespond_transacts (s := started (.setVelocity v) s) _ (memWrite_transacts _ v _))
  | read _ | getPosition | getEncoderPosition | isStopped =>
    exact unopened rfl (thenRespond_transacts _ (memRead_transacts _ s))
  | jog d =>
    exact unopened rfl (thenRespond_transacts (f := fun s0 => (memRead _ s0).andThen _) _
      (transacts_andThen (memRead_transacts _ s) fun p u => memWrite_transacts _ (p.2 + d) u))
  | enableStealthChop en | reverseDirection en =>
    exact unopened rfl (thenRespond_transacts _ (editRegister_transacts _ _ en s))
  | setCurrentLimits d hold run =>
    exact unopened rfl (thenRespond_transacts (f := fun s0 => (memWrite _ _ s0).andThen _) _
      (transacts_andThen (memWrite_transacts _ (currentWord d hold run) s) fun _ u => editRegister_transacts _ _ _ u))
  | updateMotionProfile =>
    exact unopened rfl (thenRespond_transacts _ (memWrites_transacts (commitWrites s.cfg s.x) s))
  | setProfileField k _ | getProfileField k =>
    refine unopened rfl ?_
    cases hk : profileIndex k <;> simp only [body, hk] <;> exact Transacted.refl s.trace
  | frameWr _ _ | frameRd _ => cases hc

/-- A command that reports no error is its sequence, completed, and the response (R13). -/
theorem exec_next_unfaulted {i : Instr} {s t : State} (hc : isCommand i = true) (h : exec i s = .next t)
    (hfault : t.fault = none) : ∃ r u, body i s = .done r u ∧ t = respond r u := by
  rcases finish_next (exec_next_eq_body hc h) with hok | ⟨e, u, hf, rfl⟩
  · exact hok
  · have hlatched : u.fault = some e := (sat_failed (body_within i s) hf).failed.1
    rw [respond_fault, hlatched] at hfault
    cases hfault

/-- Settles O51: the sequence completed (`exec_next_unfaulted`), so it is whole transactions (`body_transacts`). -/
theorem commandsAreWholeTransactions : Obligations.CommandsAreWholeTransactions := by
  intro i s t hc _ hx hfault
  obtain ⟨r, u, hdone, rfl⟩ := exec_next_unfaulted hc hx hfault
  obtain ⟨evs, htrace, hwhole, hscopes, hexchanges⟩ := sat_done (body_transacts hc s) hdone
  exact ⟨opening i, evs, encodeResponse r, by rw [respond_trace, htrace], opening_cases i, hwhole, hscopes, hexchanges⟩

/-! ### The answers an instruction takes -/

@[simp] theorem ended_env (i : Instr) (t : State) : (ended i t).env = t.env := by unfold ended; split <;> rfl
@[simp] theorem ended_draws (i : Instr) (t : State) : (ended i t).draws = t.draws := by unfold ended; split <;> rfl

/-- From `s` to `t` at most `n` answers were taken, in order: one per primitive (R9). -/
def TookAtMost (n : Nat) (s t : State) : Prop := ∃ k ≤ n, t.draws = s.draws + k ∧ t.env = s.env.drop k

theorem command_tookAtMost {i : Instr} {s t : State} (hc : isCommand i = true) (h : exec i s = .next t) :
    TookAtMost (primitiveCount i) s t := by
  rcases exec_next_accepts hc h with ha | ⟨-, rfl⟩
  · rcases exec_next_cases ha h with q | ⟨k, ans, e, landed, latch, release, hk, q, he, hv⟩
    · obtain ⟨r, u, evs, hu, hp⟩ := exec_completes ha q
      obtain rfl : t = respond r (ended i u) := by rw [h] at hu; cases hu; rfl
      exact ⟨primitiveCount i, le_rfl, (ended_draws ..).trans hp.ran.draws, (ended_env ..).trans hp.ran.env⟩
    · obtain ⟨u, _, pre, ev, _, hu, hab, -, -⟩ := exec_fails ha hk q he hv
      obtain rfl : t = respond (.transportError e) u := by rw [h] at hu; cases hu; rfl
      exact ⟨k + 1, hk, hab.draws, hab.env⟩
  · exact ⟨0, Nat.zero_le _, rfl, rfl⟩

/-- The exchange of a wire frame takes one answer, whether it completes or fails. -/
theorem wireExchange_tookAtMost {tx : Frame} {s t : State} (h : finishWire (wireExchange tx s) = .next t) :
    TookAtMost 1 s t := by
  rcases finishWire_next h with ⟨rx, hd⟩ | ⟨e, hf⟩
  · obtain ⟨-, rfl⟩ := sat_done (wireExchange_sat tx s) hd
    exact ⟨1, le_rfl, rfl, exchanged_env tx s⟩
  · obtain ⟨landed, latch, release, rfl⟩ := sat_failed (wireExchange_sat tx s) hf
    exact ⟨1, le_rfl, by simp, by simp⟩

theorem exec_tookAtMost {i : Instr} {s t : State} (h : exec i s = .next t) : TookAtMost (primitiveCount i) s t := by
  cases hc : isCommand i with
  | true => exact command_tookAtMost hc h
  | false =>
    cases i with
    | frameWr a v => exact wireExchange_tookAtMost h
    | frameRd a => exact wireExchange_tookAtMost h
    | _ => cases hc

theorem scopeCount_le (i : Instr) : scopeCount i ≤ 9 := by cases i <;> simp [scopeCount]

theorem exchangeCount_le (i : Instr) : exchangeCount i ≤ 9 := by cases i <;> simp [exchangeCount]

/-- An acquire and a release per scope, one primitive per exchange, and begin's setup: 2 · 9 + 9 + 1 (R275). -/
theorem primitiveCount_le (i : Instr) : primitiveCount i ≤ 28 := by
  have hscopes := scopeCount_le i
  have hexchanges := exchangeCount_le i
  unfold primitiveCount
  split <;> omega

/-- An accepted command none of whose primitives hangs completes them all, or ends in the error of the first that fails
(R221). -/
theorem exec_ends {i : Instr} {s : State} (h : s.Accepts i)
    (hends : ∀ ans ∈ s.env.take (primitiveCount i), ans.verdict ≠ .hangs) : ∃ t, exec i s = .next t := by
  rcases quiet_or_first s (primitiveCount i) with q | ⟨k, ans, hk, q, he, hv⟩
  · obtain ⟨r, t, evs, ht, -⟩ := exec_completes h q
    exact ⟨_, ht⟩
  · cases hverdict : ans.verdict with
    | completes => exact absurd hverdict hv
    | fails e landed latch release =>
      obtain ⟨t, _, _, _, _, ht, -⟩ := exec_fails h hk q he hverdict
      exact ⟨_, ht⟩
    | hangs =>
      have hmem : ans ∈ s.env.take (primitiveCount i) :=
        List.mem_of_getElem? (i := k) (by rw [List.getElem?_take_of_lt hk, he])
      exact absurd hverdict (hends ans hmem)

/-- Settles O52: one answer per primitive (`exec_tookAtMost`), the counts of R274's table, and `exec_ends`. -/
theorem commandsPerformAtMost28Primitives : Obligations.CommandsPerformAtMost28Primitives := by
  refine ⟨fun i s t hx => ?_, primitiveCount_le, fun _ => rfl, fun _ _ => exec_ends⟩
  obtain ⟨k, hk, hdraws, henv⟩ := exec_tookAtMost hx
  rw [hdraws, Nat.add_sub_cancel_left]
  exact ⟨Nat.add_le_add_left hk _, henv⟩

end Sys2Proof.Machine
end
